-- ==== Sys2Proof/Word.lean ====
section
/-! DEFINITION. The word types of the block: bus words, stream indices, complex samples
(00_scope.md rules R18, R19; 10_state.md rule R48; 20_memory.md rule R120). -/

namespace Sys2Proof

/-- One byte: a demodulated byte, a fault code, a selector. -/
abbrev Byte := BitVec 8

/-- One 32-bit word: a bus word, a real component (R18), a phase or an angle (R25). -/
abbrev Word := BitVec 32

/-- A stream counter, a tag index, half of a time value: `IDXW = 64` bits (R48, R30). -/
abbrev Dword := BitVec 64

/-- A byte address of the register bus: 20 bits (20_memory.md R123). -/
abbrev BusAddr := BitVec 20

/-- A complex value (R19): two real components in two's complement (R18). -/
structure Cplx where
  re : Word
  im : Word
deriving DecidableEq, Repr, Inhabited

end Sys2Proof
end

