-- ==== Sys2Proof/Config.lean ====
section
/-! DEFINITION. What one build of the hardware fixes (00_scope.md R8, 10_state.md R55) and the values the spec
leaves open, each an opaque constant that no proof can see into (93_implementation_defined.md M1, M2, M7 to M9). -/

namespace Sys2Proof.Config

/-- `F`: fraction bits of one component (R8). -/
def fracBits : Nat := 16
/-- `ONE = 2^F` (R8, R18). -/
def one : Word := 65536#32
/-- `SMAX = 2^(W-1) - 1` (R18). -/
def smax : Int := 2147483647
/-- `SMIN = -2^(W-1)` (R18). -/
def smin : Int := -2147483648
/-- `MAX_FFT` (R8). -/
def maxFft : Nat := 4096
/-- `MAX_PRE` (R8). -/
def maxPre : Nat := 16
/-- `MAX_CONST` (R8). -/
def maxConst : Nat := 256
/-- `MAX_PKT` (R8). -/
def maxPkt : Nat := 4095
/-- `HDR_BYTES` (R8). -/
def hdrBytes : Nat := 4
/-- `EQ_NORM_MIN` (R8), in units of `2^(-2F)`. -/
def eqNormMin : Int := 4294967

/-- `ID` (R55). -/
def idWord : Word := 0x4F464231#32
/-- `PARAMS0` (R55): `F`, `W`, `MAX_FFT`. -/
def params0 : Word := 0x10201000#32
/-- `PARAMS1` (R55): `HDR_BYTES`, `MAX_PRE`, `MAX_PKT`. -/
def params1 : Word := 0x04100FFF#32

/-- What an unspecified value stands for; each draw names its kind and a key of numbers. -/
inductive Unspec where
  /-- a HOST read of an unspecified word (10_state.md R54, M7); key: draw number, address -/
  | busRead
  /-- a table word a commit uses that was never written (70_reset_and_hazards.md R395, M8); key: draw number, address -/
  | tableEntry
  /-- a component of a tap that was never written (R54: never read on a run from reset); key: draw number, index, half -/
  | tap
  /-- a component of a sample that an item of the wrong size does not hold (M9); key: port, item index, position, half -/
  | sample
  /-- a component of a reference point or preamble sample outside the committed table; key: table, index, position, half -/
  | point
  /-- a bit pattern outside the committed table; key: index -/
  | pattern
  /-- a payload byte that was never stored (R54: never read on a run from reset); key: draw number, index -/
  | payload
deriving DecidableEq, Repr

/-- FREE VALUE (log 5, 6, 8): an unspecified word. Nothing constrains it. -/
opaque anyWord (what : Unspec) (key : List Nat) : Word

/-- FREE VALUE (log 7, M1): `ROTOR` away from its required exact point (R27). -/
opaque rotorAt (p : Word) : Cplx

/-- FREE VALUE (log 7, M2): `ARG` away from its required exact points (R28), as the low 32 bits of the angle. -/
opaque argAt (re im : Int) : Word

end Sys2Proof.Config
end

