-- ==== Sys2Proof/Syntax.lean ====
section
/-! DEFINITION. The operations of the block: one constructor for each row of spec/opcode_table.json
(30_encoding.md R162, R168), and the two forms in which an operation reaches the block: a selector byte (R160)
or a bus access (20_memory.md R120). -/

namespace Sys2Proof

/-- The four engines, numbered 0 to 3 (10_state.md R41). -/
inductive Engine where
  | samp | fsync | pins | cpfx
deriving DecidableEq, Repr

/-- One operation. Operands: the raw condition bits the row's mask ignores (30_encoding.md R161), the engine, the bus
address and the written data word. -/
inductive Instr where
  /-- SA.SCAN (R214); `l` is the ignored condition bit `L`. -/
  | saScan (l : Bool)
  /-- SA.ACQ (R210). -/
  | saAcq (l : Bool)
  /-- SA.SYM (R212). -/
  | saSym
  /-- SA.LAST (R213). -/
  | saLast
  /-- SA.REACQ (R211). -/
  | saReacq (l : Bool)
  /-- FS.IDLE (R231). -/
  | fsIdle
  /-- FS.ACQ (R232). -/
  | fsAcq
  /-- FS.HDR (R250); `sig` is the ignored flag `SIG` (R234). -/
  | fsHdr (sig : Bool)
  /-- FS.PAY (R258). -/
  | fsPay (sig : Bool)
  /-- PI.DROP (R281); `pl` is the ignored condition bit `PL`. -/
  | piDrop (pl : Bool)
  /-- PI.DETECT (R282). -/
  | piDetect (pl : Bool)
  /-- PI.PRE (R283); `bs` is the ignored flag `BS`. -/
  | piPre (bs : Bool)
  /-- PI.PREL (R284). -/
  | piPrel (bs : Bool)
  /-- PI.FIRST (R285). -/
  | piFirst (pl bs : Bool)
  /-- PI.COPY (R286). -/
  | piCopy (pl : Bool)
  /-- PI.REDETECT (R287). -/
  | piRedetect (pl : Bool)
  /-- CP.SYM (R301). -/
  | cpSym
  /-- CP.EOB (R302). -/
  | cpEob
  /-- SYS.SRST (R336): the write of `d` to CTRL of engine `e`. -/
  | sysSrst (e : Engine) (d : Word)
  /-- SYS.COMMIT (R331). -/
  | sysCommit (e : Engine) (d : Word)
  /-- SYS.STOP (R335). -/
  | sysStop (e : Engine) (d : Word)
  /-- SYS.CFGWR (R337): the write of `d` to the configuration word at `a`. -/
  | sysCfgwr (a : BusAddr) (d : Word)
  /-- SYS.W1C (R338): the write of `d` to STATUS of engine `e`. -/
  | sysW1c (e : Engine) (d : Word)
  /-- SYS.READ (R344): the read of the word at `a`. -/
  | sysRead (a : BusAddr)
deriving DecidableEq, Repr

/-- The width of a bus access (20_memory.md R122: only `word` accesses are performed). -/
inductive BusWidth where
  | byte | half | word
deriving DecidableEq, Repr

/-- What a bus access does. -/
inductive BusOp where
  | read
  | write (d : Word)
deriving DecidableEq, Repr

/-- One access of HOST to the register bus (20_memory.md R120). -/
structure BusAccess where
  op : BusOp
  addr : BusAddr
  width : BusWidth
deriving DecidableEq, Repr

/-- An encoded operation: the selector of an engine step, or a bus access. -/
inductive Code where
  | sel (b : Byte)
  | bus (a : BusAccess)
deriving DecidableEq, Repr

end Sys2Proof
end

