-- ==== Sys2Proof/Machine/AddrMap.lean ====
section
/-! DEFINITION. The address map of the register bus: register banks, configuration registers and table windows
(10_state.md R55 to R72, 20_memory.md R123). -/

namespace Sys2Proof.Machine

/-- The engine's number (10_state.md R41). -/
def engineNum : Engine → BitVec 2
  | .samp => 0#2
  | .fsync => 1#2
  | .pins => 2#2
  | .cpfx => 3#2

/-- `BASE(e) = 0x00100 * (e + 1)` (10_state.md R56). -/
def baseOf : Engine → BusAddr
  | .samp => 0x00100#20
  | .fsync => 0x00200#20
  | .pins => 0x00300#20
  | .cpfx => 0x00400#20

/-- The engine whose CTRL register is at `a` (R56). -/
def ctrlAt (a : BusAddr) : Option Engine :=
  if a = 0x00100#20 then some .samp else if a = 0x00200#20 then some .fsync
  else if a = 0x00300#20 then some .pins else if a = 0x00400#20 then some .cpfx else none

/-- The engine whose STATUS register is at `a` (R56). -/
def statusAt (a : BusAddr) : Option Engine :=
  if a = 0x00104#20 then some .samp else if a = 0x00204#20 then some .fsync
  else if a = 0x00304#20 then some .pins else if a = 0x00404#20 then some .cpfx else none

/-- The engine in whose register bank `a` lies (20_memory.md R123). -/
def bankAt (a : BusAddr) : Option Engine :=
  let n := a.toNat
  if 0x100 ≤ n ∧ n < 0x200 then some .samp else if 0x200 ≤ n ∧ n < 0x300 then some .fsync
  else if 0x300 ≤ n ∧ n < 0x400 then some .pins else if 0x400 ≤ n ∧ n < 0x500 then some .cpfx else none

/-- The configuration registers, access code RWD (R60, R62, R64, R66). -/
inductive CfgReg where
  | sampPolicy | sampFftLen | sampSymLen | sampBandwidth | sampTimeout
  | fsyncPolicy | fsyncFftLen | fsyncOccCarriers | fsyncConstNpoints | fsyncConstNvalues
  | fsyncPhaseGain | fsyncFreqGain | fsyncEqGain
  | pinsFftLen | pinsNPre | pinsPreSymLen
  | cpfxInSize | cpfxOutSize
deriving DecidableEq, Repr

/-- Where each configuration register stands (R60, R62, R64, R66). -/
def cfgRegTable : List (BusAddr × CfgReg) :=
  [ (0x0013C#20, .sampPolicy), (0x00140#20, .sampFftLen), (0x00144#20, .sampSymLen),
    (0x00148#20, .sampBandwidth), (0x0014C#20, .sampTimeout),
    (0x0023C#20, .fsyncPolicy), (0x00240#20, .fsyncFftLen), (0x00244#20, .fsyncOccCarriers),
    (0x00248#20, .fsyncConstNpoints), (0x0024C#20, .fsyncConstNvalues), (0x00250#20, .fsyncPhaseGain),
    (0x00254#20, .fsyncFreqGain), (0x00258#20, .fsyncEqGain),
    (0x00340#20, .pinsFftLen), (0x00344#20, .pinsNPre), (0x00348#20, .pinsPreSymLen),
    (0x00440#20, .cpfxInSize), (0x00444#20, .cpfxOutSize) ]

/-- The configuration register at `a`, if there is one. -/
def cfgRegAt (a : BusAddr) : Option CfgReg := cfgRegTable.lookup a

/-- The engine that owns a configuration register. -/
def CfgReg.owner : CfgReg → Engine
  | .sampPolicy | .sampFftLen | .sampSymLen | .sampBandwidth | .sampTimeout => .samp
  | .fsyncPolicy | .fsyncFftLen | .fsyncOccCarriers | .fsyncConstNpoints | .fsyncConstNvalues
  | .fsyncPhaseGain | .fsyncFreqGain | .fsyncEqGain => .fsync
  | .pinsFftLen | .pinsNPre | .pinsPreSymLen => .pins
  | .cpfxInSize | .cpfxOutSize => .cpfx

/-- The table memories on the bus, access code RWD (R68, R69, R72). -/
inductive Table where
  | carrierMask | constRe | constIm | constVal | pre
deriving DecidableEq, Repr

/-- The table whose window holds `a` (20_memory.md R123). -/
def tableAt (a : BusAddr) : Option Table :=
  let n := a.toNat
  if 0x1000 ≤ n ∧ n < 0x1200 then some .carrierMask
  else if 0x1400 ≤ n ∧ n < 0x1800 then some .constRe
  else if 0x1800 ≤ n ∧ n < 0x1C00 then some .constIm
  else if 0x1C00 ≤ n ∧ n < 0x2000 then some .constVal
  else if 0x80000 ≤ n then some .pre
  else none

/-- The engine that owns a table. -/
def Table.owner : Table → Engine
  | .carrierMask | .constRe | .constIm | .constVal => .fsync
  | .pre => .pins

/-- The bits of a written word that a table keeps: `CONST_VAL` has bits [7:0] only (R69, 45_system_ops.md R340). -/
def Table.keep : Table → Word → Word
  | .constVal, d => d &&& 0xFF#32
  | _, d => d

/-- Byte address of `CARRIER_MASK[w]` (R68). -/
def maskAddr (w : Nat) : Nat := 0x1000 + 4 * w
/-- Byte address of `CONST_RE[k]` (R69). -/
def constReAddr (k : Nat) : Nat := 0x1400 + 4 * k
/-- Byte address of `CONST_IM[k]` (R69). -/
def constImAddr (k : Nat) : Nat := 0x1800 + 4 * k
/-- Byte address of `CONST_VAL[k]` (R69). -/
def constValAddr (k : Nat) : Nat := 0x1C00 + 4 * k
/-- Byte address of the real half of `PRE[s][j]`; the imaginary half is 4 above it (R72). -/
def preAddr (s j : Nat) : Nat := 0x80000 + 8 * (s * Config.maxFft + j)

/-- `IRQ_ENABLE` (R55). -/
def irqEnableAddr : BusAddr := 0x00010#20

/-- A word the bus can write as configuration: an RWD register, a table word, or the global register `IRQ_ENABLE`
(45_system_ops.md R330, R337). -/
def isCfgWord (a : BusAddr) : Bool :=
  (cfgRegAt a).isSome || (tableAt a).isSome || a == irqEnableAddr

/-- An address that is a multiple of 4 (20_memory.md R122). -/
def aligned (a : BusAddr) : Bool := (a &&& 3#20) == 0#20

end Sys2Proof.Machine
end

