-- ==== Sys2Proof/WellFormed.lean ====
section
/-! DEFINITION. Which operations the spec's encodings admit (30_encoding.md R162, R168): the data pattern of a system
operation and the address of a configuration write or a read. An engine operation is well formed whatever its ignored bits. -/

namespace Sys2Proof

/-- The operand check of 30_encoding.md R168. -/
def Instr.wf : Instr → Bool
  | .sysSrst _ d => d.getLsbD 1
  | .sysCommit _ d => d.getLsbD 0 && !d.getLsbD 1
  | .sysStop _ d => !d.getLsbD 0 && !d.getLsbD 1
  | .sysCfgwr a _ => Machine.aligned a && Machine.isCfgWord a
  | .sysW1c _ d => d.getLsbD 7
  | .sysRead a => Machine.aligned a
  | _ => true

end Sys2Proof
end

