-- ==== Sys2Proof/Decode.lean ====
section
/-! DEFINITION. Decoding a selector byte (30_encoding.md R160 to R165) and a bus access (R168, 20_memory.md R122), the
encoder beside it, and the numbering of spec/opcode_table.json. -/

namespace Sys2Proof

/-- Why an encoding is no operation. -/
inductive DecodeError where
  /-- a reserved selector: SAMP or FSYNC with a reserved or transient state (R165); the step raises `F_ILLEGAL_STATE` -/
  | illegalState (st : BitVec 2)
  /-- a selector no engine can form: it has no meaning (R165) -/
  | unformable
  /-- a bus access that is unaligned or not 32 bits wide: not performed (20_memory.md R122) -/
  | notAlignedWord
  /-- a write to STATUS without bit 7: the other bits are read-only (45_system_ops.md R338) -/
  | statusReadOnly
  /-- a write to a read-only register or a reserved address: ignored (10_state.md section 6, 20_memory.md R123) -/
  | ignoredWrite
deriving DecidableEq, Repr

/-- The layout of SEL (R160): `eng`, `st`, two zero bits, `c1`, `c0`. -/
def selByte (eng st : BitVec 2) (c1 c0 : Bool) : Byte :=
  eng ++ st ++ 0#2 ++ BitVec.ofBool c1 ++ BitVec.ofBool c0

/-- `SEL & mask == match`, the test of a row of R162. -/
def selHits (b mtch mask : Byte) : Bool := (b &&& mask) == mtch

/-- The operation table (R162), first matching row; the ignored condition bits become operands. Selectors of no row:
SAMP with `st` 1 or 3 and FSYNC with `st` 3 are reserved, the rest cannot be formed (R165). -/
def decodeSel (b : Byte) : Except DecodeError Instr :=
  let c0 := b.getLsbD 0
  let c1 := b.getLsbD 1
  if selHits b 0x00#8 0xFD#8 then .ok (.saScan c1)
  else if selHits b 0x01#8 0xFD#8 then .ok (.saAcq c1)
  else if selHits b 0x20#8 0xFF#8 then .ok .saSym
  else if selHits b 0x22#8 0xFF#8 then .ok .saLast
  else if selHits b 0x21#8 0xFD#8 then .ok (.saReacq c1)
  else if selHits b 0x40#8 0xFF#8 then .ok .fsIdle
  else if selHits b 0x41#8 0xFF#8 then .ok .fsAcq
  else if selHits b 0x50#8 0xFE#8 then .ok (.fsHdr c0)
  else if selHits b 0x60#8 0xFE#8 then .ok (.fsPay c0)
  else if selHits b 0x80#8 0xFD#8 then .ok (.piDrop c1)
  else if selHits b 0x81#8 0xFD#8 then .ok (.piDetect c1)
  else if selHits b 0x90#8 0xFE#8 then .ok (.piPre c0)
  else if selHits b 0x92#8 0xFE#8 then .ok (.piPrel c0)
  else if selHits b 0xA0#8 0xFC#8 then .ok (.piFirst c1 c0)
  else if selHits b 0xB0#8 0xFD#8 then .ok (.piCopy c1)
  else if selHits b 0xB1#8 0xFD#8 then .ok (.piRedetect c1)
  else if selHits b 0xC0#8 0xFF#8 then .ok .cpSym
  else if selHits b 0xC1#8 0xFF#8 then .ok .cpEob
  else if selHits b 0x10#8 0xF0#8 || selHits b 0x30#8 0xF0#8 || selHits b 0x70#8 0xF0#8 then
    .error (.illegalState (b.extractLsb' 4 2))
  else .error .unformable

/-- The system operation a bus access performs (R168); `SYS.SRST` goes before the `EN` bit of the same write. -/
def decodeBus (acc : BusAccess) : Except DecodeError Instr :=
  if acc.width ≠ .word ∨ Machine.aligned acc.addr = false then .error .notAlignedWord
  else match acc.op with
    | .read => .ok (.sysRead acc.addr)
    | .write d =>
      match Machine.ctrlAt acc.addr with
      | some e =>
        if d.getLsbD 1 then .ok (.sysSrst e d)
        else if d.getLsbD 0 then .ok (.sysCommit e d)
        else .ok (.sysStop e d)
      | none =>
        match Machine.statusAt acc.addr with
        | some e => if d.getLsbD 7 then .ok (.sysW1c e d) else .error .statusReadOnly
        | none =>
          if Machine.isCfgWord acc.addr then .ok (.sysCfgwr acc.addr d) else .error .ignoredWrite

/-- The decoder, total on every selector byte and every bus access. -/
def decode : Code → Except DecodeError Instr
  | .sel b => decodeSel b
  | .bus a => decodeBus a

/-- An aligned 32-bit write. -/
def busWrite (a : BusAddr) (d : Word) : BusAccess := { op := .write d, addr := a, width := .word }

/-- An aligned 32-bit read. -/
def busRead (a : BusAddr) : BusAccess := { op := .read, addr := a, width := .word }

/-- The encoder, from the same tables (R160, R162, R168). -/
def encode : Instr → Code
  | .saScan l => .sel (selByte 0#2 0#2 l false)
  | .saAcq l => .sel (selByte 0#2 0#2 l true)
  | .saSym => .sel (selByte 0#2 2#2 false false)
  | .saLast => .sel (selByte 0#2 2#2 true false)
  | .saReacq l => .sel (selByte 0#2 2#2 l true)
  | .fsIdle => .sel (selByte 1#2 0#2 false false)
  | .fsAcq => .sel (selByte 1#2 0#2 false true)
  | .fsHdr sig => .sel (selByte 1#2 1#2 false sig)
  | .fsPay sig => .sel (selByte 1#2 2#2 false sig)
  | .piDrop pl => .sel (selByte 2#2 0#2 pl false)
  | .piDetect pl => .sel (selByte 2#2 0#2 pl true)
  | .piPre bs => .sel (selByte 2#2 1#2 false bs)
  | .piPrel bs => .sel (selByte 2#2 1#2 true bs)
  | .piFirst pl bs => .sel (selByte 2#2 2#2 pl bs)
  | .piCopy pl => .sel (selByte 2#2 3#2 pl false)
  | .piRedetect pl => .sel (selByte 2#2 3#2 pl true)
  | .cpSym => .sel (selByte 3#2 0#2 false false)
  | .cpEob => .sel (selByte 3#2 0#2 false true)
  | .sysSrst e d => .bus (busWrite (Machine.baseOf e) d)
  | .sysCommit e d => .bus (busWrite (Machine.baseOf e) d)
  | .sysStop e d => .bus (busWrite (Machine.baseOf e) d)
  | .sysCfgwr a d => .bus (busWrite a d)
  | .sysW1c e d => .bus (busWrite (Machine.baseOf e + 4#20) d)
  | .sysRead a => .bus (busRead a)

/-- The selector an operation has: what its step latches into `LAST_SEL` (R160); a bus operation has none. -/
def Instr.sel (i : Instr) : Byte :=
  match encode i with
  | .sel b => b
  | .bus _ => 0#8

/-- DESIGN CHOICE (log 3): the bus access a 32-bit row of the table stands for. The table gives the row's data pattern and no
bits for its address; the access is laid out for engine SAMP, at STATUS for a word with bit 7 and without bits 1:0 (the
pattern of SYS.W1C), at CTRL for every other word. -/
def tableAccess (d : Word) : BusAccess :=
  if d.getLsbD 7 && !d.getLsbD 0 && !d.getLsbD 1 then busWrite (Machine.baseOf .samp + 4#20) d
  else busWrite (Machine.baseOf .samp) d

/-- The operation as spec/opcode_table.json numbers its bits: 8-bit rows are selectors, 32-bit rows are bus data. -/
def tableCode (nbits w : Nat) : Option Code :=
  if nbits = 8 then some (.sel (BitVec.ofNat 8 w))
  else if nbits = 32 then some (.bus (tableAccess (BitVec.ofNat 32 w)))
  else none

/-- The operation the decoder reads from a word of the opcode table. -/
def decodeTableWord (nbits w : Nat) : Option Instr :=
  match tableCode nbits w with
  | none => none
  | some c =>
    match decode c with
    | .ok i => some i
    | .error _ => none

end Sys2Proof
end

