-- ==== Sys2Proof/Machine/State.lean ====
section
/-! DEFINITION. The state of the machine as plain data: the four engines (10_state.md R42 to R66), the table memories
(R68 to R72), the streams, tag lists and message queue the spec gives the model as environment state (20_memory.md R101,
R106, R110), and the coming actions of the agents (R130). -/

namespace Sys2Proof.Machine

/-! ## Items, tags, frames (30_encoding.md R141 to R155) -/

/-- A SAMP.IN item: one sample and its trigger flag (R141). -/
structure SampleItem where
  s : Cplx
  trig : Bool
deriving DecidableEq, Repr

/-- A SAMP.OUT or FSYNC.IN item: a symbol and `SIG` (R142). -/
structure SigSymbol where
  s : List Cplx
  sig : Bool
deriving DecidableEq, Repr

/-- A PINS.IN item: a symbol, `BS` and `AUX` (R143). -/
structure BurstSymbol where
  s : List Cplx
  bs : Bool
  aux : Bool
deriving DecidableEq, Repr

/-- A PINS.OUT item: a symbol and `AUX` (R143). -/
structure AuxSymbol where
  s : List Cplx
  aux : Bool
deriving DecidableEq, Repr

/-- A CPFX.IN item: a symbol and `EOB` (R144). -/
structure EobSymbol where
  s : List Cplx
  eob : Bool
deriving DecidableEq, Repr

/-- A tag record (R146). The port is the list the record stands in. -/
structure Tag where
  src : Byte
  key : BitVec 3
  index : Dword
  value : BitVec 128
deriving DecidableEq, Repr

/-- A Decoded Frame (R155). -/
structure Frame where
  type : Word
  arg1 : Word
  arg2 : Word
  tsValid : Bool
  cfoValid : Bool
  tsSecs : Dword
  tsFrac : Dword
  cfo : Dword
  len : Word
  payload : List Byte
deriving DecidableEq, Repr

/-! ## Streams (20_memory.md R101, R102) -/

/-- An input port. `items` are the items offered and not consumed: the first stands at absolute index `rd`. `tags` is
`TAGS(port)` in production order (44_tag_protocol.md R310). Items and tags offered while the engine is disabled belong to its next
run (70_reset_and_hazards.md R396) and wait in `staged`, `stagedTags` for the commit (log 9). -/
structure InPort (α : Type) where
  items : List α
  tags : List Tag
  staged : List α
  stagedTags : List Tag
deriving DecidableEq, Repr

/-- An output port: the items produced in this run (index 0 first), `TAGS(port)`, the room SCHED grants (`none` = unlimited,
30_encoding.md R170) and how many of the items XFORM has relayed (20_memory.md R112). -/
structure OutPort (α : Type) where
  items : List α
  tags : List Tag
  space : Option Nat
  relayed : Nat
deriving DecidableEq, Repr

/-- An input port with nothing offered. -/
def InPort.empty {α : Type} : InPort α := { items := [], tags := [], staged := [], stagedTags := [] }

/-- An output port with nothing produced and unlimited room. -/
def OutPort.empty {α : Type} : OutPort α := { items := [], tags := [], space := none, relayed := 0 }

/-- The input ports, as a tag producer names them (20_memory.md R105). -/
inductive InPortId where
  | sampIn | fsyncIn | pinsIn | cpfxIn
deriving DecidableEq, Repr

/-- The output ports (20_memory.md R105). -/
inductive OutPortId where
  | sampOut | pinsOut | cpfxOut
deriving DecidableEq, Repr

/-! ## The engines -/

/-- Common control and status registers of an engine (10_state.md R56). -/
structure Ctl where
  en : Bool
  cfgErr : Bool
  fault : Bool
  cfgWrIgn : Bool
  faultCode : Byte
  faultInfo : Word
  cfgErrCode : Byte
  lastSel : Byte
  lastValid : Bool
deriving DecidableEq, Repr

/-- SAMP configuration registers (R60). -/
structure SampRegs where
  policy : Bool
  fftLen : Word
  symLen : Word
  bandwidth : Word
  timeout : Word
deriving DecidableEq, Repr

/-- SAMP working state (R42). -/
structure SampWork where
  state : BitVec 2
  rd : Dword
  wr : Dword
  countdown : Word
  atValid : Bool
  atSecs : Dword
  atFrac : Dword
  atIdx : Dword
  cfoValid : Bool
  cfoVal : Dword
  cfoSrc : Byte
  dropCnt : Word
  burstCnt : Word
  timeoutCnt : Word
deriving DecidableEq, Repr

/-- The sampler: registers as written, as committed (`CFG.*`, 45_system_ops.md R331), working state. -/
structure Samp where
  ctl : Ctl
  reg : SampRegs
  cfg : SampRegs
  work : SampWork
deriving DecidableEq, Repr

/-- FSYNC configuration registers (R62). -/
structure FsyncRegs where
  policy : Bool
  fftLen : Word
  occCarriers : Word
  constNpoints : Word
  constNvalues : Word
  phaseGain : Word
  freqGain : Word
  eqGain : Word
deriving DecidableEq, Repr

/-- FSYNC working state (R43). A tap or payload byte that was never written has no entry. -/
structure FsyncWork where
  state : BitVec 2
  rd : Dword
  taps : List Cplx
  phase : Word
  freq : Word
  hdr : Word
  hdrCnt : BitVec 3
  pktLen : BitVec 12
  whit : BitVec 4
  pktCnt : BitVec 12
  pkt : List Host.Cell
  pkBits : BitVec 15
  pkN : BitVec 4
  tsValid : Bool
  tsSecs : Dword
  tsFrac : Dword
  cfoValid : Bool
  cfoVal : Dword
  missingCnt : Word
  badhdrCnt : Word
  frameCnt : Word
deriving DecidableEq, Repr

/-- The frame synchronizer. `map`, `refs`, `vals` are what the commit derived and froze (45_system_ops.md R342; 20_memory.md R134). -/
structure Fsync where
  ctl : Ctl
  reg : FsyncRegs
  cfg : FsyncRegs
  map : List (BitVec 12)
  refs : List Cplx
  vals : List Byte
  work : FsyncWork
deriving DecidableEq, Repr

/-- PINS configuration registers (R64). -/
structure PinsRegs where
  fftLen : Word
  nPre : Word
  preSymLen : Word
deriving DecidableEq, Repr

/-- PINS working state (R44). -/
structure PinsWork where
  state : BitVec 2
  rd : Dword
  wr : Dword
  preIdx : Byte
deriving DecidableEq, Repr

/-- The preamble inserter; `pre` is the preamble memory as committed. -/
structure Pins where
  ctl : Ctl
  reg : PinsRegs
  cfg : PinsRegs
  pre : List (List Cplx)
  work : PinsWork
deriving DecidableEq, Repr

/-- CPFX configuration registers (R66). -/
structure CpfxRegs where
  inSize : Word
  outSize : Word
deriving DecidableEq, Repr

/-- CPFX working state (R45). -/
structure CpfxWork where
  rd : Dword
  wr : Dword
deriving DecidableEq, Repr

/-- The cyclic prefixer. -/
structure Cpfx where
  ctl : Ctl
  reg : CpfxRegs
  cfg : CpfxRegs
  work : CpfxWork
deriving DecidableEq, Repr

/-! ## The agents' actions (20_memory.md R130, 30_encoding.md R170) -/

/-- One atomic action of one agent. -/
inductive Action where
  /-- HOST performs a bus access -/
  | bus (acc : BusAccess)
  /-- SCHED invokes the engine's step; a held engine does nothing (20_memory.md R103) -/
  | step (e : Engine)
  /-- SCHED offers one more item on SAMP.IN -/
  | pushSamp (x : SampleItem)
  /-- SCHED or XFORM offers one more symbol on FSYNC.IN -/
  | pushFsync (x : SigSymbol)
  /-- SCHED offers one more symbol on PINS.IN -/
  | pushPins (x : BurstSymbol)
  /-- SCHED or XFORM offers one more symbol on CPFX.IN -/
  | pushCpfx (x : EobSymbol)
  /-- an environment producer appends a tag to an input port -/
  | tag (p : InPortId) (t : Tag)
  /-- SCHED accepts `n` more items on an output port -/
  | room (p : OutPortId) (n : Nat)
  /-- the queue can take `n` more frames -/
  | qroom (n : Nat)
  /-- the consumer takes the oldest frame of the queue -/
  | dequeue
  /-- XFORM relays the next item SAMP.OUT to FSYNC.IN; `ys` is what it makes of the samples (20_memory.md R112) -/
  | relayRx (ys : List Cplx)
  /-- XFORM relays the next item PINS.OUT to CPFX.IN -/
  | relayTx (ys : List Cplx)
  /-- the reset input is active (70_reset_and_hazards.md R390) -/
  | hwReset
deriving DecidableEq, Repr

/-! ## The whole state -/

/-- The state of the block and of its environment. `mem` holds the table memories (R68, R69, R72) as byte cells at their
bus addresses; `agenda`, `rdata` and `draws` are the model's own (log 1, 20, 5). -/
structure State where
  samp : Samp
  fsync : Fsync
  pins : Pins
  cpfx : Cpfx
  irqEnable : BitVec 4
  mem : List Host.Cell
  sampIn : InPort SampleItem
  sampOut : OutPort SigSymbol
  fsyncIn : InPort SigSymbol
  pinsIn : InPort BurstSymbol
  pinsOut : OutPort AuxSymbol
  cpfxIn : InPort EobSymbol
  cpfxOut : OutPort Cplx
  msgq : List Frame
  qroom : Option Nat
  agenda : List Action
  rdata : Word
  draws : Nat
deriving DecidableEq, Repr

/-- Why the model stops. No hardware fault is one of these: a hardware fault is a next state (60_exceptions.md R364). -/
inductive Fault where
  /-- Raised by the engine step when its selector is one that no engine can form (30_encoding.md R165: it has no meaning).
  No step raises it, since the selector is built from state and condition bits (log 21). Safe: the machine stops. -/
  | unformableSelector
deriving DecidableEq, Repr

/-- Why the model refuses an operation. -/
inductive Refusal where
  /-- Raised by exec's arm of an operation that has no meaning yet. Safe. -/
  | notModelled (mnemonic : String)
deriving DecidableEq, Repr

/-! ## Reset values (10_state.md R42 to R56, R80) -/

/-- Common registers after reset (R56). -/
def Ctl.reset : Ctl :=
  { en := false, cfgErr := false, fault := false, cfgWrIgn := false, faultCode := 0#8, faultInfo := 0#32,
    cfgErrCode := 0#8, lastSel := 0#8, lastValid := false }

/-- SAMP registers after reset (R60). -/
def SampRegs.reset : SampRegs :=
  { policy := false, fftLen := 0#32, symLen := 0#32, bandwidth := 0#32, timeout := 0#32 }

/-- SAMP working state after reset (R42); the value parts of the tag latches are 0 by DESIGN CHOICE (log 4). -/
def SampWork.reset : SampWork :=
  { state := 0#2, rd := 0#64, wr := 0#64, countdown := 0#32, atValid := false, atSecs := 0#64, atFrac := 0#64,
    atIdx := 0#64, cfoValid := false, cfoVal := 0#64, cfoSrc := 0#8, dropCnt := 0#32, burstCnt := 0#32,
    timeoutCnt := 0#32 }

/-- FSYNC registers after reset (R62). -/
def FsyncRegs.reset : FsyncRegs :=
  { policy := false, fftLen := 0#32, occCarriers := 0#32, constNpoints := 0#32, constNvalues := 0#32,
    phaseGain := 0#32, freqGain := 0#32, eqGain := 0#32 }

/-- FSYNC working state after reset (R43); taps and payload unwritten (log 6), tag latches 0 (log 4). -/
def FsyncWork.reset : FsyncWork :=
  { state := 0#2, rd := 0#64, taps := [], phase := 0#32, freq := 0#32, hdr := 0#32, hdrCnt := 0#3, pktLen := 0#12,
    whit := 0#4, pktCnt := 0#12, pkt := [], pkBits := 0#15, pkN := 0#4, tsValid := false, tsSecs := 0#64,
    tsFrac := 0#64, cfoValid := false, cfoVal := 0#64, missingCnt := 0#32, badhdrCnt := 0#32, frameCnt := 0#32 }

/-- PINS registers after reset (R64). -/
def PinsRegs.reset : PinsRegs := { fftLen := 0#32, nPre := 0#32, preSymLen := 0#32 }

/-- PINS working state after reset (R44). -/
def PinsWork.reset : PinsWork := { state := 0#2, rd := 0#64, wr := 0#64, preIdx := 0#8 }

/-- CPFX registers after reset (R66). -/
def CpfxRegs.reset : CpfxRegs := { inSize := 0#32, outSize := 0#32 }

/-- CPFX working state after reset (R45). -/
def CpfxWork.reset : CpfxWork := { rd := 0#64, wr := 0#64 }

/-- SAMP after hardware reset (R80). -/
def Samp.reset : Samp :=
  { ctl := Ctl.reset, reg := SampRegs.reset, cfg := SampRegs.reset, work := SampWork.reset }

/-- FSYNC after hardware reset (R80). -/
def Fsync.reset : Fsync :=
  { ctl := Ctl.reset, reg := FsyncRegs.reset, cfg := FsyncRegs.reset, map := [], refs := [], vals := [],
    work := FsyncWork.reset }

/-- PINS after hardware reset (R80). -/
def Pins.reset : Pins :=
  { ctl := Ctl.reset, reg := PinsRegs.reset, cfg := PinsRegs.reset, pre := [], work := PinsWork.reset }

/-- CPFX after hardware reset (R80). -/
def Cpfx.reset : Cpfx :=
  { ctl := Ctl.reset, reg := CpfxRegs.reset, cfg := CpfxRegs.reset, work := CpfxWork.reset }

/-- The machine right after hardware reset (R80, 70_reset_and_hazards.md R390): the block at its reset values, the table
memories unwritten, nothing offered, produced, queued or planned. -/
def State.reset : State :=
  { samp := Samp.reset, fsync := Fsync.reset, pins := Pins.reset, cpfx := Cpfx.reset, irqEnable := 0#4, mem := [],
    sampIn := InPort.empty, sampOut := OutPort.empty, fsyncIn := InPort.empty, pinsIn := InPort.empty,
    pinsOut := OutPort.empty, cpfxIn := InPort.empty, cpfxOut := OutPort.empty, msgq := [], qroom := none,
    agenda := [], rdata := 0#32, draws := 0 }

end Sys2Proof.Machine
end

