-- ==== Sys2Proof/Machine/Operands.lean ====
section
/-! DEFINITION. The number system (00_scope.md R18 to R30), reading operands out of items (20_memory.md R102), and the
bit layouts of items, tags, header and frame (30_encoding.md R141 to R155). -/

namespace Sys2Proof.Machine

open Sys2Proof.Config (anyWord)

/-! ## Real and complex components (R18 to R24) -/

/-- `sat` (R20), on a mathematical integer. -/
def sat (v : Int) : Int :=
  if v < Config.smin then Config.smin else if Config.smax < v then Config.smax else v

/-- A component from a mathematical integer, through `sat` (R20). -/
def satWord (v : Int) : Word := BitVec.ofInt 32 (sat v)

/-- Unity `(ONE, 0)` (R19). -/
def unity : Cplx := { re := Config.one, im := 0#32 }

/-- `conj` (R19). -/
def conj (z : Cplx) : Cplx := { re := z.re, im := satWord (-z.im.toInt) }

/-- `cmul` (R21): exact sums of products, one shift toward minus infinity, saturation. -/
def cmul (a b : Cplx) : Cplx :=
  { re := satWord ((a.re.toInt * b.re.toInt - a.im.toInt * b.im.toInt) >>> Config.fracBits)
    im := satWord ((a.re.toInt * b.im.toInt + a.im.toInt * b.re.toInt) >>> Config.fracBits) }

/-- `norm2` (R23), exact. -/
def norm2 (a : Cplx) : Int := a.re.toInt * a.re.toInt + a.im.toInt * a.im.toInt

/-- `dist2` (R23), exact. -/
def dist2 (a b : Cplx) : Int :=
  (a.re.toInt - b.re.toInt) * (a.re.toInt - b.re.toInt) + (a.im.toInt - b.im.toInt) * (a.im.toInt - b.im.toInt)

/-- `cdiv` (R22); its one caller tests the divisor first (R243). -/
def cdiv (a b : Cplx) : Cplx :=
  let den := norm2 b
  let nre := a.re.toInt * b.re.toInt + a.im.toInt * b.im.toInt
  let nim := a.im.toInt * b.re.toInt - a.re.toInt * b.im.toInt
  { re := satWord (nre * 65536 / den), im := satWord (nim * 65536 / den) }

/-- `smul` (R24): a gain times an integer, shifted toward minus infinity; the caller saturates or wraps. -/
def smul (g : Word) (v : Int) : Int := (g.toInt * v) >>> Config.fracBits

/-! ## Phase and angle (R25 to R28) -/

/-- `wrap_u` and `wrap_s` (R25): the same low `AW` bits, read unsigned for a phase and signed for a frequency. -/
def wrap (v : Int) : Word := BitVec.ofInt 32 v

/-- `ROTOR` (R27): the required exact point, elsewhere the free function of Config (log 7). -/
def rotor (p : Word) : Cplx := if p = 0#32 then unity else Config.rotorAt p

/-- `ARG` (R28): the required exact points, elsewhere the free function of Config (log 7). -/
def arg (re im : Int) : Word := if im = 0 ∧ 0 ≤ re then 0#32 else Config.argAt re im

/-- Optional property `P_ROTOR_QUARTER` (R27). -/
def PRotorQuarter : Prop :=
  rotor 0x40000000#32 = { re := 0#32, im := Config.one } ∧ rotor 0x80000000#32 = { re := -Config.one, im := 0#32 } ∧
  rotor 0xC0000000#32 = { re := 0#32, im := -Config.one }

/-- Optional property `P_ARG_AXES` (R28). -/
def PArgAxes : Prop :=
  (∀ im : Int, 0 < im → arg 0 im = 0x40000000#32) ∧ (∀ im : Int, im < 0 → arg 0 im = 0xC0000000#32) ∧
  (∀ re : Int, re < 0 → arg re 0 = 0x80000000#32)

/-- Optional property `P_ARG_DIAG` (R28). -/
def PArgDiag : Prop :=
  ∀ a : Int, 0 < a → arg a a = 0x20000000#32 ∧ arg a (-a) = 0xE0000000#32 ∧ arg (-a) a = 0x60000000#32 ∧
    arg (-a) (-a) = 0xA0000000#32

/-! ## Time (R30) -/

/-- A time value `(secs, frac)` (R30). -/
structure Time where
  secs : Dword
  frac : Dword
deriving DecidableEq, Repr

/-- `TimeAdd` (R30) for a signed sample count and a rate. -/
def timeAdd (t : Time) (n : Int) (bw : Nat) : Time :=
  let whole := n / (bw : Int)
  let rem := (n % (bw : Int)).toNat
  let dfrac := rem * 2 ^ 64 / bw
  let sum := t.frac.toNat + dfrac
  let carry : Int := if 2 ^ 64 ≤ sum then 1 else 0
  { secs := BitVec.ofInt 64 ((t.secs.toNat : Int) + whole + carry), frac := BitVec.ofNat 64 sum }

/-- The value of an `ABS_TIME` or `SYNC_TIME` tag (30_encoding.md R148). -/
def timeValue (t : Time) : BitVec 128 := t.secs ++ t.frac

/-- The seconds of a time tag's value (R148). -/
def valueSecs (v : BitVec 128) : Dword := v.extractLsb' 64 64

/-- The fraction of a time tag's value, and the number of a `CFO` tag (R148). -/
def valueLow (v : BitVec 128) : Dword := v.extractLsb' 0 64

/-- The value of a `CFO` tag (R148). -/
def cfoValue (c : Dword) : BitVec 128 := 0#64 ++ c

/-! ## Operands out of items -/

/-- A complex free value: two draws of one key. -/
def freeCplx (what : Config.Unspec) (key : List Nat) : Cplx :=
  { re := anyWord what (key ++ [0]), im := anyWord what (key ++ [1]) }

/-- `S[j]` of an item at absolute index `idx` of port number `port` (20_memory.md R105). An item that is too short for the
configuration is outside the spec (M9): the sample it does not hold is a free value (log 8). -/
def itemSample (port : Nat) (idx : Dword) (xs : List Cplx) (j : Nat) : Cplx :=
  xs[j]?.getD (freeCplx .sample [port, idx.toNat, j])

/-- The first `n` samples of an item. -/
def itemSamples (port : Nat) (idx : Dword) (xs : List Cplx) (n : Nat) : List Cplx :=
  (List.range n).map (itemSample port idx xs)

/-- Port numbers of the tag store (20_memory.md R105). -/
def portSampIn : Nat := 0
def portSampOut : Nat := 1
def portFsyncIn : Nat := 2
def portPinsIn : Nat := 3
def portPinsOut : Nat := 4
def portCpfxIn : Nat := 5
def portCpfxOut : Nat := 6

/-- The number of an input port (20_memory.md R105). -/
def InPortId.number : InPortId → Nat
  | .sampIn => portSampIn
  | .fsyncIn => portFsyncIn
  | .pinsIn => portPinsIn
  | .cpfxIn => portCpfxIn

/-- The number of an output port (20_memory.md R105). -/
def OutPortId.number : OutPortId → Nat
  | .sampOut => portSampOut
  | .pinsOut => portPinsOut
  | .cpfxOut => portCpfxOut

/-! ## Tag keys and source ids (30_encoding.md R147, R149) -/

def keyBurstStart : BitVec 3 := 1#3
def keyBurstEnd : BitVec 3 := 2#3
def keyAbsTime : BitVec 3 := 3#3
def keyCfo : BitVec 3 := 4#3
def keySyncTime : BitVec 3 := 5#3
def srcSamp : Byte := 0#8
def srcPins : Byte := 2#8
def srcCpfx : Byte := 3#8

/-! ## The burst header (R150 to R152) -/

/-- `HDR_LEN` (R151). -/
def hdrLen (h : Word) : BitVec 12 := h.extractLsb' 16 12

/-- `HDR_WHIT` (R151). -/
def hdrWhit (h : Word) : BitVec 4 := h.extractLsb' 28 4

/-- `HDR_OK` (R152): the halves agree. -/
def hdrOk (h : Word) : Bool := h.extractLsb' 16 16 == h.extractLsb' 0 16

/-! ## Bit layouts (R141 to R146, R155) -/

/-- A complex sample as 64 bits (R141). -/
def sampleBits (z : Cplx) : BitVec 64 := z.im ++ z.re

/-- A SAMP.IN item as 65 bits (R141). -/
def SampleItem.bits (x : SampleItem) : BitVec 65 := BitVec.ofBool x.trig ++ sampleBits x.s

/-- The samples of a symbol as a number, sample 0 lowest (R142). -/
def symbolNat (xs : List Cplx) : Nat := xs.foldr (fun z acc => (sampleBits z).toNat + 2 ^ 64 * acc) 0

/-- A SAMP.OUT or FSYNC.IN item of `n` samples (R142). -/
def SigSymbol.bits (n : Nat) (x : SigSymbol) : BitVec (64 * n + 1) :=
  BitVec.ofNat _ (symbolNat x.s + x.sig.toNat * 2 ^ (64 * n))

/-- A PINS.IN item of `n` samples (R143). -/
def BurstSymbol.bits (n : Nat) (x : BurstSymbol) : BitVec (64 * n + 2) :=
  BitVec.ofNat _ (symbolNat x.s + x.bs.toNat * 2 ^ (64 * n) + x.aux.toNat * 2 ^ (64 * n + 1))

/-- A PINS.OUT item of `n` samples (R143). -/
def AuxSymbol.bits (n : Nat) (x : AuxSymbol) : BitVec (64 * n + 1) :=
  BitVec.ofNat _ (symbolNat x.s + x.aux.toNat * 2 ^ (64 * n))

/-- A CPFX.IN item of `n` samples (R144). -/
def EobSymbol.bits (n : Nat) (x : EobSymbol) : BitVec (64 * n + 1) :=
  BitVec.ofNat _ (symbolNat x.s + x.eob.toNat * 2 ^ (64 * n))

/-- A tag record as 203 bits (R146). -/
def Tag.bits (t : Tag) : BitVec 203 := t.src ++ t.key ++ t.index ++ t.value

/-- Payload bytes four to a word, byte 0 lowest, the last word filled with 0 (R155). -/
def payloadWords : List Byte → List Word
  | [] => []
  | [a] => [0#24 ++ a]
  | [a, b] => [0#16 ++ b ++ a]
  | [a, b, c] => [0#8 ++ c ++ b ++ a]
  | a :: b :: c :: d :: rest => (d ++ c ++ b ++ a) :: payloadWords rest

/-- The canonical serialisation of a Decoded Frame (R155), each 64-bit field low word first. -/
def Frame.words (f : Frame) : List Word :=
  [ f.type, f.arg1, f.arg2, 0#30 ++ BitVec.ofBool f.cfoValid ++ BitVec.ofBool f.tsValid,
    f.tsSecs.extractLsb' 0 32, f.tsSecs.extractLsb' 32 32, f.tsFrac.extractLsb' 0 32, f.tsFrac.extractLsb' 32 32,
    f.cfo.extractLsb' 0 32, f.cfo.extractLsb' 32 32, f.len ] ++ payloadWords f.payload

end Sys2Proof.Machine
end

