-- ==== Sys2Proof/Machine/Ops.lean ====
section
/-! DEFINITION. The named operations on the state: byte cells, tag lists, streams, the message queue, the common
registers, taking a hardware fault and the exit from it (60_exceptions.md R364, R368), the register map (10_state.md R55 to
R72). -/

namespace Sys2Proof.Machine

open Sys2Proof.Config (anyWord)

/-! ## Byte cells -/

/-- The byte at `x`; `none` where nothing was written. -/
def Memory.read : List Host.Cell → Nat → Option Byte
  | [], _ => none
  | (a, v) :: m, x => if x = a then some v else Memory.read m x

/-- Writes one byte and keeps the canonical form. -/
def Memory.write : List Host.Cell → Nat → Byte → List Host.Cell
  | [], x, v => [(x, v)]
  | (a, u) :: m, x, v =>
    if x < a then (x, v) :: (a, u) :: m
    else if x = a then (x, v) :: m
    else (a, u) :: Memory.write m x v

/-- The canonical form: addresses strictly rising. An unlisted address holds no value, so no entry can equal it. -/
def Memory.wf : List Host.Cell → Bool
  | [] => true
  | [_] => true
  | (a, _) :: (b, v) :: m => decide (a < b) && Memory.wf ((b, v) :: m)

/-- The word at byte address `a`, bits [7:0] at the lowest address (20_memory.md R121); `none` if it was never written. -/
def Memory.readWord (m : List Host.Cell) (a : Nat) : Option Word :=
  match Memory.read m a, Memory.read m (a + 1), Memory.read m (a + 2), Memory.read m (a + 3) with
  | some b0, some b1, some b2, some b3 => some (b3 ++ b2 ++ b1 ++ b0)
  | _, _, _, _ => none

/-- Writes a word at byte address `a` (20_memory.md R121). -/
def Memory.writeWord (m : List Host.Cell) (a : Nat) (d : Word) : List Host.Cell :=
  Memory.write (Memory.write (Memory.write (Memory.write m a (d.extractLsb' 0 8)) (a + 1) (d.extractLsb' 8 8))
    (a + 2) (d.extractLsb' 16 8)) (a + 3) (d.extractLsb' 24 8)

/-- The table word a commit reads at byte address `a`; a word that was never written is a free value of this commit
(70_reset_and_hazards.md R395, M8, log 5). -/
def tableWord (s : State) (a : Nat) : Word :=
  (Memory.readWord s.mem a).getD (anyWord .tableEntry [s.draws, a])

/-! ## Tag lists (44_tag_protocol.md R310 to R313) -/

/-- The half-open index range `[a, b)`, modulo `2^64` (R311, 10_state.md R48, log 11). -/
def inRange (a b i : Dword) : Bool := decide (i - a < b - a)

/-- `TagQueryAll` (R311). -/
def tagQueryAll (tags : List Tag) (a b : Dword) : List Tag := tags.filter fun t => inRange a b t.index

/-- `TagQuery` (R311): production order is kept, so `getLast?` is "the most recently produced" (R312). The reserved key 0 is
never matched (30_encoding.md R147). -/
def tagQuery (tags : List Tag) (a b : Dword) (key : BitVec 3) : List Tag :=
  tags.filter fun t => t.key == key && !(key == 0#3) && inRange a b t.index

/-! ## Ports (20_memory.md R101 to R104) -/

/-- `avail(port)`, counted from `rd`. -/
def InPort.avail {α : Type} (p : InPort α) : Nat := p.items.length

/-- Consumes `n` items (R102). -/
def InPort.consume {α : Type} (p : InPort α) (n : Nat) : InPort α := { p with items := p.items.drop n }

/-- Offers one more item: to the current run of an enabled engine, else to its next run (log 9). -/
def InPort.offer {α : Type} (p : InPort α) (en : Bool) (x : α) : InPort α :=
  if en then { p with items := p.items ++ [x] } else { p with staged := p.staged ++ [x] }

/-- Appends a tag to the port's list (R106, R310), of the current run or of the next. -/
def InPort.addTags {α : Type} (p : InPort α) (en : Bool) (ts : List Tag) : InPort α :=
  if en then { p with tags := p.tags ++ ts } else { p with stagedTags := p.stagedTags ++ ts }

/-- A commit starts a new run: what waited for it is offered, the earlier run's items and tags are gone (45_system_ops.md R331). -/
def InPort.restart {α : Type} (p : InPort α) : InPort α :=
  { items := p.staged, tags := p.stagedTags, staged := [], stagedTags := [] }

/-- `space(port) >= n`. -/
def OutPort.hasSpace {α : Type} (p : OutPort α) (n : Nat) : Bool :=
  match p.space with
  | none => true
  | some k => decide (n ≤ k)

/-- Produces items in order, after the tags of the step (R102, R131). -/
def OutPort.produce {α : Type} (p : OutPort α) (xs : List α) : OutPort α :=
  { p with items := p.items ++ xs, space := p.space.map (· - xs.length) }

/-- `TagEmit` (44_tag_protocol.md R313), of several tags in order. -/
def OutPort.emit {α : Type} (p : OutPort α) (ts : List Tag) : OutPort α := { p with tags := p.tags ++ ts }

/-- SCHED accepts `n` more items (30_encoding.md R170). -/
def OutPort.grant {α : Type} (p : OutPort α) (n : Nat) : OutPort α := { p with space := some (p.space.getD 0 + n) }

/-- A commit starts a new run at index 0 (45_system_ops.md R331); the room stays. -/
def OutPort.restart {α : Type} (p : OutPort α) : OutPort α := { p with items := [], tags := [], relayed := 0 }

/-! ## Message queue (20_memory.md R110, 41_frame_sync.md R264) -/

/-- MSGQ can accept one frame. -/
def queueHasRoom (s : State) : Bool := !(s.qroom == some 0)

/-- `MsgEnqueue` (R110). -/
def enqueue (s : State) (f : Frame) : State :=
  { s with msgq := s.msgq ++ [f], qroom := s.qroom.map (· - 1) }

/-! ## Common registers, faults, soft reset -/

/-- The common registers of engine `e`. -/
def State.ctlOf (s : State) : Engine → Ctl
  | .samp => s.samp.ctl
  | .fsync => s.fsync.ctl
  | .pins => s.pins.ctl
  | .cpfx => s.cpfx.ctl

/-- Replaces the common registers of engine `e`. -/
def State.setCtl (s : State) (e : Engine) (c : Ctl) : State :=
  match e with
  | .samp => { s with samp := { s.samp with ctl := c } }
  | .fsync => { s with fsync := { s.fsync with ctl := c } }
  | .pins => { s with pins := { s.pins with ctl := c } }
  | .cpfx => { s with cpfx := { s.cpfx with ctl := c } }

/-- A hardware fault as a step raises it: code and detail (60_exceptions.md R361). -/
structure HwFault where
  code : Byte
  info : Word
deriving DecidableEq, Repr

/-- `F_ATIME_OFFSET` (R361). -/
def faultAtimeOffset (idx : Dword) : HwFault := { code := 0x01#8, info := idx.extractLsb' 0 32 }
/-- `F_HDR_OVERRUN` (R361). -/
def faultHdrOverrun (n : BitVec 3) : HwFault := { code := 0x02#8, info := n.setWidth 32 }
/-- `F_PKT_OVERRUN` (R361). -/
def faultPktOverrun (n : BitVec 12) : HwFault := { code := 0x03#8, info := n.setWidth 32 }
/-- `F_ILLEGAL_STATE` (R361). -/
def faultIllegalState (st : BitVec 2) : HwFault := { code := 0x04#8, info := st.setWidth 32 }
/-- `F_STALE_TAG` (R361): bit 0 SYNC_TIME missing, bit 1 CFO missing. -/
def faultStaleTag (missSync missCfo : Bool) : HwFault :=
  { code := 0x05#8, info := (BitVec.ofBool missCfo ++ BitVec.ofBool missSync).setWidth 32 }

/-- Fault entry (60_exceptions.md R364): from the state BEFORE the step, the record is written and nothing else changes. -/
def faultEntry (s : State) (e : Engine) (sel : Byte) (f : HwFault) : State :=
  s.setCtl e { s.ctlOf e with
    fault := true, faultCode := f.code, faultInfo := f.info, lastSel := sel, lastValid := true }

/-- A completed step latches its selector (30_encoding.md R160). -/
def latchSel (s : State) (e : Engine) (sel : Byte) : State :=
  s.setCtl e { s.ctlOf e with lastSel := sel, lastValid := true }

/-- The end of an engine step (60_exceptions.md R367): all its effects with the selector latched, or a fault entry from the state
before the step. -/
def endStep (s : State) (e : Engine) (sel : Byte) (r : Except HwFault State) : Host.Outcome State Fault Refusal :=
  match r with
  | .ok t => .next (latchSel t e sel)
  | .error f => .next (faultEntry s e sel f)

/-- The working state of engine `e` takes its reset values (10_state.md R42 to R45). -/
def resetWork (s : State) (e : Engine) : State :=
  match e with
  | .samp => { s with samp := { s.samp with work := SampWork.reset } }
  | .fsync => { s with fsync := { s.fsync with work := FsyncWork.reset } }
  | .pins => { s with pins := { s.pins with work := PinsWork.reset } }
  | .cpfx => { s with cpfx := { s.cpfx with work := CpfxWork.reset } }

/-- The one exit from a fault (60_exceptions.md R368, 45_system_ops.md R336): every common register at its reset value, the working
state at its reset values, the configuration kept. -/
def softReset (s : State) (e : Engine) : State := (resetWork s e).setCtl e Ctl.reset

/-! ## Configuration registers (10_state.md R60 to R66) -/

/-- A one-bit register as a bus word. -/
def boolWord (b : Bool) : Word := (BitVec.ofBool b).setWidth 32

/-- The value a read of a configuration register returns. -/
def getCfgReg (s : State) : CfgReg → Word
  | .sampPolicy => boolWord s.samp.reg.policy
  | .sampFftLen => s.samp.reg.fftLen
  | .sampSymLen => s.samp.reg.symLen
  | .sampBandwidth => s.samp.reg.bandwidth
  | .sampTimeout => s.samp.reg.timeout
  | .fsyncPolicy => boolWord s.fsync.reg.policy
  | .fsyncFftLen => s.fsync.reg.fftLen
  | .fsyncOccCarriers => s.fsync.reg.occCarriers
  | .fsyncConstNpoints => s.fsync.reg.constNpoints
  | .fsyncConstNvalues => s.fsync.reg.constNvalues
  | .fsyncPhaseGain => s.fsync.reg.phaseGain
  | .fsyncFreqGain => s.fsync.reg.freqGain
  | .fsyncEqGain => s.fsync.reg.eqGain
  | .pinsFftLen => s.pins.reg.fftLen
  | .pinsNPre => s.pins.reg.nPre
  | .pinsPreSymLen => s.pins.reg.preSymLen
  | .cpfxInSize => s.cpfx.reg.inSize
  | .cpfxOutSize => s.cpfx.reg.outSize

/-- Stores a written word in a SAMP register; `POLICY` keeps bit 0 only (R60, 45_system_ops.md R340). -/
def SampRegs.set (r : SampRegs) (c : CfgReg) (d : Word) : SampRegs :=
  match c with
  | .sampPolicy => { r with policy := d.getLsbD 0 }
  | .sampFftLen => { r with fftLen := d }
  | .sampSymLen => { r with symLen := d }
  | .sampBandwidth => { r with bandwidth := d }
  | .sampTimeout => { r with timeout := d }
  | _ => r

/-- Stores a written word in an FSYNC register (R62). -/
def FsyncRegs.set (r : FsyncRegs) (c : CfgReg) (d : Word) : FsyncRegs :=
  match c with
  | .fsyncPolicy => { r with policy := d.getLsbD 0 }
  | .fsyncFftLen => { r with fftLen := d }
  | .fsyncOccCarriers => { r with occCarriers := d }
  | .fsyncConstNpoints => { r with constNpoints := d }
  | .fsyncConstNvalues => { r with constNvalues := d }
  | .fsyncPhaseGain => { r with phaseGain := d }
  | .fsyncFreqGain => { r with freqGain := d }
  | .fsyncEqGain => { r with eqGain := d }
  | _ => r

/-- Stores a written word in a PINS register (R64). -/
def PinsRegs.set (r : PinsRegs) (c : CfgReg) (d : Word) : PinsRegs :=
  match c with
  | .pinsFftLen => { r with fftLen := d }
  | .pinsNPre => { r with nPre := d }
  | .pinsPreSymLen => { r with preSymLen := d }
  | _ => r

/-- Stores a written word in a CPFX register (R66). -/
def CpfxRegs.set (r : CpfxRegs) (c : CfgReg) (d : Word) : CpfxRegs :=
  match c with
  | .cpfxInSize => { r with inSize := d }
  | .cpfxOutSize => { r with outSize := d }
  | _ => r

/-- Stores a written word in a configuration register of any engine. -/
def setCfgReg (s : State) (c : CfgReg) (d : Word) : State :=
  match c.owner with
  | .samp => { s with samp := { s.samp with reg := s.samp.reg.set c d } }
  | .fsync => { s with fsync := { s.fsync with reg := s.fsync.reg.set c d } }
  | .pins => { s with pins := { s.pins with reg := s.pins.reg.set c d } }
  | .cpfx => { s with cpfx := { s.cpfx with reg := s.cpfx.reg.set c d } }

/-! ## Views of state (10_state.md R51, R55 to R70) -/

/-- `RUNNING = EN and not FAULT` (R56). -/
def Ctl.running (c : Ctl) : Bool := c.en && !c.fault

/-- `STATUS.STATE` of engine `e`: its `state`, 0 for CPFX (R45, R56). -/
def engineState (s : State) : Engine → BitVec 2
  | .samp => s.samp.work.state
  | .fsync => s.fsync.work.state
  | .pins => s.pins.work.state
  | .cpfx => 0#2

/-- The STATUS word (R56). -/
def statusWord (c : Ctl) (st : BitVec 2) : Word :=
  (BitVec.ofBool c.cfgWrIgn ++ BitVec.ofBool c.fault ++ BitVec.ofBool c.cfgErr ++ BitVec.ofBool c.running ++ 0#2 ++ st).setWidth 32

/-- The LAST_SEL word (R56). -/
def lastSelWord (c : Ctl) : Word := BitVec.ofBool c.lastValid ++ 0#23 ++ c.lastSel

/-- `rd` of engine `e`. -/
def rdOf (s : State) : Engine → Dword
  | .samp => s.samp.work.rd
  | .fsync => s.fsync.work.rd
  | .pins => s.pins.work.rd
  | .cpfx => s.cpfx.work.rd

/-- `wr` of engine `e`; FSYNC has no output port and no `wr` (R43), so it reads 0 (log 10). -/
def wrOf (s : State) : Engine → Dword
  | .samp => s.samp.work.wr
  | .fsync => 0#64
  | .pins => s.pins.work.wr
  | .cpfx => s.cpfx.work.wr

/-- `CP_LEN = SYM_LEN - FFT_LEN` of the committed SAMP configuration (10_state.md R60, 45_system_ops.md R331). -/
def sampCpLen (p : Samp) : Word := p.cfg.symLen - p.cfg.fftLen

/-- `N_ACT`, the size of the map (45_system_ops.md R342). -/
def nAct (f : Fsync) : Nat := f.map.length

/-- `NBITS = log2(CONST_NPOINTS)` of the committed configuration (45_system_ops.md R343). -/
def nBits (f : Fsync) : Nat := Nat.log2 f.cfg.constNpoints.toNat

/-- `IRQ_STATUS` (R55): bit `e` is `FAULT or CFG_ERR` of engine `e`. -/
def irqStatus (s : State) : BitVec 4 :=
  BitVec.ofBool (s.cpfx.ctl.fault || s.cpfx.ctl.cfgErr) ++ BitVec.ofBool (s.pins.ctl.fault || s.pins.ctl.cfgErr) ++
  BitVec.ofBool (s.fsync.ctl.fault || s.fsync.ctl.cfgErr) ++ BitVec.ofBool (s.samp.ctl.fault || s.samp.ctl.cfgErr)

/-- The `PKTSTAT` word (R62). -/
def pktStatWord (w : FsyncWork) : Word := 0#1 ++ w.hdrCnt ++ w.pktCnt ++ w.whit ++ w.pktLen

/-- The read-only registers at offset `off` of the bank of engine `e` (R56, R60, R62, R64); unlisted offsets read 0. -/
def bankWord (s : State) (e : Engine) (off : Nat) : Word :=
  if off = 0x00 then boolWord (s.ctlOf e).en
  else if off = 0x04 then statusWord (s.ctlOf e) (engineState s e)
  else if off = 0x08 then (s.ctlOf e).faultCode.setWidth 32
  else if off = 0x0C then (s.ctlOf e).faultInfo
  else if off = 0x10 then (s.ctlOf e).cfgErrCode.setWidth 32
  else if off = 0x14 then lastSelWord (s.ctlOf e)
  else if off = 0x18 then (rdOf s e).extractLsb' 0 32
  else if off = 0x1C then (rdOf s e).extractLsb' 32 32
  else if off = 0x20 then (wrOf s e).extractLsb' 0 32
  else if off = 0x24 then (wrOf s e).extractLsb' 32 32
  else match e with
    | .samp =>
      if off = 0x60 then s.samp.work.countdown
      else if off = 0x64 then (BitVec.ofBool s.samp.work.cfoValid ++ BitVec.ofBool s.samp.work.atValid).setWidth 32
      else if off = 0x68 then s.samp.work.dropCnt
      else if off = 0x6C then s.samp.work.burstCnt
      else if off = 0x70 then s.samp.work.timeoutCnt
      else 0#32
    | .fsync =>
      if off = 0x60 then BitVec.ofNat 32 (nAct s.fsync)
      else if off = 0x64 then BitVec.ofNat 32 (nBits s.fsync)
      else if off = 0x68 then s.fsync.work.phase
      else if off = 0x6C then s.fsync.work.freq
      else if off = 0x70 then s.fsync.work.hdr
      else if off = 0x74 then pktStatWord s.fsync.work
      else if off = 0x78 then s.fsync.work.missingCnt
      else if off = 0x7C then s.fsync.work.badhdrCnt
      else if off = 0x80 then s.fsync.work.frameCnt
      else if off = 0x84 then (BitVec.ofBool s.fsync.work.cfoValid ++ BitVec.ofBool s.fsync.work.tsValid).setWidth 32
      else 0#32
    | .pins => if off = 0x60 then s.pins.work.preIdx.setWidth 32 else 0#32
    | .cpfx => 0#32

/-- The tap window (R70) at byte offset `off` from 0x08000: entries `i >= N_ACT` read 0; `none` is an unspecified tap. -/
def tapWindow (f : Fsync) (off : Nat) : Option Word :=
  if nAct f ≤ off / 8 then some 0#32
  else match f.work.taps[off / 8]? with
    | none => none
    | some t => some (if off % 8 = 0 then t.re else t.im)

/-- The word a HOST read of address `a` finds (R55 to R72, 20_memory.md R122, R123); `none` is an unspecified element (R54). -/
def regRead (s : State) (a : BusAddr) : Option Word :=
  if aligned a = false then some 0#32
  else if a = 0x00000#20 then some Config.idWord
  else if a = 0x00004#20 then some Config.params0
  else if a = 0x00008#20 then some Config.params1
  else if a = 0x0000C#20 then some ((irqStatus s).setWidth 32)
  else if a = irqEnableAddr then some (s.irqEnable.setWidth 32)
  else match cfgRegAt a with
    | some c => some (getCfgReg s c)
    | none =>
      match bankAt a with
      | some e => some (bankWord s e (a.toNat - (baseOf e).toNat))
      | none =>
        match tableAt a with
        | some _ => Memory.readWord s.mem a.toNat
        | none =>
          if 0x8000 ≤ a.toNat ∧ a.toNat < 0x10000 then tapWindow s.fsync (a.toNat - 0x8000) else some 0#32

end Sys2Proof.Machine
end

