-- ==== Sys2Proof/Machine/Flags.lean ====
section
/-! DEFINITION. The condition bits of the selector (30_encoding.md R160, R161), step enabling (20_memory.md R103) and the
interrupt line (60_exceptions.md R370). -/

namespace Sys2Proof.Machine

/-! ## The sampler's scan (40_sampler.md R201 to R203) -/

/-- `CFG.FFT_LEN` of SAMP. -/
def sampFft (s : State) : Nat := s.samp.cfg.fftLen.toNat

/-- `CFG.SYM_LEN` of SAMP. -/
def sampSym (s : State) : Nat := s.samp.cfg.symLen.toNat

/-- How far into the scan region the first trigger stands (R202); the trigger is at `p = rd + FFT_LEN + k`. -/
def scanOffset (s : State) : Option Nat :=
  ((s.sampIn.items.drop (sampFft s)).take (sampSym s)).findIdx? fun x => x.trig

/-- The consumed count `c` (R203): `p - FFT_LEN + 1 - rd` with a trigger, `SYM_LEN` without. -/
def scanConsumed (s : State) : Nat :=
  match scanOffset s with
  | some k => k + 1
  | none => sampSym s

/-! ## Condition bits (R161) -/

/-- `T` of SAMP: a trigger stands in the scan region. -/
def condT (s : State) : Bool := (scanOffset s).isSome

/-- `L` of SAMP: `countdown == 1`. -/
def condL (s : State) : Bool := s.samp.work.countdown == 1#32

/-- `SIG` of the symbol at `rd` of FSYNC.IN. -/
def condSig (s : State) : Bool := (s.fsyncIn.items.head?.map fun x => x.sig).getD false

/-- `BS` of the symbol at `rd` of PINS.IN. -/
def condBs (s : State) : Bool := (s.pinsIn.items.head?.map fun x => x.bs).getD false

/-- `PL` of PINS: `pre_idx == CFG.N_PRE - 1`. -/
def condPl (s : State) : Bool := decide (s.pins.work.preIdx.toNat + 1 = s.pins.cfg.nPre.toNat)

/-- `EOB` of the symbol at `rd` of CPFX.IN. -/
def condEob (s : State) : Bool := (s.cpfxIn.items.head?.map fun x => x.eob).getD false

/-- SEL of the engine's next step (R160, R161). -/
def selector (s : State) (e : Engine) : Byte :=
  match e with
  | .samp => selByte 0#2 s.samp.work.state (condL s) (condT s)
  | .fsync => selByte 1#2 s.fsync.work.state false (condSig s)
  | .pins => selByte 2#2 s.pins.work.state (condPl s) (condBs s)
  | .cpfx => selByte 3#2 0#2 false (condEob s)

/-! ## Step enabling (20_memory.md R103) -/

/-- The engine has an enabled step. FSYNC in HAVE_SYNC and HAVE_HEADER also needs room for a frame (41_frame_sync.md R264). -/
def enabled (s : State) (e : Engine) : Bool :=
  (s.ctlOf e).running &&
  match e with
  | .samp => decide (sampFft s + sampSym s ≤ s.sampIn.avail) && s.sampOut.hasSpace 1
  | .fsync =>
    decide (1 ≤ s.fsyncIn.avail) &&
      (!(s.fsync.work.state == 1#2 || s.fsync.work.state == 2#2) || queueHasRoom s)
  | .pins => decide (1 ≤ s.pinsIn.avail) && s.pinsOut.hasSpace 1
  | .cpfx => decide (1 ≤ s.cpfxIn.avail) && s.cpfxOut.hasSpace s.cpfx.cfg.outSize.toNat

/-! ## The interrupt line (60_exceptions.md R370) -/

/-- `irq`: some enabled engine has a fault or a configuration error. -/
def irqLine (s : State) : Bool := (s.irqEnable &&& irqStatus s) != 0#4

end Sys2Proof.Machine
end

