-- ==== Sys2Proof/Machine/Cpfx.lean ====
section
/-! DEFINITION. The cyclic prefixer: CP.SYM, CP.EOB (43_cyclic_prefixer.md R300 to R304). -/

namespace Sys2Proof.Machine

/-- The symbol at `rd`; a step is enabled only when there is one (R300). -/
def cpfxItem (s : State) : EobSymbol := s.cpfxIn.items.head?.getD { s := [], eob := false }

/-- `CFG.IN_SIZE`. -/
def cpfxSymLen (s : State) : Nat := s.cpfx.cfg.inSize.toNat

/-- `CP = CFG.OUT_SIZE - CFG.IN_SIZE` (10_state.md R66). -/
def cpfxCp (s : State) : Nat := s.cpfx.cfg.outSize.toNat - s.cpfx.cfg.inSize.toNat

/-- The output samples of one step (R301): the last `CP` samples of the symbol, then the whole symbol. -/
def prefixed (s : State) : List Cplx :=
  let x := itemSample portCpfxIn s.cpfx.work.rd (cpfxItem s).s
  ((List.range (cpfxCp s)).map fun n => x (cpfxSymLen s - cpfxCp s + n)) ++ (List.range (cpfxSymLen s)).map x

/-- The relayed tags (R303): every tag of the input symbol, any key, at the index of the first output sample. -/
def relayedTags (s : State) : List Tag :=
  (tagQueryAll s.cpfxIn.tags s.cpfx.work.rd (s.cpfx.work.rd + 1#64)).map fun t =>
    { t with index := s.cpfx.work.wr }

/-- The end-of-burst marker (R302), on the last sample this step produces. -/
def burstEndTag (s : State) : Tag :=
  { src := srcCpfx, key := keyBurstEnd, index := s.cpfx.work.wr + s.cpfx.cfg.outSize.setWidth 64 - 1#64, value := 0#128 }

/-- The common part of CP.SYM and CP.EOB; `extra` are the tags emitted after the relayed ones. -/
def cpfxStep (s : State) (extra : List Tag) : State :=
  { s with
    cpfx := { s.cpfx with work :=
      { rd := s.cpfx.work.rd + 1#64, wr := s.cpfx.work.wr + s.cpfx.cfg.outSize.setWidth 64 } }
    cpfxIn := s.cpfxIn.consume 1
    cpfxOut := (s.cpfxOut.emit (relayedTags s ++ extra)).produce (prefixed s) }

/-- CP.SYM (R301). -/
def execCpSym (s : State) : Host.Outcome State Fault Refusal :=
  endStep s .cpfx Instr.cpSym.sel (.ok (cpfxStep s []))

/-- CP.EOB (R302). -/
def execCpEob (s : State) : Host.Outcome State Fault Refusal :=
  endStep s .cpfx Instr.cpEob.sel (.ok (cpfxStep s [burstEndTag s]))

end Sys2Proof.Machine
end

