-- ==== Sys2Proof/Machine/Fsync.lean ====
section
/-! DEFINITION. The frame synchronizer: FS.IDLE, FS.ACQ, FS.HDR, FS.PAY with the demapper (41_frame_sync.md R230 to R266). -/

namespace Sys2Proof.Machine

open Sys2Proof.Config (anyWord)

/-- State codes of FSYNC (10_state.md R47). -/
def fsyncSearch : BitVec 2 := 0#2
def fsyncHaveSync : BitVec 2 := 1#2
def fsyncHaveHeader : BitVec 2 := 2#2

/-! ## Search-state operations -/

/-- The symbol at `rd`; a step is enabled only when there is one (R230). -/
def fsyncItem (s : State) : SigSymbol := s.fsyncIn.items.head?.getD { s := [], sig := false }

/-- The SYNC_TIME tags of the read window (R233). -/
def fsyncSyncTags (s : State) : List Tag :=
  tagQuery s.fsyncIn.tags s.fsync.work.rd (s.fsync.work.rd + 1#64) keySyncTime

/-- The CFO tags of the read window (R233). -/
def fsyncCfoTags (s : State) : List Tag :=
  tagQuery s.fsyncIn.tags s.fsync.work.rd (s.fsync.work.rd + 1#64) keyCfo

/-- The SYNC_TIME half of tag capture (R233): the most recent tag, or a counted miss that keeps the old value. -/
def captureSync (ts : List Tag) (w : FsyncWork) : FsyncWork :=
  match ts.getLast? with
  | some t => { w with tsValid := true, tsSecs := valueSecs t.value, tsFrac := valueLow t.value }
  | none => { w with missingCnt := w.missingCnt + 1#32 }

/-- The CFO half of tag capture (R233). -/
def captureCfo (ts : List Tag) (w : FsyncWork) : FsyncWork :=
  match ts.getLast? with
  | some t => { w with cfoValid := true, cfoVal := valueLow t.value }
  | none => { w with missingCnt := w.missingCnt + 1#32 }

/-- Tag capture (R233); fatal under `STALE_POLICY = 1` when a tag is missing. -/
def fsyncCapture (s : State) : Except HwFault FsyncWork :=
  let sync := fsyncSyncTags s
  let cfo := fsyncCfoTags s
  if (sync.isEmpty || cfo.isEmpty) && s.fsync.cfg.policy then .error (faultStaleTag sync.isEmpty cfo.isEmpty)
  else .ok (captureCfo cfo (captureSync sync s.fsync.work))

/-- What FS.ACQ resets (R232): taps to unity, tracking state to zero, header, packet and residue registers cleared. -/
def acquireReset (n : Nat) (w : FsyncWork) : FsyncWork :=
  { w with
    taps := List.replicate n unity, phase := 0#32, freq := 0#32, hdr := 0#32, hdrCnt := 0#3, pktLen := 0#12,
    whit := 0#4, pktCnt := 0#12, pkBits := 0#15, pkN := 0#4 }

/-! ## The demapper (R240 to R247) -/

/-- The loop of `SLICE` (R242) over the remaining points: `i` is the index of the next one, `k` the best so far at distance `d`. -/
def sliceFrom (z : Cplx) : List Cplx → Nat → Nat → Int → Nat
  | [], _, k, _ => k
  | r :: rs, i, k, d =>
    if dist2 z r < d then sliceFrom z rs (i + 1) i (dist2 z r) else sliceFrom z rs (i + 1) k d

/-- `SLICE(z)` (R242): the smallest index of a nearest point. -/
def slice (refs : List Cplx) (z : Cplx) : Nat :=
  match refs with
  | [] => 0
  | r :: rs => sliceFrom z rs 1 0 (dist2 z r)

/-- `REF[k]` as committed. A point outside the table is a free value; no legal configuration reads one (log 19). -/
def refPoint (refs : List Cplx) (k : Nat) : Cplx := refs[k]?.getD (freeCplx .point [0, k])

/-- `VAL[k]` as committed. -/
def valBits (vals : List Byte) (k : Nat) : Byte := vals[k]?.getD ((anyWord .pattern [k]).setWidth 8)

/-- `EQ_UPDATE` (R243). -/
def eqUpdate (gain : Word) (t z ref : Cplx) : Cplx :=
  if Config.eqNormMin < norm2 z then
    let q := cdiv ref z
    { re := satWord (t.re.toInt + sat (smul gain (sat (q.re.toInt - t.re.toInt))))
      im := satWord (t.im.toInt + sat (smul gain (sat (q.im.toInt - t.im.toInt)))) }
  else t

/-- The bit packer (R247): the residue and its length. -/
structure Packer where
  bits : BitVec 15
  n : BitVec 4
deriving DecidableEq, Repr

/-- `PACK(v)` (R247): the new residue, and the byte completed if there is one. -/
def pack (nbits : Nat) (v : Byte) (p : Packer) : Packer × List Byte :=
  let bits := p.bits ||| (v.setWidth 15 <<< p.n.toNat)
  let n := p.n.toNat + nbits
  if 8 ≤ n then ({ bits := bits >>> 8, n := BitVec.ofNat 4 (n - 8) }, [bits.setWidth 8])
  else ({ bits := bits, n := BitVec.ofNat 4 n }, [])

/-- What the demapper has accumulated over the subcarriers walked so far. -/
structure Demap where
  accRe : Int
  accIm : Int
  taps : List Cplx
  packer : Packer
  bytes : List Byte
deriving DecidableEq, Repr

/-- What one subcarrier needs: the committed tables and gain, the rotor, the symbol's samples, the taps before the step. -/
structure DemapCtx where
  refs : List Cplx
  vals : List Byte
  nbits : Nat
  gain : Word
  rot : Cplx
  sample : Nat → Cplx
  tap : Nat → Cplx

/-- One subcarrier of `DEMAP` (R240 to R247): map index `i`, subcarrier `m`. -/
def demapOne (x : DemapCtx) (i m : Nat) (d : Demap) : Demap :=
  let z := cmul (cmul (x.sample m) x.rot) (x.tap i)
  let k := slice x.refs z
  let ref := refPoint x.refs k
  let pk := pack x.nbits (valBits x.vals k) d.packer
  { accRe := d.accRe + (z.re.toInt * ref.re.toInt + z.im.toInt * ref.im.toInt)
    accIm := d.accIm + (z.im.toInt * ref.re.toInt - z.re.toInt * ref.im.toInt)
    taps := d.taps ++ [eqUpdate x.gain (x.tap i) z ref]
    packer := pk.1
    bytes := d.bytes ++ pk.2 }

/-- The loop of `DEMAP` over the active subcarriers in map order (R240). -/
def demapLoop (x : DemapCtx) : List (BitVec 12) → Nat → Demap → Demap
  | [], _, d => d
  | m :: ms, i, d => demapLoop x ms (i + 1) (demapOne x i m.toNat d)

/-- The context of this step: `phase` and `TAP` as they were before it (R240). A tap that was never written is a free value; none is
read on a run from reset (10_state.md R54, log 6). -/
def demapCtx (s : State) : DemapCtx :=
  { refs := s.fsync.refs, vals := s.fsync.vals, nbits := nBits s.fsync, gain := s.fsync.cfg.eqGain,
    rot := rotor s.fsync.work.phase
    sample := itemSample portFsyncIn s.fsync.work.rd (fsyncItem s).s
    tap := fun i => s.fsync.work.taps[i]?.getD (freeCplx .tap [s.draws, i]) }

/-- The walk over the symbol at `rd`. -/
def demapWalk (s : State) : Demap :=
  demapLoop (demapCtx s) s.fsync.map 0
    { accRe := 0, accIm := 0, taps := [], packer := { bits := s.fsync.work.pkBits, n := s.fsync.work.pkN }, bytes := [] }

/-- `TRACK_UPDATE` (R246): frequency first, the phase uses the new frequency. -/
def trackUpdate (cfg : FsyncRegs) (err : Word) (w : FsyncWork) : FsyncWork :=
  let freq := wrap (w.freq.toInt - smul cfg.freqGain err.toInt)
  { w with freq := freq, phase := wrap ((w.phase.toNat : Int) + freq.toInt - smul cfg.phaseGain err.toInt) }

/-- `DEMAP` (R240): the working state after the symbol, and the bytes it completed. -/
def demap (s : State) : FsyncWork × List Byte :=
  let d := demapWalk s
  (trackUpdate s.fsync.cfg (arg d.accRe d.accIm)
    { s.fsync.work with taps := d.taps, pkBits := d.packer.bits, pkN := d.packer.n }, d.bytes)

/-! ## Header and payload (R250 to R263) -/

/-- The working registers of a demodulating step, and the frame it emitted if it emitted one. -/
structure Collect where
  work : FsyncWork
  frame : Option Frame
deriving DecidableEq, Repr

/-- `PKT[n]`; a byte that was never stored is a free value, and none is read on a run from reset (10_state.md R54, log 6). -/
def payloadByte (draws : Nat) (w : FsyncWork) (n : Nat) : Byte :=
  (Memory.read w.pkt n).getD ((anyWord .payload [draws, n]).setWidth 8)

/-- The Decoded Frame of `EMIT_FRAME` (R262, 30_encoding.md R155). -/
def decodedFrame (draws : Nat) (w : FsyncWork) : Frame :=
  { type := 0#32, arg1 := w.whit.setWidth 32, arg2 := 0#32, tsValid := w.tsValid, cfoValid := w.cfoValid,
    tsSecs := if w.tsValid then w.tsSecs else 0#64, tsFrac := if w.tsValid then w.tsFrac else 0#64,
    cfo := if w.cfoValid then w.cfoVal else 0#64, len := w.pktLen.setWidth 32,
    payload := (List.range w.pktLen.toNat).map (payloadByte draws w) }

/-- The loop of the payload store (R256): while bytes remain and the declared length is not reached. -/
def storeBytes : List Byte → FsyncWork → Except HwFault FsyncWork
  | [], w => .ok w
  | b :: bs, w =>
    if w.pktCnt < w.pktLen then
      if Config.maxPkt ≤ w.pktCnt.toNat then .error (faultPktOverrun w.pktCnt)
      else storeBytes bs { w with pkt := Memory.write w.pkt w.pktCnt.toNat b, pktCnt := w.pktCnt + 1#12 }
    else .ok w

/-- The payload store (R256): at the declared length the frame is emitted (R262) and the remaining bytes are discarded (R263). -/
def storePayload (draws : Nat) (bs : List Byte) (w : FsyncWork) : Except HwFault Collect :=
  match storeBytes bs w with
  | .error f => .error f
  | .ok w' =>
    if w'.pktCnt = w'.pktLen then
      .ok { work := { w' with frameCnt := w'.frameCnt + 1#32, state := fsyncSearch },
            frame := some (decodedFrame draws w') }
    else .ok { work := w', frame := none }

/-- The end of the header (R252, R255): a good one starts the payload, a bad one returns to search. -/
def checkHeader (draws : Nat) (rest : List Byte) (w : FsyncWork) : Except HwFault Collect :=
  if hdrOk w.hdr then
    storePayload draws rest
      { w with pktLen := hdrLen w.hdr, whit := hdrWhit w.hdr, pktCnt := 0#12, state := fsyncHaveHeader }
  else .ok { work := { w with badhdrCnt := w.badhdrCnt + 1#32, state := fsyncSearch }, frame := none }

/-- The loop of FS.HDR (R250, R251): bytes are shifted into the header, the first one most significant, until it is complete. -/
def collectHeader (draws : Nat) : List Byte → FsyncWork → Except HwFault Collect
  | [], w => .ok { work := w, frame := none }
  | b :: bs, w =>
    if Config.hdrBytes ≤ w.hdrCnt.toNat then .error (faultHdrOverrun w.hdrCnt)
    else
      let w' := { w with hdr := (w.hdr <<< 8) ||| b.setWidth 32, hdrCnt := w.hdrCnt + 1#3 }
      if w'.hdrCnt.toNat = Config.hdrBytes then checkHeader draws bs w' else collectHeader draws bs w'

/-- Hands the frame, if there is one, to MSGQ (R262, 20_memory.md R110). -/
def emitFrame (s : State) (f : Option Frame) : State :=
  match f with
  | none => s
  | some fr => enqueue s fr

/-- The end of a demodulating step: one symbol consumed, the working registers written, the frame enqueued. -/
def finishDemod (s : State) (r : Except HwFault Collect) : Except HwFault State :=
  match r with
  | .error f => .error f
  | .ok c =>
    .ok (emitFrame { s with
      fsync := { s.fsync with work := { c.work with rd := c.work.rd + 1#64 } }
      fsyncIn := s.fsyncIn.consume 1 } c.frame)

/-- FS.IDLE (R231). -/
def execFsIdle (s : State) : Host.Outcome State Fault Refusal :=
  endStep s .fsync Instr.fsIdle.sel <| .ok
    { s with
      fsync := { s.fsync with work := { s.fsync.work with rd := s.fsync.work.rd + 1#64, state := fsyncSearch } }
      fsyncIn := s.fsyncIn.consume 1 }

/-- FS.ACQ (R232). -/
def execFsAcq (s : State) : Host.Outcome State Fault Refusal :=
  endStep s .fsync Instr.fsAcq.sel <|
    match fsyncCapture s with
    | .error f => .error f
    | .ok w =>
      .ok { s with
        fsync := { s.fsync with work :=
          { acquireReset (nAct s.fsync) w with rd := w.rd + 1#64, state := fsyncHaveSync } }
        fsyncIn := s.fsyncIn.consume 1 }

/-- FS.HDR (R250). -/
def execFsHdr (sig : Bool) (s : State) : Host.Outcome State Fault Refusal :=
  endStep s .fsync (Instr.fsHdr sig).sel <|
    finishDemod s (collectHeader s.draws (demap s).2 { (demap s).1 with state := fsyncHaveSync })

/-- FS.PAY (R258). -/
def execFsPay (sig : Bool) (s : State) : Host.Outcome State Fault Refusal :=
  endStep s .fsync (Instr.fsPay sig).sel <|
    finishDemod s (storePayload s.draws (demap s).2 { (demap s).1 with state := fsyncHaveHeader })

end Sys2Proof.Machine
end

