-- ==== Sys2Proof/Machine/Pins.lean ====
section
/-! DEFINITION. The preamble inserter: PI.DROP, PI.DETECT, PI.PRE, PI.PREL, PI.FIRST, PI.COPY, PI.REDETECT
(42_preamble_inserter.md R280 to R291). -/

namespace Sys2Proof.Machine

/-- State codes of PINS (10_state.md R47). -/
def pinsIdle : BitVec 2 := 0#2
def pinsPreamble : BitVec 2 := 1#2
def pinsFirstPayload : BitVec 2 := 2#2
def pinsPayload : BitVec 2 := 3#2

/-- The symbol at `rd`; a step is enabled only when there is one (R280). -/
def pinsItem (s : State) : BurstSymbol := s.pinsIn.items.head?.getD { s := [], bs := false, aux := false }

/-- `PRE[k][j]` as committed, `0 <= j < FFT_LEN`. A preamble sample outside the committed memory is a free value; no legal
configuration reads one (log 19). -/
def preambleSymbol (s : State) (k : Nat) : List Cplx :=
  (List.range s.pins.cfg.fftLen.toNat).map fun j =>
    ((s.pins.pre[k]?.getD [])[j]?).getD (freeCplx .point [1, k, j])

/-- The tags stamped on the first preamble symbol (R289): BURST_START, then the most recent absolute-time tag of the pending input symbol. -/
def stampTags (s : State) : List Tag :=
  { src := srcPins, key := keyBurstStart, index := s.pins.work.wr, value := 0#128 } ::
    match (tagQuery s.pinsIn.tags s.pins.work.rd (s.pins.work.rd + 1#64) keyAbsTime).getLast? with
    | none => []
    | some t => [{ src := t.src, key := keyAbsTime, index := s.pins.work.wr, value := t.value }]

/-- PI.DETECT and PI.REDETECT (R282, R287): the preamble starts, nothing is consumed or produced. -/
def pinsDetect (s : State) : State :=
  { s with pins := { s.pins with work := { s.pins.work with preIdx := 0#8, state := pinsPreamble } } }

/-- PI.PRE and PI.PREL (R283, R284): one preamble symbol with the pending symbol's `AUX` (R288), nothing consumed. -/
def pinsPreambleStep (s : State) (preIdx : Byte) (state : BitVec 2) : State :=
  { s with
    pins := { s.pins with work := { s.pins.work with wr := s.pins.work.wr + 1#64, preIdx := preIdx, state := state } }
    pinsOut := (s.pinsOut.emit (if s.pins.work.preIdx = 0#8 then stampTags s else [])).produce
      [{ s := preambleSymbol s s.pins.work.preIdx.toNat, aux := (pinsItem s).aux }] }

/-- PI.FIRST and PI.COPY (R285, R286): the symbol at `rd` is copied with its own `AUX`. -/
def pinsCopy (s : State) : State :=
  { s with
    pins := { s.pins with work :=
      { s.pins.work with rd := s.pins.work.rd + 1#64, wr := s.pins.work.wr + 1#64, state := pinsPayload } }
    pinsIn := s.pinsIn.consume 1
    pinsOut := s.pinsOut.produce
      [{ s := itemSamples portPinsIn s.pins.work.rd (pinsItem s).s s.pins.cfg.fftLen.toNat, aux := (pinsItem s).aux }] }

/-- PI.DROP (R281). -/
def execPiDrop (pl : Bool) (s : State) : Host.Outcome State Fault Refusal :=
  endStep s .pins (Instr.piDrop pl).sel <| .ok
    { s with
      pins := { s.pins with work := { s.pins.work with rd := s.pins.work.rd + 1#64, state := pinsIdle } }
      pinsIn := s.pinsIn.consume 1 }

/-- PI.DETECT (R282). -/
def execPiDetect (pl : Bool) (s : State) : Host.Outcome State Fault Refusal :=
  endStep s .pins (Instr.piDetect pl).sel (.ok (pinsDetect s))

/-- PI.PRE (R283). -/
def execPiPre (bs : Bool) (s : State) : Host.Outcome State Fault Refusal :=
  endStep s .pins (Instr.piPre bs).sel (.ok (pinsPreambleStep s (s.pins.work.preIdx + 1#8) pinsPreamble))

/-- PI.PREL (R284). -/
def execPiPrel (bs : Bool) (s : State) : Host.Outcome State Fault Refusal :=
  endStep s .pins (Instr.piPrel bs).sel
    (.ok (pinsPreambleStep s (s.pins.cfg.nPre.setWidth 8) pinsFirstPayload))

/-- PI.FIRST (R285). -/
def execPiFirst (pl bs : Bool) (s : State) : Host.Outcome State Fault Refusal :=
  endStep s .pins (Instr.piFirst pl bs).sel (.ok (pinsCopy s))

/-- PI.COPY (R286). -/
def execPiCopy (pl : Bool) (s : State) : Host.Outcome State Fault Refusal :=
  endStep s .pins (Instr.piCopy pl).sel (.ok (pinsCopy s))

/-- PI.REDETECT (R287). -/
def execPiRedetect (pl : Bool) (s : State) : Host.Outcome State Fault Refusal :=
  endStep s .pins (Instr.piRedetect pl).sel (.ok (pinsDetect s))

end Sys2Proof.Machine
end

