-- ==== Sys2Proof/Machine/Samp.lean ====
section
/-! DEFINITION. The symbol sampler: SA.SCAN, SA.ACQ, SA.SYM, SA.LAST, SA.REACQ (40_sampler.md R200 to R217). -/

namespace Sys2Proof.Machine

/-- State codes of SAMP (10_state.md R47). -/
def sampNoSignal : BitVec 2 := 0#2
def sampFrame : BitVec 2 := 2#2

/-- The absolute-time half of tag ingestion over `[rd, rd + c)` (R205, R206). -/
def ingestTime (s : State) (c : Nat) (w : SampWork) : Except HwFault SampWork :=
  match (tagQuery s.sampIn.tags w.rd (w.rd + BitVec.ofNat 64 c) keyAbsTime).getLast? with
  | none => .ok w
  | some t =>
    if t.index ≠ 0#64 then
      if s.samp.cfg.policy then .ok { w with dropCnt := w.dropCnt + 1#32 }
      else .error (faultAtimeOffset t.index)
    else .ok { w with atValid := true, atSecs := valueSecs t.value, atFrac := valueLow t.value, atIdx := t.index }

/-- The carrier-frequency-offset half of tag ingestion (R205). -/
def ingestCfo (s : State) (c : Nat) (w : SampWork) : SampWork :=
  match (tagQuery s.sampIn.tags w.rd (w.rd + BitVec.ofNat 64 c) keyCfo).getLast? with
  | none => w
  | some t => { w with cfoValid := true, cfoVal := valueLow t.value, cfoSrc := t.src }

/-- Tag ingestion (R205, R206), before the step's own part (R200). -/
def sampIngest (s : State) (c : Nat) : Except HwFault SampWork :=
  match ingestTime s c s.samp.work with
  | .error f => .error f
  | .ok w => .ok (ingestCfo s c w)

/-- The burst timestamp (R207) of a trigger at absolute index `p`, with the latches after ingestion. -/
def burstTime (s : State) (w : SampWork) (p : Dword) : Time :=
  timeAdd { secs := w.atSecs, frac := w.atFrac }
    (p - BitVec.ofNat 64 (sampSym s) + 1#64 - w.atIdx).toInt s.samp.cfg.bandwidth.toNat

/-- The tags of a trigger at `p` (R208): SYNC_TIME first, then CFO, at the index of the symbol about to be produced. -/
def triggerTags (s : State) (w : SampWork) (p : Dword) : List Tag :=
  (if w.atValid then
    [{ src := srcSamp, key := keySyncTime, index := w.wr, value := timeValue (burstTime s w p) }] else []) ++
  (if w.cfoValid then [{ src := w.cfoSrc, key := keyCfo, index := w.wr, value := cfoValue w.cfoVal }] else [])

/-- `IN[rd + c + j]`, `0 <= j < FFT_LEN`: the symbol that begins `c` samples after `rd`. A sample that was not offered is a free
value; an enabled step never reads one (R204). -/
def sampSymbol (s : State) (c : Nat) : List Cplx :=
  (List.range (sampFft s)).map fun j =>
    ((s.sampIn.items[c + j]?).map fun x => x.s).getD
      (freeCplx .sample [portSampIn, (s.samp.work.rd + BitVec.ofNat 64 (c + j)).toNat, 0])

/-- The common part of SA.ACQ and SA.REACQ (R210, R211): the symbol ending at the trigger, `SIG = 1`, countdown armed. -/
def sampAcquire (s : State) : Except HwFault State :=
  let c := scanConsumed s
  match sampIngest s c with
  | .error f => .error f
  | .ok w =>
    let p := w.rd + BitVec.ofNat 64 (c + sampFft s) - 1#64
    .ok { s with
      samp := { s.samp with work := { w with
        wr := w.wr + 1#64
        rd := w.rd + BitVec.ofNat 64 c
        countdown := s.samp.cfg.timeout
        burstCnt := w.burstCnt + 1#32
        state := if s.samp.cfg.timeout = 0#32 then sampNoSignal else sampFrame } }
      sampIn := s.sampIn.consume c
      sampOut := (s.sampOut.emit (triggerTags s w p)).produce [{ s := sampSymbol s c, sig := true }] }

/-- The common part of SA.SYM and SA.LAST (R212, R213): the next regular symbol, `SIG = 0`; `upd` is what the two do to the
countdown, the timeout counter and the state. -/
def sampRegular (s : State) (upd : SampWork → SampWork) : Except HwFault State :=
  let c := sampSym s
  match sampIngest s c with
  | .error f => .error f
  | .ok w =>
    .ok { s with
      samp := { s.samp with work := upd { w with wr := w.wr + 1#64, rd := w.rd + BitVec.ofNat 64 c } }
      sampIn := s.sampIn.consume c
      sampOut := s.sampOut.produce [{ s := sampSymbol s c, sig := false }] }

/-- SA.SCAN (R214). -/
def execSaScan (l : Bool) (s : State) : Host.Outcome State Fault Refusal :=
  endStep s .samp (Instr.saScan l).sel <|
    match sampIngest s (sampSym s) with
    | .error f => .error f
    | .ok w =>
      .ok { s with
        samp := { s.samp with work := { w with rd := w.rd + BitVec.ofNat 64 (sampSym s), state := sampNoSignal } }
        sampIn := s.sampIn.consume (sampSym s) }

/-- SA.ACQ (R210). -/
def execSaAcq (l : Bool) (s : State) : Host.Outcome State Fault Refusal :=
  endStep s .samp (Instr.saAcq l).sel (sampAcquire s)

/-- SA.SYM (R212). -/
def execSaSym (s : State) : Host.Outcome State Fault Refusal :=
  endStep s .samp Instr.saSym.sel
    (sampRegular s fun w => { w with countdown := w.countdown - 1#32, state := sampFrame })

/-- SA.LAST (R213). -/
def execSaLast (s : State) : Host.Outcome State Fault Refusal :=
  endStep s .samp Instr.saLast.sel
    (sampRegular s fun w =>
      { w with countdown := 0#32, timeoutCnt := w.timeoutCnt + 1#32, state := sampNoSignal })

/-- SA.REACQ (R211): identical to SA.ACQ. -/
def execSaReacq (l : Bool) (s : State) : Host.Outcome State Fault Refusal :=
  endStep s .samp (Instr.saReacq l).sel (sampAcquire s)

end Sys2Proof.Machine
end

