-- ==== Sys2Proof/Machine/Sys.lean ====
section
/-! DEFINITION. The system operations of HOST: SYS.SRST, SYS.COMMIT, SYS.STOP, SYS.CFGWR, SYS.W1C, SYS.READ, the
validation of a configuration and the derivations of a commit (45_system_ops.md R330 to R344). -/

namespace Sys2Proof.Machine

open Sys2Proof.Config (anyWord)

/-! ## Legal configurations (R340); code 0 is legal -/

/-- The checks of SAMP, in order (R340). -/
def validateSamp (r : SampRegs) : Byte :=
  if r.fftLen.toNat = 0 ∨ Config.maxFft < r.fftLen.toNat then 0x13#8
  else if r.symLen.toNat < r.fftLen.toNat ∨ 2 * Config.maxFft < r.symLen.toNat then 0x14#8
  else if r.bandwidth.toNat = 0 then 0x15#8
  else 0x00#8

/-- A legal constellation size (R340, FSYNC check 3). -/
def legalNpoints (n : Nat) : Bool :=
  n == 2 || n == 4 || n == 8 || n == 16 || n == 32 || n == 64 || n == 128 || n == 256

/-- `maskbit(i)` (R342). -/
def maskBit (s : State) (i : Nat) : Bool := (tableWord s (maskAddr (i / 32))).getLsbD (31 - i % 32)

/-- `VAL[k]` as the commit finds it (10_state.md R69). -/
def tableVal (s : State) (k : Nat) : Byte := (tableWord s (constValAddr k)).setWidth 8

/-- `REF[k]` as the commit finds it (10_state.md R69). -/
def tableRef (s : State) (k : Nat) : Cplx := { re := tableWord s (constReAddr k), im := tableWord s (constImAddr k) }

/-- The subcarrier map (R342) of a symbol of `fft` samples, ascending, 12 bits an entry (10_state.md R70). -/
def mapOf (s : State) (fft : Nat) : List (BitVec 12) :=
  ((List.range fft).filter (maskBit s)).map (BitVec.ofNat 12)

/-- FSYNC check 6 (R340): a mask bit beyond the symbol, within its last mask word. -/
def maskOutOfRange (s : State) (fft : Nat) : Bool :=
  (List.range (32 * ((fft + 31) / 32) - fft)).any fun k => maskBit s (fft + k)

/-- The checks of FSYNC, in order (R340). -/
def validateFsync (s : State) (r : FsyncRegs) : Byte :=
  if r.fftLen.toNat = 0 ∨ Config.maxFft < r.fftLen.toNat then 0x13#8
  else if r.occCarriers.toNat = 0 ∨ r.fftLen.toNat < r.occCarriers.toNat then 0x1A#8
  else if legalNpoints r.constNpoints.toNat = false then 0x16#8
  else if r.constNvalues ≠ r.constNpoints then 0x11#8
  else if (List.range r.constNpoints.toNat).any
      (fun k => decide (2 ^ Nat.log2 r.constNpoints.toNat ≤ (tableVal s k).toNat)) then 0x17#8
  else if maskOutOfRange s r.fftLen.toNat then 0x19#8
  else if (mapOf s r.fftLen.toNat).length = 0 then 0x18#8
  else if r.occCarriers.toNat < (mapOf s r.fftLen.toNat).length then 0x12#8
  else 0x00#8

/-- The checks of PINS, in order (R340). -/
def validatePins (r : PinsRegs) : Byte :=
  if r.fftLen.toNat = 0 ∨ Config.maxFft < r.fftLen.toNat then 0x13#8
  else if r.nPre.toNat = 0 ∨ Config.maxPre < r.nPre.toNat then 0x1B#8
  else if r.preSymLen ≠ r.fftLen then 0x10#8
  else 0x00#8

/-- The check of CPFX (R340). -/
def validateCpfx (r : CpfxRegs) : Byte :=
  if r.inSize.toNat = 0 ∨ Config.maxFft < r.inSize.toNat ∨ r.outSize.toNat < r.inSize.toNat ∨
      2 * r.inSize.toNat < r.outSize.toNat then 0x1C#8
  else 0x00#8

/-- `VALIDATE(e)` (R332): the code of the first check that fails, or 0. -/
def validate (s : State) (e : Engine) : Byte :=
  match e with
  | .samp => validateSamp s.samp.reg
  | .fsync => validateFsync s s.fsync.reg
  | .pins => validatePins s.pins.reg
  | .cpfx => validateCpfx s.cpfx.reg

/-! ## Commit (R331, 70_reset_and_hazards.md R392) -/

/-- The preamble memory as the commit finds it (10_state.md R72). -/
def preOf (s : State) (r : PinsRegs) : List (List Cplx) :=
  (List.range r.nPre.toNat).map fun k => (List.range r.fftLen.toNat).map fun j =>
    { re := tableWord s (preAddr k j), im := tableWord s (preAddr k j + 4) }

/-- `CFG.*` takes the register values and the derived values are computed (R331, R342, R343); the ports of the engine start a new run. -/
def freezeConfig (s : State) (e : Engine) : State :=
  match e with
  | .samp =>
    { s with samp := { s.samp with cfg := s.samp.reg }, sampIn := s.sampIn.restart, sampOut := s.sampOut.restart }
  | .fsync =>
    { s with
      fsync := { s.fsync with
        cfg := s.fsync.reg
        map := mapOf s s.fsync.reg.fftLen.toNat
        refs := (List.range s.fsync.reg.constNpoints.toNat).map (tableRef s)
        vals := (List.range s.fsync.reg.constNpoints.toNat).map (tableVal s) }
      fsyncIn := s.fsyncIn.restart }
  | .pins =>
    { s with
      pins := { s.pins with cfg := s.pins.reg, pre := preOf s s.pins.reg }
      pinsIn := s.pinsIn.restart
      pinsOut := s.pinsOut.restart }
  | .cpfx =>
    { s with cpfx := { s.cpfx with cfg := s.cpfx.reg }, cpfxIn := s.cpfxIn.restart, cpfxOut := s.cpfxOut.restart }

/-- A commit that is refused (R331): the code is recorded, `EN` stays 0, nothing else changes. -/
def commitRefused (s : State) (e : Engine) (code : Byte) : State :=
  s.setCtl e { s.ctlOf e with cfgErr := true, cfgErrCode := code }

/-- A commit that is accepted (R331): configuration frozen, working state reset, `LAST_SEL` cleared, engine enabled. The fault
record is not touched. -/
def commitAccepted (s : State) (e : Engine) : State :=
  (resetWork (freezeConfig s e) e).setCtl e
    { s.ctlOf e with cfgErr := false, cfgErrCode := 0#8, lastSel := 0#8, lastValid := false, en := true }

/-- SYS.COMMIT of a disabled engine. The draws of this commit are used up (M8, log 5). -/
def commit (s : State) (e : Engine) : State :=
  let t := if validate s e = 0#8 then commitAccepted s e else commitRefused s e (validate s e)
  { t with draws := s.draws + 1 }

/-! ## The six system operations -/

/-- SYS.SRST (R336). -/
def execSysSrst (e : Engine) (_d : Word) (s : State) : Host.Outcome State Fault Refusal :=
  .next (softReset s e)

/-- SYS.COMMIT (R331); with `EN = 1` the write changes nothing (30_encoding.md R168). -/
def execSysCommit (e : Engine) (_d : Word) (s : State) : Host.Outcome State Fault Refusal :=
  .next (if (s.ctlOf e).en then s else commit s e)

/-- SYS.STOP (R335); with `EN = 0` the write changes nothing (30_encoding.md R168). -/
def execSysStop (e : Engine) (_d : Word) (s : State) : Host.Outcome State Fault Refusal :=
  .next (s.setCtl e { s.ctlOf e with en := false })

/-- A write to configuration owned by `e` (R337): performed while the engine is disabled, else ignored with `CFG_WR_IGN` set. -/
def guardedWrite (s : State) (e : Engine) (t : State) : State :=
  if (s.ctlOf e).en then s.setCtl e { s.ctlOf e with cfgWrIgn := true } else t

/-- SYS.CFGWR (R337). `IRQ_ENABLE` is plain RW and can be written at any time. -/
def execSysCfgwr (a : BusAddr) (d : Word) (s : State) : Host.Outcome State Fault Refusal :=
  .next <|
    match cfgRegAt a with
    | some c => guardedWrite s c.owner (setCfgReg s c d)
    | none =>
      match tableAt a with
      | some t => guardedWrite s t.owner { s with mem := Memory.writeWord s.mem a.toNat (t.keep d) }
      | none => if a = irqEnableAddr then { s with irqEnable := d.extractLsb' 0 4 } else s

/-- SYS.W1C (R338). -/
def execSysW1c (e : Engine) (_d : Word) (s : State) : Host.Outcome State Fault Refusal :=
  .next (s.setCtl e { s.ctlOf e with cfgWrIgn := false })

/-- The unlisted bits of a word read 0, also when its listed bits are unspecified (R344). -/
def keepAt (a : BusAddr) (d : Word) : Word :=
  match tableAt a with
  | some t => t.keep d
  | none => d

/-- SYS.READ (R344). An unspecified element reads as a new free value each time (10_state.md R54, M7, log 5). -/
def execSysRead (a : BusAddr) (s : State) : Host.Outcome State Fault Refusal :=
  .next <|
    match regRead s a with
    | some v => { s with rdata := v }
    | none => { s with rdata := keepAt a (anyWord .busRead [s.draws, a.toNat]), draws := s.draws + 1 }

end Sys2Proof.Machine
end

