-- ==== Sys2Proof/Machine/Env.lean ====
section
/-! DEFINITION. The actions of the environment (20_memory.md R103, R106, R110, R112; 30_encoding.md R170, R171), hardware
reset (70_reset_and_hazards.md R390), and placing one operation so that the next step runs it. -/

namespace Sys2Proof.Machine

/-- A bus access that performs no system operation (20_memory.md R122, 10_state.md section 6): a write changes nothing, a
read returns 0. -/
def idleAccess (s : State) (acc : BusAccess) : State :=
  match acc.op with
  | .read => { s with rdata := 0#32 }
  | .write _ => s

/-- An environment producer appends a tag to an input port (20_memory.md R106). -/
def appendTag (s : State) (p : InPortId) (t : Tag) : State :=
  match p with
  | .sampIn => { s with sampIn := s.sampIn.addTags s.samp.ctl.en [t] }
  | .fsyncIn => { s with fsyncIn := s.fsyncIn.addTags s.fsync.ctl.en [t] }
  | .pinsIn => { s with pinsIn := s.pinsIn.addTags s.pins.ctl.en [t] }
  | .cpfxIn => { s with cpfxIn := s.cpfxIn.addTags s.cpfx.ctl.en [t] }

/-- SCHED accepts `n` more items on an output port (30_encoding.md R170). -/
def grantRoom (s : State) (p : OutPortId) (n : Nat) : State :=
  match p with
  | .sampOut => { s with sampOut := s.sampOut.grant n }
  | .pinsOut => { s with pinsOut := s.pinsOut.grant n }
  | .cpfxOut => { s with cpfxOut := s.cpfxOut.grant n }

/-- The consumer takes the oldest frame (20_memory.md R110); from an empty queue it takes nothing and stays blocked. A bounded queue
gains one place (log 12). -/
def dequeueFrame (s : State) : State :=
  match s.msgq with
  | [] => s
  | _ :: rest => { s with msgq := rest, qroom := s.qroom.map (· + 1) }

/-- The tags of an output port at index `n`, in production order (20_memory.md R112). -/
def tagsAt (ts : List Tag) (n : Nat) : List Tag := ts.filter fun t => t.index == BitVec.ofNat 64 n

/-- XFORM relays one item SAMP.OUT to FSYNC.IN (20_memory.md R112): tags first, the flag unchanged, the samples as XFORM made them.
DESIGN CHOICE (log 26): the item relayed is the next one of the upstream engine's run and its tags keep the upstream index, also where
only one of the two engines was committed anew and the item gets another index downstream. -/
def relayRxItem (s : State) (ys : List Cplx) : State :=
  match s.sampOut.items[s.sampOut.relayed]? with
  | none => s
  | some x =>
    { s with
      fsyncIn := (s.fsyncIn.addTags s.fsync.ctl.en (tagsAt s.sampOut.tags s.sampOut.relayed)).offer s.fsync.ctl.en
        { s := ys, sig := x.sig }
      sampOut := { s.sampOut with relayed := s.sampOut.relayed + 1 } }

/-- XFORM relays one item PINS.OUT to CPFX.IN (20_memory.md R112); the flag bit `AUX` arrives at the place of `EOB`
(95_test_vectors.md P4). The indices are taken as in `relayRxItem` (log 26). -/
def relayTxItem (s : State) (ys : List Cplx) : State :=
  match s.pinsOut.items[s.pinsOut.relayed]? with
  | none => s
  | some x =>
    { s with
      cpfxIn := (s.cpfxIn.addTags s.cpfx.ctl.en (tagsAt s.pinsOut.tags s.pinsOut.relayed)).offer s.cpfx.ctl.en
        { s := ys, eob := x.aux }
      pinsOut := { s.pinsOut with relayed := s.pinsOut.relayed + 1 } }

/-- Hardware reset (70_reset_and_hazards.md R390): the block takes the values of `State.reset`; what belongs to the environment stays
(log 17). -/
def hardwareReset (s : State) : State :=
  { s with
    samp := Samp.reset, fsync := Fsync.reset, pins := Pins.reset, cpfx := Cpfx.reset, irqEnable := 0#4, mem := [] }

/-! ## Placing one operation (log 2) -/

/-- SAMP enabled with one-sample symbols, in state `st`, its window offering the trigger `c0` and its countdown the condition `c1`. -/
def placeSamp (s : State) (st : BitVec 2) (c1 c0 : Bool) : State :=
  { s with
    samp := { s.samp with
      ctl := { s.samp.ctl with en := true, fault := false, cfgErr := false }
      cfg := { policy := false, fftLen := 1#32, symLen := 1#32, bandwidth := 1#32, timeout := 2#32 }
      work := { s.samp.work with
        state := st, countdown := if c1 then 1#32 else if st = sampFrame then 2#32 else 0#32 } }
    sampIn := { s.sampIn with items := [{ s := unity, trig := false }, { s := unity, trig := c0 }] }
    sampOut := { s.sampOut with space := none } }

/-- FSYNC enabled with one subcarrier and two points, in state `st`, its next symbol carrying `SIG = c0`. -/
def placeFsync (s : State) (st : BitVec 2) (c0 : Bool) : State :=
  { s with
    fsync := { s.fsync with
      ctl := { s.fsync.ctl with en := true, fault := false, cfgErr := false }
      cfg := { policy := false, fftLen := 1#32, occCarriers := 1#32, constNpoints := 2#32, constNvalues := 2#32,
               phaseGain := 0#32, freqGain := 0#32, eqGain := 0#32 }
      map := [0#12]
      refs := [unity, { re := -Config.one, im := 0#32 }]
      vals := [0#8, 1#8]
      work := { s.fsync.work with
        state := st, taps := [unity]
        hdr := if st = fsyncHaveHeader then 0x00010001#32 else 0#32
        hdrCnt := if st = fsyncHaveHeader then 4#3 else 0#3
        pktLen := if st = fsyncHaveHeader then 1#12 else 0#12
        whit := 0#4, pktCnt := 0#12, pkBits := 0#15, pkN := 0#4 } }
    fsyncIn := { s.fsyncIn with items := [{ s := [unity], sig := c0 }] }
    qroom := none }

/-- PINS enabled with two one-sample preamble symbols, in state `st`, its next symbol carrying `BS = c0`, `pre_idx` giving `PL = c1`. -/
def placePins (s : State) (st : BitVec 2) (c1 c0 : Bool) : State :=
  { s with
    pins := { s.pins with
      ctl := { s.pins.ctl with en := true, fault := false, cfgErr := false }
      cfg := { fftLen := 1#32, nPre := 2#32, preSymLen := 1#32 }
      pre := [[unity], [unity]]
      work := { s.pins.work with
        state := st, preIdx := if c1 then 1#8 else if st = pinsFirstPayload then 2#8 else 0#8 } }
    pinsIn := { s.pinsIn with items := [{ s := [unity], bs := c0, aux := false }] }
    pinsOut := { s.pinsOut with space := none } }

/-- CPFX enabled with one-sample symbols, its next symbol carrying `EOB = c0`. -/
def placeCpfx (s : State) (c0 : Bool) : State :=
  { s with
    cpfx := { s.cpfx with
      ctl := { s.cpfx.ctl with en := true, fault := false, cfgErr := false }
      cfg := { inSize := 1#32, outSize := 1#32 }
      work := { rd := s.cpfx.work.rd, wr := s.cpfx.work.rd } }
    cpfxIn := { s.cpfxIn with items := [{ s := [unity], eob := c0 }] }
    cpfxOut := { s.cpfxOut with space := none } }

/-- The engine a selector names (30_encoding.md R160). -/
def selEngine (b : Byte) : Engine :=
  if b.extractLsb' 6 2 = 0#2 then .samp else if b.extractLsb' 6 2 = 1#2 then .fsync
  else if b.extractLsb' 6 2 = 2#2 then .pins else .cpfx

/-- Makes the next step of the named engine have the selector `b`: its state, its condition bits, a legal configuration, the items and
the room a step needs, and the engine's turn. -/
def placeSel (s : State) (b : Byte) : State :=
  let st := b.extractLsb' 4 2
  let t := match selEngine b with
    | .samp => placeSamp s st (b.getLsbD 1) (b.getLsbD 0)
    | .fsync => placeFsync s st (b.getLsbD 0)
    | .pins => placePins s st (b.getLsbD 1) (b.getLsbD 0)
    | .cpfx => placeCpfx s (b.getLsbD 0)
  { t with agenda := .step (selEngine b) :: s.agenda }

/-- Makes the next action run the operation `c`. -/
def placeCode (s : State) (c : Code) : State :=
  match c with
  | .sel b => placeSel s b
  | .bus acc => { s with agenda := .bus acc :: s.agenda }

/-- Makes the next action run the operation a word of the opcode table stands for. -/
def placeWord (s : State) (nbits w : Nat) : State :=
  match tableCode nbits w with
  | none => s
  | some c => placeCode s c

end Sys2Proof.Machine
end

