-- ==== Sys2Proof/Machine/Dispatch.lean ====
section
/-! DEFINITION. One arm for each operation. -/

namespace Sys2Proof.Machine

/-- What an operation does once it is selected (30_encoding.md R162) or performed on the bus (R168). -/
def exec (i : Instr) (s : State) : Host.Outcome State Fault Refusal :=
  match i with
  | .saScan l => Sys2Proof.Machine.execSaScan l s
  | .saAcq l => Sys2Proof.Machine.execSaAcq l s
  | .saSym => Sys2Proof.Machine.execSaSym s
  | .saLast => Sys2Proof.Machine.execSaLast s
  | .saReacq l => Sys2Proof.Machine.execSaReacq l s
  | .fsIdle => Sys2Proof.Machine.execFsIdle s
  | .fsAcq => Sys2Proof.Machine.execFsAcq s
  | .fsHdr sig => Sys2Proof.Machine.execFsHdr sig s
  | .fsPay sig => Sys2Proof.Machine.execFsPay sig s
  | .piDrop pl => Sys2Proof.Machine.execPiDrop pl s
  | .piDetect pl => Sys2Proof.Machine.execPiDetect pl s
  | .piPre bs => Sys2Proof.Machine.execPiPre bs s
  | .piPrel bs => Sys2Proof.Machine.execPiPrel bs s
  | .piFirst pl bs => Sys2Proof.Machine.execPiFirst pl bs s
  | .piCopy pl => Sys2Proof.Machine.execPiCopy pl s
  | .piRedetect pl => Sys2Proof.Machine.execPiRedetect pl s
  | .cpSym => Sys2Proof.Machine.execCpSym s
  | .cpEob => Sys2Proof.Machine.execCpEob s
  | .sysSrst e d => Sys2Proof.Machine.execSysSrst e d s
  | .sysCommit e d => Sys2Proof.Machine.execSysCommit e d s
  | .sysStop e d => Sys2Proof.Machine.execSysStop e d s
  | .sysCfgwr a d => Sys2Proof.Machine.execSysCfgwr a d s
  | .sysW1c e d => Sys2Proof.Machine.execSysW1c e d s
  | .sysRead a => Sys2Proof.Machine.execSysRead a s

end Sys2Proof.Machine
end

