-- ==== Sys2Proof/Machine/Run.lean ====
section
/-! DEFINITION. What one action of one agent does (20_memory.md R103, R120, R130): the engine step, the bus access and the
environment's actions. -/

namespace Sys2Proof.Machine

/-- The engine step SCHED invokes (20_memory.md R103): a held engine does nothing; else the operation of the selector runs
(30_encoding.md R162), or a reserved selector raises `F_ILLEGAL_STATE` (R165). -/
def engineStep (s : State) (e : Engine) : Host.Outcome State Fault Refusal :=
  if enabled s e then
    match decodeSel (selector s e) with
    | .ok i => exec i s
    | .error (.illegalState st) => .next (faultEntry s e (selector s e) (faultIllegalState st))
    | .error _ => .fault .unformableSelector
  else .next s

/-- One bus access (20_memory.md R120). -/
def busStep (s : State) (acc : BusAccess) : Host.Outcome State Fault Refusal :=
  match decodeBus acc with
  | .ok i => exec i s
  | .error _ => .next (idleAccess s acc)

/-- One action of one agent. -/
def perform (s : State) : Action → Host.Outcome State Fault Refusal
  | .bus acc => busStep s acc
  | .step e => engineStep s e
  | .pushSamp x => .next { s with sampIn := s.sampIn.offer s.samp.ctl.en x }
  | .pushFsync x => .next { s with fsyncIn := s.fsyncIn.offer s.fsync.ctl.en x }
  | .pushPins x => .next { s with pinsIn := s.pinsIn.offer s.pins.ctl.en x }
  | .pushCpfx x => .next { s with cpfxIn := s.cpfxIn.offer s.cpfx.ctl.en x }
  | .tag p t => .next (appendTag s p t)
  | .room p n => .next (grantRoom s p n)
  | .qroom n => .next { s with qroom := some (s.qroom.getD 0 + n) }
  | .dequeue => .next (dequeueFrame s)
  | .relayRx ys => .next (relayRxItem s ys)
  | .relayTx ys => .next (relayTxItem s ys)
  | .hwReset => .next (hardwareReset s)

end Sys2Proof.Machine
end

