-- ==== Sys2Proof/Machine/Step.lean ====
section
/-! DEFINITION. One step of the machine: the next action of the agenda (20_memory.md R130). -/

namespace Sys2Proof.Machine

/-- One step: the first action of the agenda is performed. With an empty agenda no agent acts and nothing changes
(60_exceptions.md R380). -/
def step (s : State) : Host.Outcome State Fault Refusal :=
  match s.agenda with
  | [] => .next s
  | a :: rest => perform { s with agenda := rest } a

/-- `s` with the operation of a word of the opcode table placed so that the very next step runs it. -/
def State.withFetchWord (s : State) (nbits w : Nat) : State := placeWord s nbits w

end Sys2Proof.Machine
end

