-- ==== Sys2Proof/Safety.lean ====
section
/-! DEFINITION. The invariants that hold between steps (10_state.md R56; 40_sampler.md R217; 41_frame_sync.md R266;
42_preamble_inserter.md R291; 43_cyclic_prefixer.md R300) and what counts as a safe run (60_exceptions.md R361). Each is about
every state that meets it, not only about runs from reset. -/

namespace Sys2Proof.Safety

open Sys2Proof.Machine

/-- The common registers agree with each other (10_state.md R56, 60_exceptions.md R364): `CFG_ERR = 1` implies `EN = 0`, and a code is
recorded only with its flag. -/
def CtlOk (c : Ctl) : Prop :=
  (c.cfgErr = true → c.en = false ∧ c.cfgErrCode ≠ 0#8) ∧ (c.cfgErr = false → c.cfgErrCode = 0#8) ∧
  (c.fault = false → c.faultCode = 0#8 ∧ c.faultInfo = 0#32)

/-- SAMP between steps (40_sampler.md R217): a legal configuration while enabled, only the two steady states, the countdown inside its
range, an accepted time tag only from index 0. -/
def SampInv (s : State) : Prop :=
  CtlOk s.samp.ctl ∧
  (s.samp.ctl.en = true → validateSamp s.samp.cfg = 0#8) ∧
  (s.samp.work.state = sampNoSignal ∨ s.samp.work.state = sampFrame) ∧
  (s.samp.work.state = sampFrame →
    1 ≤ s.samp.work.countdown.toNat ∧ s.samp.work.countdown.toNat ≤ s.samp.cfg.timeout.toNat) ∧
  (s.samp.work.state = sampNoSignal → s.samp.work.countdown = 0#32) ∧
  (s.samp.work.atValid = true → s.samp.work.atIdx = 0#64)

/-- A committed FSYNC configuration is one the commit accepts (45_system_ops.md R340, R342, R343), with its tables complete. -/
def FsyncCfgOk (f : Fsync) : Prop :=
  legalNpoints f.cfg.constNpoints.toNat = true ∧
  f.refs.length = f.cfg.constNpoints.toNat ∧ f.vals.length = f.cfg.constNpoints.toNat ∧
  (∀ v ∈ f.vals, v.toNat < 2 ^ nBits f) ∧
  1 ≤ f.map.length ∧ f.map.length ≤ f.cfg.occCarriers.toNat ∧
  f.cfg.occCarriers.toNat ≤ f.cfg.fftLen.toNat ∧ f.cfg.fftLen.toNat ≤ Config.maxFft ∧
  (∀ m ∈ f.map, m.toNat < f.cfg.fftLen.toNat)

/-- FSYNC between steps (41_frame_sync.md R266, 10_state.md R54): no reserved state, the residue shorter than a byte, the header and
payload counters inside their ranges, and every element the next step reads written. -/
def FsyncInv (s : State) : Prop :=
  CtlOk s.fsync.ctl ∧
  (s.fsync.ctl.en = true → FsyncCfgOk s.fsync) ∧
  s.fsync.work.state ≠ 3#2 ∧
  s.fsync.work.pkN.toNat ≤ 7 ∧ s.fsync.work.pkBits.toNat < 2 ^ s.fsync.work.pkN.toNat ∧
  (s.fsync.work.state = fsyncHaveSync → s.fsync.work.hdrCnt.toNat ≤ 3) ∧
  (s.fsync.work.state = fsyncHaveHeader →
    s.fsync.work.hdrCnt = 4#3 ∧ hdrOk s.fsync.work.hdr = true ∧ s.fsync.work.pktLen = hdrLen s.fsync.work.hdr ∧
    s.fsync.work.whit = hdrWhit s.fsync.work.hdr ∧ s.fsync.work.pktCnt < s.fsync.work.pktLen ∧
    ∀ n < s.fsync.work.pktCnt.toNat, (Memory.read s.fsync.work.pkt n).isSome = true) ∧
  (s.fsync.work.state ≠ fsyncSearch → s.fsync.work.taps.length = s.fsync.map.length) ∧
  Memory.wf s.fsync.work.pkt = true

/-- PINS between steps (42_preamble_inserter.md R291). -/
def PinsInv (s : State) : Prop :=
  CtlOk s.pins.ctl ∧
  (s.pins.ctl.en = true → validatePins s.pins.cfg = 0#8 ∧ s.pins.pre.length = s.pins.cfg.nPre.toNat ∧
    ∀ x ∈ s.pins.pre, x.length = s.pins.cfg.fftLen.toNat) ∧
  (s.pins.work.state = pinsPreamble → s.pins.work.preIdx.toNat < s.pins.cfg.nPre.toNat ∧
    ∃ x rest, s.pinsIn.items = x :: rest ∧ x.bs = true) ∧
  (s.pins.work.state = pinsFirstPayload → s.pins.work.preIdx.toNat = s.pins.cfg.nPre.toNat)

/-- CPFX between steps (43_cyclic_prefixer.md R300, 10_state.md R45). -/
def CpfxInv (s : State) : Prop :=
  CtlOk s.cpfx.ctl ∧
  (s.cpfx.ctl.en = true → validateCpfx s.cpfx.cfg = 0#8) ∧
  s.cpfx.work.wr = s.cpfx.work.rd * s.cpfx.cfg.outSize.setWidth 64

/-- The table memories are in canonical form, and every listed byte lies in a table window (20_memory.md R123). -/
def MemInv (s : State) : Prop :=
  Memory.wf s.mem = true ∧ ∀ c ∈ s.mem, c.1 < 2 ^ 20 ∧ (tableAt (BitVec.ofNat 20 c.1)).isSome = true

/-- The output counter of an enabled engine is the number of items it produced in this run (20_memory.md R101, R102). -/
def StreamInv (s : State) : Prop :=
  (s.cpfx.ctl.en = true → validateCpfx s.cpfx.cfg = 0#8) ∧
  (s.samp.ctl.en = true → s.samp.work.wr = BitVec.ofNat 64 s.sampOut.items.length) ∧
  (s.pins.ctl.en = true → s.pins.work.wr = BitVec.ofNat 64 s.pinsOut.items.length) ∧
  (s.cpfx.ctl.en = true → s.cpfx.work.wr = BitVec.ofNat 64 s.cpfxOut.items.length)

/-- No fault the spec calls unreachable is on record (60_exceptions.md R361: codes 0x02, 0x03, 0x04; PINS and CPFX raise none). -/
def NoInternalFault (s : State) : Prop :=
  (s.samp.ctl.faultCode = 0x00#8 ∨ s.samp.ctl.faultCode = 0x01#8) ∧
  (s.fsync.ctl.faultCode = 0x00#8 ∨ s.fsync.ctl.faultCode = 0x05#8) ∧
  s.pins.ctl.faultCode = 0x00#8 ∧ s.cpfx.ctl.faultCode = 0x00#8

/-- All of it: a state a safe run passes through. -/
def Inv (s : State) : Prop :=
  SampInv s ∧ FsyncInv s ∧ PinsInv s ∧ CpfxInv s ∧ MemInv s ∧ StreamInv s ∧ NoInternalFault s

end Sys2Proof.Safety
end

