-- ==== Sys2Proof/Certificates/Slice0/Obligations.lean ====
section
/-! DEFINITION. The statements for the provers. Each docstring names the rules of spec/ it formalises. A helper below is a
word of the statements only; it computes nothing the machine uses. -/

namespace Sys2Proof.Claims

open Sys2Proof.Machine

/-- The common registers after a completed step with selector `b` (30_encoding.md R160). -/
def latched (c : Ctl) (b : Byte) : Ctl := { c with lastSel := b, lastValid := true }

/-- The common registers after a fault entry (60_exceptions.md R364). -/
def faulted (c : Ctl) (b code : Byte) (info : Word) : Ctl :=
  { c with fault := true, faultCode := code, faultInfo := info, lastSel := b, lastValid := true }

/-- The most recently produced tag of a key among those of the `c` items from index `a` on (44_tag_protocol.md R311, R312). -/
def lastTag (tags : List Tag) (a : Dword) (c : Nat) (key : BitVec 3) : Option Tag :=
  (tagQuery tags a (a + BitVec.ofNat 64 c) key).getLast?

/-- No absolute-time tag of the `c` samples the sampler consumes raises a fault (40_sampler.md R206): the last one, if there is one, stands
at index 0, or the policy drops it. -/
def timeAccepted (s : State) (c : Nat) : Prop :=
  ∀ t, lastTag s.sampIn.tags s.samp.work.rd c 3#3 = some t → t.index ≠ 0#64 → s.samp.cfg.policy = true

/-- The sampler's latches after the tags of `c` consumed samples (40_sampler.md R205, R206). -/
def ingested (s : State) (c : Nat) : SampWork :=
  let a := lastTag s.sampIn.tags s.samp.work.rd c 3#3
  let u := lastTag s.sampIn.tags s.samp.work.rd c 4#3
  let w := s.samp.work
  { w with
    atValid := match a with | some t => if t.index = 0#64 then true else w.atValid | none => w.atValid
    atSecs := match a with
      | some t => if t.index = 0#64 then t.value.extractLsb' 64 64 else w.atSecs | none => w.atSecs
    atFrac := match a with
      | some t => if t.index = 0#64 then t.value.extractLsb' 0 64 else w.atFrac | none => w.atFrac
    atIdx := match a with | some t => if t.index = 0#64 then t.index else w.atIdx | none => w.atIdx
    dropCnt := match a with
      | some t => if t.index = 0#64 then w.dropCnt else w.dropCnt + 1#32 | none => w.dropCnt
    cfoValid := match u with | some _ => true | none => w.cfoValid
    cfoVal := match u with | some t => t.value.extractLsb' 0 64 | none => w.cfoVal
    cfoSrc := match u with | some t => t.src | none => w.cfoSrc }

/-- The header after the bytes `bs` are shifted in, the first most significant (41_frame_sync.md R251). -/
def shiftHeader (h : Word) (bs : List Byte) : Word := bs.foldl (fun h b => (h <<< 8) ||| b.setWidth 32) h

/-- The packer run over a list of patterns (41_frame_sync.md R247): the residue, and the bytes completed. -/
def packAll (nbits : Nat) : List Byte → Packer → Packer × List Byte
  | [], p => (p, [])
  | v :: vs, p =>
    let r := packAll nbits vs (pack nbits v p).1
    (r.1, (pack nbits v p).2 ++ r.2)

/-- The number whose little-endian digits in base `2^w` are the bytes of a list. -/
def digits (w : Nat) : List Byte → Nat
  | [] => 0
  | b :: bs => b.toNat + 2 ^ w * digits w bs

/-- The equalized sample of subcarrier position `i` (41_frame_sync.md R241). -/
def equalized (s : State) (i : Nat) (m : BitVec 12) : Cplx :=
  cmul (cmul ((demapCtx s).sample m.toNat) (rotor s.fsync.work.phase)) ((demapCtx s).tap i)

/-- The reference point nearest to it (41_frame_sync.md R242). -/
def nearest (s : State) (i : Nat) (m : BitVec 12) : Cplx :=
  refPoint s.fsync.refs (slice s.fsync.refs (equalized s i m))

/-- The working state of FSYNC after a demodulating step that ends with header `h`, count `n` and state `st`, all else as the demapper
left it. -/
def demodulated (s : State) (st : BitVec 2) (h : Word) (n : BitVec 3) : FsyncWork :=
  { (demap s).1 with rd := s.fsync.work.rd + 1#64, state := st, hdr := h, hdrCnt := n }

/-- What a demodulating step with selector `b` may change: the common registers' selector, the working state, the symbol at `rd`, and
the queue. -/
def demodFrame (s t : State) (b : Byte) : Prop :=
  t = { s with
    fsync := { s.fsync with ctl := latched s.fsync.ctl b, work := t.fsync.work }
    fsyncIn := { s.fsyncIn with items := s.fsyncIn.items.drop 1 }
    msgq := t.msgq
    qroom := t.qroom }

/-- The Decoded Frame of 30_encoding.md R155 for the captured metadata of `w`. -/
def frameOf (w : FsyncWork) (whit : BitVec 4) (payload : List Byte) : Frame :=
  { type := 0#32, arg1 := whit.setWidth 32, arg2 := 0#32, tsValid := w.tsValid, cfoValid := w.cfoValid,
    tsSecs := if w.tsValid then w.tsSecs else 0#64, tsFrac := if w.tsValid then w.tsFrac else 0#64,
    cfo := if w.cfoValid then w.cfoVal else 0#64, len := BitVec.ofNat 32 payload.length, payload := payload }

/-- The engine is held (20_memory.md R103): not running, or items, room or queue room are missing. -/
def held (s : State) (e : Engine) : Prop :=
  (s.ctlOf e).en = false ∨ (s.ctlOf e).fault = true ∨
  match e with
  | .samp => s.sampIn.items.length < s.samp.cfg.fftLen.toNat + s.samp.cfg.symLen.toNat ∨ s.sampOut.space = some 0
  | .fsync => s.fsyncIn.items = [] ∨
      ((s.fsync.work.state = 1#2 ∨ s.fsync.work.state = 2#2) ∧ s.qroom = some 0)
  | .pins => s.pinsIn.items = [] ∨ s.pinsOut.space = some 0
  | .cpfx => s.cpfxIn.items = [] ∨ ∃ k, s.cpfxOut.space = some k ∧ k < s.cpfx.cfg.outSize.toNat

/-- The rows of 30_encoding.md R162, as (match, mask). -/
def selRows : List (Byte × Byte) :=
  [ (0x00#8, 0xFD#8), (0x01#8, 0xFD#8), (0x20#8, 0xFF#8), (0x22#8, 0xFF#8), (0x21#8, 0xFD#8), (0x40#8, 0xFF#8),
    (0x41#8, 0xFF#8), (0x50#8, 0xFE#8), (0x60#8, 0xFE#8), (0x80#8, 0xFD#8), (0x81#8, 0xFD#8), (0x90#8, 0xFE#8),
    (0x92#8, 0xFE#8), (0xA0#8, 0xFC#8), (0xB0#8, 0xFD#8), (0xB1#8, 0xFD#8), (0xC0#8, 0xFF#8), (0xC1#8, 0xFF#8) ]

/-- The encoding clause of an operation's rule (30_encoding.md R162): the selectors of the row `mtch`/`mask` are those that decode to an
operation satisfying `op`, and engine `e` forms one exactly in the states satisfying `sel`. -/
def encodedBy (e : Engine) (mtch mask : Byte) (op : Instr → Prop) (sel : State → Prop) : Prop :=
  (∀ b : Byte, b &&& mask = mtch ↔ ∃ i, decodeSel b = .ok i ∧ op i) ∧ ∀ s : State, selector s e &&& mask = mtch ↔ sel s

/-- Two states that agree on everything a step of engine `e` may read: the engine itself, its ports, and for FSYNC the queue's room and
the draw number. -/
def agreeFor (e : Engine) (s t : State) : Prop :=
  match e with
  | .samp => s.samp = t.samp ∧ s.sampIn = t.sampIn ∧ s.sampOut = t.sampOut
  | .fsync => s.fsync = t.fsync ∧ s.fsyncIn = t.fsyncIn ∧ s.qroom = t.qroom ∧ s.draws = t.draws
  | .pins => s.pins = t.pins ∧ s.pinsIn = t.pinsIn ∧ s.pinsOut = t.pinsOut
  | .cpfx => s.cpfx = t.cpfx ∧ s.cpfxIn = t.cpfxIn ∧ s.cpfxOut = t.cpfxOut

/-- The engine's configuration: registers written, committed copy, derived tables, and the words of its table memories. -/
def sameConfig (e : Engine) (s t : State) : Prop :=
  (match e with
  | .samp => s.samp.reg = t.samp.reg ∧ s.samp.cfg = t.samp.cfg
  | .fsync => s.fsync.reg = t.fsync.reg ∧ s.fsync.cfg = t.fsync.cfg ∧ s.fsync.map = t.fsync.map ∧
      s.fsync.refs = t.fsync.refs ∧ s.fsync.vals = t.fsync.vals
  | .pins => s.pins.reg = t.pins.reg ∧ s.pins.cfg = t.pins.cfg ∧ s.pins.pre = t.pins.pre
  | .cpfx => s.cpfx.reg = t.cpfx.reg ∧ s.cpfx.cfg = t.cpfx.cfg) ∧
  ∀ (a : BusAddr) (k : Table), tableAt a = some k → k.owner = e →
    Memory.read s.mem a.toNat = Memory.read t.mem a.toNat

/-- The working state of engine `e` is the same. -/
def sameWork (e : Engine) (s t : State) : Prop :=
  match e with
  | .samp => s.samp.work = t.samp.work
  | .fsync => s.fsync.work = t.fsync.work
  | .pins => s.pins.work = t.pins.work
  | .cpfx => s.cpfx.work = t.cpfx.work

/-- The configuration registers and committed configuration of engine `e` are the same, table memories apart. -/
def sameRegs (e : Engine) (s t : State) : Prop :=
  match e with
  | .samp => s.samp.reg = t.samp.reg ∧ s.samp.cfg = t.samp.cfg
  | .fsync => s.fsync.reg = t.fsync.reg ∧ s.fsync.cfg = t.fsync.cfg ∧ s.fsync.map = t.fsync.map ∧
      s.fsync.refs = t.fsync.refs ∧ s.fsync.vals = t.fsync.vals
  | .pins => s.pins.reg = t.pins.reg ∧ s.pins.cfg = t.pins.cfg ∧ s.pins.pre = t.pins.pre
  | .cpfx => s.cpfx.reg = t.cpfx.reg ∧ s.cpfx.cfg = t.cpfx.cfg

/-- Everything of the state but engine `e` itself is the same. -/
def onlyEngine (e : Engine) (s t : State) : Prop :=
  match e with
  | .samp => t = { s with samp := t.samp }
  | .fsync => t = { s with fsync := t.fsync }
  | .pins => t = { s with pins := t.pins }
  | .cpfx => t = { s with cpfx := t.cpfx }

/-- The ports of engine `e` are the same, and for FSYNC the queue. -/
def samePorts (e : Engine) (s t : State) : Prop :=
  match e with
  | .samp => t.sampIn = s.sampIn ∧ t.sampOut = s.sampOut
  | .fsync => t.fsyncIn = s.fsyncIn ∧ t.msgq = s.msgq ∧ t.qroom = s.qroom
  | .pins => t.pinsIn = s.pinsIn ∧ t.pinsOut = s.pinsOut
  | .cpfx => t.cpfxIn = s.cpfxIn ∧ t.cpfxOut = s.cpfxOut

/-- A port that starts a new run: an input port with what waited for it, an output port with nothing (45_system_ops.md R331; log 9). -/
def freshIn {α : Type} (p : InPort α) : InPort α :=
  { items := p.staged, tags := p.stagedTags, staged := [], stagedTags := [] }

/-- See `freshIn`; the room stays, and XFORM starts at index 0 (log 9, 26). -/
def freshOut {α : Type} (p : OutPort α) : OutPort α := { p with items := [], tags := [], relayed := 0 }

/-- A component clamped to `SMIN .. SMAX` (00_scope.md R20). -/
def clamp (v : Int) : Int := max (-2147483648) (min 2147483647 v)

/-- `maskbit(i)` (45_system_ops.md R342): bit `31 - i mod 32` of the mask word `i / 32` (10_state.md R68). -/
def maskSet (s : State) (i : Nat) : Bool := (tableWord s (0x1000 + 4 * (i / 32))).getLsbD (31 - i % 32)

/-- `code` is that of the first condition that holds, in the order of the list, or 0 where none does (45_system_ops.md R332). -/
def firstFailing : List (Prop × Byte) → Byte → Prop
  | [], code => code = 0x00#8
  | (p, c) :: rest, code => (p ∧ code = c) ∨ (¬p ∧ firstFailing rest code)

/-- The common registers of one engine on the bus (10_state.md R56). -/
def commonRegs (base : BusAddr) (c : Ctl) (st : BitVec 2) (rd wr : Dword) : List (BusAddr × Word) :=
  [ (base, BitVec.ofNat 32 c.en.toNat),
    (base + 0x04#20, BitVec.ofNat 32 (st.toNat + 16 * (c.en && !c.fault).toNat + 32 * c.cfgErr.toNat +
      64 * c.fault.toNat + 128 * c.cfgWrIgn.toNat)),
    (base + 0x08#20, c.faultCode.setWidth 32), (base + 0x0C#20, c.faultInfo), (base + 0x10#20, c.cfgErrCode.setWidth 32),
    (base + 0x14#20, BitVec.ofNat 32 (c.lastSel.toNat + 2 ^ 31 * c.lastValid.toNat)),
    (base + 0x18#20, rd.extractLsb' 0 32), (base + 0x1C#20, rd.extractLsb' 32 32),
    (base + 0x20#20, wr.extractLsb' 0 32), (base + 0x24#20, wr.extractLsb' 32 32) ]

/-- Every register of the global block and of the four banks with the word it holds (10_state.md R55, R56, R60, R62, R64, R66); WR of
FSYNC, which has no `wr`, is 0 by log 10. -/
def registerFile (s : State) : List (BusAddr × Word) :=
  [ (0x00000#20, 0x4F464231#32), (0x00004#20, 0x10201000#32), (0x00008#20, 0x04100FFF#32),
    (0x0000C#20, BitVec.ofNat 32 ((s.samp.ctl.fault || s.samp.ctl.cfgErr).toNat + 2 * (s.fsync.ctl.fault || s.fsync.ctl.cfgErr).toNat +
      4 * (s.pins.ctl.fault || s.pins.ctl.cfgErr).toNat + 8 * (s.cpfx.ctl.fault || s.cpfx.ctl.cfgErr).toNat)),
    (0x00010#20, s.irqEnable.setWidth 32) ] ++
  commonRegs 0x00100#20 s.samp.ctl s.samp.work.state s.samp.work.rd s.samp.work.wr ++
  [ (0x0013C#20, BitVec.ofNat 32 s.samp.reg.policy.toNat), (0x00140#20, s.samp.reg.fftLen), (0x00144#20, s.samp.reg.symLen),
    (0x00148#20, s.samp.reg.bandwidth), (0x0014C#20, s.samp.reg.timeout), (0x00160#20, s.samp.work.countdown),
    (0x00164#20, BitVec.ofNat 32 (s.samp.work.atValid.toNat + 2 * s.samp.work.cfoValid.toNat)),
    (0x00168#20, s.samp.work.dropCnt), (0x0016C#20, s.samp.work.burstCnt), (0x00170#20, s.samp.work.timeoutCnt) ] ++
  commonRegs 0x00200#20 s.fsync.ctl s.fsync.work.state s.fsync.work.rd 0#64 ++
  [ (0x0023C#20, BitVec.ofNat 32 s.fsync.reg.policy.toNat), (0x00240#20, s.fsync.reg.fftLen), (0x00244#20, s.fsync.reg.occCarriers),
    (0x00248#20, s.fsync.reg.constNpoints), (0x0024C#20, s.fsync.reg.constNvalues), (0x00250#20, s.fsync.reg.phaseGain),
    (0x00254#20, s.fsync.reg.freqGain), (0x00258#20, s.fsync.reg.eqGain),
    (0x00260#20, BitVec.ofNat 32 s.fsync.map.length), (0x00264#20, BitVec.ofNat 32 (Nat.log2 s.fsync.cfg.constNpoints.toNat)),
    (0x00268#20, s.fsync.work.phase), (0x0026C#20, s.fsync.work.freq), (0x00270#20, s.fsync.work.hdr),
    (0x00274#20, BitVec.ofNat 32 (s.fsync.work.pktLen.toNat + 2 ^ 12 * s.fsync.work.whit.toNat + 2 ^ 16 * s.fsync.work.pktCnt.toNat +
      2 ^ 28 * s.fsync.work.hdrCnt.toNat)),
    (0x00278#20, s.fsync.work.missingCnt), (0x0027C#20, s.fsync.work.badhdrCnt), (0x00280#20, s.fsync.work.frameCnt),
    (0x00284#20, BitVec.ofNat 32 (s.fsync.work.tsValid.toNat + 2 * s.fsync.work.cfoValid.toNat)) ] ++
  commonRegs 0x00300#20 s.pins.ctl s.pins.work.state s.pins.work.rd s.pins.work.wr ++
  [ (0x00340#20, s.pins.reg.fftLen), (0x00344#20, s.pins.reg.nPre), (0x00348#20, s.pins.reg.preSymLen),
    (0x00360#20, s.pins.work.preIdx.setWidth 32) ] ++
  commonRegs 0x00400#20 s.cpfx.ctl 0#2 s.cpfx.work.rd s.cpfx.work.wr ++
  [ (0x00440#20, s.cpfx.reg.inSize), (0x00444#20, s.cpfx.reg.outSize) ]

/-- What an output port of an enabled engine keeps: tags and items are only appended. -/
def outGrows {α : Type} (p q : OutPort α) : Prop := p.tags <+: q.tags ∧ p.items <+: q.items

end Sys2Proof.Claims

open Sys2Proof Sys2Proof.Machine Sys2Proof.Safety Sys2Proof.Claims

/-! ## Encoding -/

/-- 30_encoding.md R160, R162, R168: decoding the encoding of a well-formed operation gives it back, with every operand. -/
def Obligations.DecodeEncodeRoundTrip : Prop :=
  ∀ i : Instr, i.wf = true → decode (encode i) = .ok i

/-- 30_encoding.md R160, R162, R168: every selector or bus access that decodes is the encoding of a well-formed operation. -/
def Obligations.DecodedCodeIsItsEncoding : Prop :=
  ∀ (c : Code) (i : Instr), decode c = .ok i → i.wf = true ∧ encode i = c

/-- 30_encoding.md R162, R168; 95_test_vectors.md V90: words written out from the tables decode to the operations they stand for. -/
def Obligations.WrittenWordsDecode : Prop :=
  decodeSel 0x03#8 = .ok (.saAcq true) ∧ decodeSel 0x22#8 = .ok .saLast ∧ decodeSel 0x23#8 = .ok (.saReacq true) ∧
  decodeSel 0x51#8 = .ok (.fsHdr true) ∧ decodeSel 0x93#8 = .ok (.piPrel true) ∧ decodeSel 0xA2#8 = .ok (.piFirst true false) ∧
  decodeSel 0xC1#8 = .ok .cpEob ∧
  decodeBus { op := .write 3#32, addr := 0x00300#20, width := .word } = .ok (.sysSrst .pins 3#32) ∧
  decodeBus { op := .write 0xFFFFFFFD#32, addr := 0x00100#20, width := .word } = .ok (.sysCommit .samp 0xFFFFFFFD#32) ∧
  decodeBus { op := .write 0x80#32, addr := 0x00104#20, width := .word } = .ok (.sysW1c .samp 0x80#32)

/-- 30_encoding.md R162, R165: at most one row of the operation table matches a selector, and a selector an engine forms is either
the encoding of the operation it selects or a reserved one (SAMP state 1 or 3, FSYNC state 3). -/
def Obligations.SelectorsAreCovered : Prop :=
  (∀ b : Byte, (selRows.filter fun r => (b &&& r.2) == r.1).length ≤ 1) ∧
  ∀ (s : State) (e : Engine),
    (∃ i, decodeSel (selector s e) = .ok i ∧ encode i = .sel (selector s e)) ∨
    (e = .samp ∧ (s.samp.work.state = 1#2 ∨ s.samp.work.state = 3#2) ∧
      decodeSel (selector s e) = .error (.illegalState s.samp.work.state)) ∨
    (e = .fsync ∧ s.fsync.work.state = 3#2 ∧ decodeSel (selector s e) = .error (.illegalState 3#2))

/-! ## The step -/

/-- 20_memory.md R103, 30_encoding.md R162, R168: a step runs the operation its selector or its bus access decodes to, with the action
taken off the agenda (the agenda is the model's own, log 1). -/
def Obligations.StepRunsDecodedOperation : Prop :=
  (∀ (s : State) (e : Engine) (rest : List Action) (i : Instr), s.agenda = .step e :: rest → enabled s e = true →
    decodeSel (selector s e) = .ok i → step s = exec i { s with agenda := rest }) ∧
  (∀ (s : State) (acc : BusAccess) (rest : List Action) (i : Instr), s.agenda = .bus acc :: rest →
    decodeBus acc = .ok i → step s = exec i { s with agenda := rest })

/-- 20_memory.md R103, 41_frame_sync.md R264: an engine is held exactly when it is not running or items, room or queue room are
missing, and the step of a held engine changes nothing. -/
def Obligations.HeldEngineDoesNothing : Prop :=
  ∀ (s : State) (e : Engine), (held s e ↔ enabled s e = false) ∧
    ∀ rest, s.agenda = .step e :: rest → held s e → step s = .next { s with agenda := rest }

/-- 10_state.md R47, 30_encoding.md R165, 60_exceptions.md R364: an enabled engine in a reserved or transient state takes
`F_ILLEGAL_STATE`: the record is written, `RUNNING` is 0, nothing else changes. -/
def Obligations.ReservedStateTakesFault : Prop :=
  (∀ (s : State) (rest : List Action), s.agenda = .step .samp :: rest → enabled s .samp = true →
    (s.samp.work.state = 1#2 ∨ s.samp.work.state = 3#2) →
    step s = .next { s with
      agenda := rest
      samp := { s.samp with
        ctl := faulted s.samp.ctl (selector s .samp) 0x04#8 (s.samp.work.state.setWidth 32) } }) ∧
  (∀ (s : State) (rest : List Action), s.agenda = .step .fsync :: rest → enabled s .fsync = true →
    s.fsync.work.state = 3#2 →
    step s = .next { s with
      agenda := rest
      fsync := { s.fsync with ctl := faulted s.fsync.ctl (selector s .fsync) 0x04#8 3#32 } })

/-- 20_memory.md R102, R103; 60_exceptions.md R364: whatever the state, a step answers a next state; no data ends a run. -/
def Obligations.EveryStepAnswersNextState : Prop :=
  ∀ s : State, ∃ t, step s = .next t

/-- 20_memory.md R122, R123; 10_state.md R56: a bus access that is unaligned or not 32 bits wide, a write to a read-only register, to
a reserved address or to the read-only bits of STATUS changes nothing; a read so refused returns 0 (`rdata`, what HOST reads, is log 20). -/
def Obligations.RefusedBusAccessChangesNothing : Prop :=
  (∀ (s : State) (acc : BusAccess) (rest : List Action), s.agenda = .bus acc :: rest →
    (acc.width ≠ .word ∨ acc.addr.toNat % 4 ≠ 0) →
    step s = .next (match acc.op with
      | .read => { s with agenda := rest, rdata := 0#32 }
      | .write _ => { s with agenda := rest })) ∧
  (∀ (s : State) (a : BusAddr) (d : Word) (rest : List Action), s.agenda = .bus (busWrite a d) :: rest →
    ctrlAt a = none → isCfgWord a = false → (statusAt a ≠ none → d.getLsbD 7 = false) →
    step s = .next { s with agenda := rest })

/-! ## The sampler -/

/-- 40_sampler.md R214: SA.SCAN consumes `SYM_LEN` samples and ingests their tags; nothing is produced. -/
def Obligations.SaScanResult : Prop :=
  ∀ (l : Bool) (s : State), timeAccepted s s.samp.cfg.symLen.toNat →
    exec (.saScan l) s = .next { s with
      samp := { s.samp with
        ctl := latched s.samp.ctl (selByte 0#2 0#2 l false)
        work := { ingested s s.samp.cfg.symLen.toNat with
          rd := s.samp.work.rd + BitVec.ofNat 64 s.samp.cfg.symLen.toNat, state := 0#2 } }
      sampIn := { s.sampIn with items := s.sampIn.items.drop s.samp.cfg.symLen.toNat } }

/-- 40_sampler.md R212, R213: SA.SYM and SA.LAST produce `IN[rd + SYM_LEN + j]`, `SIG = 0`, and differ only in the countdown, the timeout
counter and the state. -/
def Obligations.SaRegularSymbol : Prop :=
  ∀ s : State, timeAccepted s s.samp.cfg.symLen.toNat →
    s.samp.cfg.fftLen.toNat + s.samp.cfg.symLen.toNat ≤ s.sampIn.items.length →
    let sym := s.samp.cfg.symLen.toNat
    let w := ingested s sym
    let after := fun (b : Byte) (w' : SampWork) => { s with
      samp := { s.samp with
        ctl := latched s.samp.ctl b
        work := { w' with wr := s.samp.work.wr + 1#64, rd := s.samp.work.rd + BitVec.ofNat 64 sym } }
      sampIn := { s.sampIn with items := s.sampIn.items.drop sym }
      sampOut := { s.sampOut with
        items := s.sampOut.items ++
          [{ s := ((s.sampIn.items.drop sym).take s.samp.cfg.fftLen.toNat).map (fun x => x.s), sig := false }]
        space := s.sampOut.space.map (· - 1) } }
    exec .saSym s = .next (after 0x20#8 { w with countdown := s.samp.work.countdown - 1#32, state := 2#2 }) ∧
    exec .saLast s = .next (after 0x22#8
      { w with countdown := 0#32, timeoutCnt := s.samp.work.timeoutCnt + 1#32, state := 0#2 })

/-- 40_sampler.md R202, R203, R207, R208, R210, R211, R215: with the first trigger of the scan region `k` positions into it, SA.ACQ and
SA.REACQ produce the `FFT_LEN` samples ending at the trigger with `SIG = 1`, emit SYNC_TIME and CFO at the index of that symbol, and arm
the countdown. -/
def Obligations.SaTriggerSymbol : Prop :=
  ∀ (l : Bool) (s : State) (k : Nat) (x : SampleItem),
    s.samp.cfg.fftLen.toNat + s.samp.cfg.symLen.toNat ≤ s.sampIn.items.length →
    k < s.samp.cfg.symLen.toNat →
    s.sampIn.items[s.samp.cfg.fftLen.toNat + k]? = some x → x.trig = true →
    (∀ j < k, ∀ y, s.sampIn.items[s.samp.cfg.fftLen.toNat + j]? = some y → y.trig = false) →
    timeAccepted s (k + 1) →
    let w := ingested s (k + 1)
    let p := s.samp.work.rd + BitVec.ofNat 64 (s.samp.cfg.fftLen.toNat + k)
    let n := (p - s.samp.cfg.symLen.setWidth 64 + 1#64 - w.atIdx).toInt
    let bt := timeAdd { secs := w.atSecs, frac := w.atFrac } n s.samp.cfg.bandwidth.toNat
    let after := fun (b : Byte) => { s with
      samp := { s.samp with
        ctl := latched s.samp.ctl b
        work := { w with
          wr := s.samp.work.wr + 1#64
          rd := s.samp.work.rd + BitVec.ofNat 64 (k + 1)
          countdown := s.samp.cfg.timeout
          burstCnt := s.samp.work.burstCnt + 1#32
          state := if s.samp.cfg.timeout = 0#32 then 0#2 else 2#2 } }
      sampIn := { s.sampIn with items := s.sampIn.items.drop (k + 1) }
      sampOut := { s.sampOut with
        tags := s.sampOut.tags ++
          ((if w.atValid then
              [({ src := 0#8, key := 5#3, index := s.samp.work.wr, value := bt.secs ++ bt.frac } : Tag)] else []) ++
           (if w.cfoValid then
              [({ src := w.cfoSrc, key := 4#3, index := s.samp.work.wr, value := 0#64 ++ w.cfoVal } : Tag)] else []))
        items := s.sampOut.items ++
          [{ s := ((s.sampIn.items.drop (k + 1)).take s.samp.cfg.fftLen.toNat).map (fun y => y.s), sig := true }]
        space := s.sampOut.space.map (· - 1) } }
    exec (.saAcq l) s = .next (after (selByte 0#2 0#2 l true)) ∧
    exec (.saReacq l) s = .next (after (selByte 0#2 2#2 l true))

/-- 40_sampler.md R205, R206: tag ingestion over `c` consumed samples. The last absolute-time tag of the range is accepted at index 0,
faults or is dropped and counted elsewhere; the last CFO tag is latched; nothing else of the working state changes. (Index ranges are
modulo `2^64`, log 11.) -/
def Obligations.SampTagIngestion : Prop :=
  ∀ (s : State) (c : Nat),
    (∀ t, lastTag s.sampIn.tags s.samp.work.rd c 3#3 = some t → t.index ≠ 0#64 → s.samp.cfg.policy = false →
      sampIngest s c = .error { code := 0x01#8, info := t.index.extractLsb' 0 32 }) ∧
    (timeAccepted s c → sampIngest s c = .ok (ingested s c))

/-- 40_sampler.md R206; 60_exceptions.md R361, R364, R367: an absolute-time tag at a non-zero index, most recent of the consumed range,
under policy 0: all five operations take `F_ATIME_OFFSET` with no other effect. -/
def Obligations.SampOffsetViolationFaults : Prop :=
  ∀ (s : State) (l : Bool) (t u : Tag), s.samp.cfg.policy = false →
    lastTag s.sampIn.tags s.samp.work.rd s.samp.cfg.symLen.toNat 3#3 = some t →
    t.index ≠ 0#64 →
    lastTag s.sampIn.tags s.samp.work.rd (scanConsumed s) 3#3 = some u →
    u.index ≠ 0#64 →
    let after := fun (b : Byte) (v : Tag) => { s with
      samp := { s.samp with ctl := faulted s.samp.ctl b 0x01#8 (v.index.extractLsb' 0 32) } }
    exec (.saScan l) s = .next (after (selByte 0#2 0#2 l false) t) ∧
    exec .saSym s = .next (after 0x20#8 t) ∧ exec .saLast s = .next (after 0x22#8 t) ∧
    exec (.saAcq l) s = .next (after (selByte 0#2 0#2 l true) u) ∧
    exec (.saReacq l) s = .next (after (selByte 0#2 2#2 l true) u)

/-- 40_sampler.md R217 (an inference the spec marks "derived"), 10_state.md R47: every step keeps the sampler's invariant. -/
def Obligations.StepKeepsSampInvariant : Prop :=
  ∀ s t : State, SampInv s → step s = .next t → SampInv t

/-! ## The number system -/

/-- 00_scope.md R20, R21, R22, R30; 41_frame_sync.md R243: multiplication, division, the tap update and time addition on integers. A product
is summed exactly, shifted once toward minus infinity and clamped; a quotient is the clamped floor; a tap moves by the clamped scaled
difference to the quotient, or stays where the sample is near zero; time is counted in `2^(-64)` seconds modulo `2^128`. That the tap
moves so, and the threshold, are the spec's own decision ("from general knowledge, not in source", R243). -/
def Obligations.ArithmeticOnIntegers : Prop :=
  (∀ a b : Cplx,
    (cmul a b).re.toInt = clamp ((a.re.toInt * b.re.toInt - a.im.toInt * b.im.toInt) / 65536) ∧
    (cmul a b).im.toInt = clamp ((a.re.toInt * b.im.toInt + a.im.toInt * b.re.toInt) / 65536)) ∧
  (∀ a b : Cplx, b ≠ { re := 0#32, im := 0#32 } →
    let den := b.re.toInt * b.re.toInt + b.im.toInt * b.im.toInt
    0 < den ∧
    (cdiv a b).re.toInt = clamp ((a.re.toInt * b.re.toInt + a.im.toInt * b.im.toInt) * 65536 / den) ∧
    (cdiv a b).im.toInt = clamp ((a.im.toInt * b.re.toInt - a.re.toInt * b.im.toInt) * 65536 / den)) ∧
  (∀ (g : Word) (t z r : Cplx),
    let den := z.re.toInt * z.re.toInt + z.im.toInt * z.im.toInt
    let q := cdiv r z
    (den ≤ 4294967 → eqUpdate g t z r = t) ∧
    (4294967 < den →
      (eqUpdate g t z r).re.toInt =
        clamp (t.re.toInt + clamp (g.toInt * clamp (q.re.toInt - t.re.toInt) / 65536)) ∧
      (eqUpdate g t z r).im.toInt =
        clamp (t.im.toInt + clamp (g.toInt * clamp (q.im.toInt - t.im.toInt) / 65536)))) ∧
  ∀ (t : Time) (n : Int) (bw : Nat), 0 < bw →
    (((timeAdd t n bw).secs.toNat * 2 ^ 64 + (timeAdd t n bw).frac.toNat : Nat) : Int) =
      (((t.secs.toNat * 2 ^ 64 + t.frac.toNat : Nat) : Int) + n * 2 ^ 64 / bw) % 2 ^ 128

/-! ## The frame synchronizer -/

/-- 41_frame_sync.md R231: FS.IDLE, selected in SYNC_SEARCH on a symbol with `SIG = 0`, consumes the symbol and changes nothing else. -/
def Obligations.FsIdleResult : Prop :=
  encodedBy .fsync 0x40#8 0xFF#8 (· = .fsIdle) (fun s => s.fsync.work.state = 0#2 ∧ condSig s = false) ∧
  ∀ s : State, exec .fsIdle s = .next { s with
    fsync := { s.fsync with
      ctl := latched s.fsync.ctl 0x40#8
      work := { s.fsync.work with rd := s.fsync.work.rd + 1#64, state := 0#2 } }
    fsyncIn := { s.fsyncIn with items := s.fsyncIn.items.drop 1 } }

/-- 41_frame_sync.md R232, R233: FS.ACQ captures the most recent tags of the symbol, counts the missing ones and keeps their old values,
and resets taps, tracking, header, packet and residue registers whatever they held. -/
def Obligations.FsAcqResult : Prop :=
  ∀ s : State,
    let w := s.fsync.work
    let a := (tagQuery s.fsyncIn.tags w.rd (w.rd + 1#64) 5#3).getLast?
    let u := (tagQuery s.fsyncIn.tags w.rd (w.rd + 1#64) 4#3).getLast?
    (s.fsync.cfg.policy = false ∨ (a ≠ none ∧ u ≠ none)) →
    exec .fsAcq s = .next { s with
      fsync := { s.fsync with
        ctl := latched s.fsync.ctl 0x41#8
        work := { w with
          state := 1#2, rd := w.rd + 1#64
          taps := List.replicate s.fsync.map.length { re := 65536#32, im := 0#32 }
          phase := 0#32, freq := 0#32, hdr := 0#32, hdrCnt := 0#3, pktLen := 0#12, whit := 0#4, pktCnt := 0#12,
          pkBits := 0#15, pkN := 0#4
          tsValid := match a with | some _ => true | none => w.tsValid
          tsSecs := match a with | some t => t.value.extractLsb' 64 64 | none => w.tsSecs
          tsFrac := match a with | some t => t.value.extractLsb' 0 64 | none => w.tsFrac
          cfoValid := match u with | some _ => true | none => w.cfoValid
          cfoVal := match u with | some t => t.value.extractLsb' 0 64 | none => w.cfoVal
          missingCnt := w.missingCnt + (match a with | some _ => 0#32 | none => 1#32) +
            (match u with | some _ => 0#32 | none => 1#32) } }
      fsyncIn := { s.fsyncIn with items := s.fsyncIn.items.drop 1 } }

/-- 41_frame_sync.md R233; 60_exceptions.md R361, R364: a missing tag under `STALE_POLICY = 1` faults with the missing ones in the detail,
and the step has no other effect. -/
def Obligations.FsAcqStaleTagFaults : Prop :=
  ∀ s : State,
    let w := s.fsync.work
    let a := tagQuery s.fsyncIn.tags w.rd (w.rd + 1#64) 5#3
    let u := tagQuery s.fsyncIn.tags w.rd (w.rd + 1#64) 4#3
    s.fsync.cfg.policy = true → (a = [] ∨ u = []) →
    exec .fsAcq s = .next { s with
      fsync := { s.fsync with
        ctl := faulted s.fsync.ctl 0x41#8 0x05#8
          ((if a = [] then 1#32 else 0#32) + (if u = [] then 2#32 else 0#32)) } }

/-- 41_frame_sync.md R250, R251, R252, R255, R256, R262, R263, R265: FS.HDR, from every state with an incomplete header. The bytes of the
symbol first complete the header; an incomplete one is kept, a bad one returns to search, a good one takes the remaining bytes as
payload and emits the frame if they reach the declared length. -/
def Obligations.FsHdrResult : Prop :=
  ∀ (sig : Bool) (s : State), s.fsync.work.hdrCnt.toNat ≤ 3 →
    let w := (demap s).1
    let bytes := (demap s).2
    let need := 4 - s.fsync.work.hdrCnt.toNat
    let rest := bytes.drop need
    let h := shiftHeader s.fsync.work.hdr (bytes.take need)
    let len := (hdrLen h).toNat
    ∃ t, exec (.fsHdr sig) s = .next t ∧ demodFrame s t (selByte 1#2 1#2 false sig) ∧
      (bytes.length < need →
        t.fsync.work = demodulated s 1#2 h (BitVec.ofNat 3 (s.fsync.work.hdrCnt.toNat + bytes.length)) ∧
        t.msgq = s.msgq ∧ t.qroom = s.qroom) ∧
      (need ≤ bytes.length → hdrOk h = false →
        t.fsync.work = { demodulated s 0#2 h 4#3 with badhdrCnt := s.fsync.work.badhdrCnt + 1#32 } ∧
        t.msgq = s.msgq ∧ t.qroom = s.qroom) ∧
      (need ≤ bytes.length → hdrOk h = true → rest.length < len →
        t.fsync.work = { demodulated s 2#2 h 4#3 with
          pktLen := hdrLen h, whit := hdrWhit h, pktCnt := BitVec.ofNat 12 rest.length, pkt := t.fsync.work.pkt } ∧
        (∀ n, Memory.read t.fsync.work.pkt n = if n < rest.length then rest[n]? else Memory.read w.pkt n) ∧
        t.msgq = s.msgq ∧ t.qroom = s.qroom) ∧
      (need ≤ bytes.length → hdrOk h = true → len ≤ rest.length →
        t.fsync.work = { demodulated s 0#2 h 4#3 with
          pktLen := hdrLen h, whit := hdrWhit h, pktCnt := hdrLen h, pkt := t.fsync.work.pkt,
          frameCnt := s.fsync.work.frameCnt + 1#32 } ∧
        (∀ n, Memory.read t.fsync.work.pkt n = if n < len then rest[n]? else Memory.read w.pkt n) ∧
        t.msgq = s.msgq ++ [frameOf s.fsync.work (hdrWhit h) (rest.take len)] ∧ t.qroom = s.qroom.map (· - 1))

/-- 41_frame_sync.md R256, R258, R262, R263: FS.PAY, from every state whose payload is incomplete and whose stored bytes are `old`. The
bytes of the symbol are stored in order; at the declared length the frame is emitted and the rest is discarded. -/
def Obligations.FsPayResult : Prop :=
  ∀ (sig : Bool) (s : State) (old : List Byte), s.fsync.work.pktCnt < s.fsync.work.pktLen →
    old.length = s.fsync.work.pktCnt.toNat →
    (∀ n < old.length, Memory.read s.fsync.work.pkt n = old[n]?) →
    let bytes := (demap s).2
    let all := old ++ bytes
    let len := s.fsync.work.pktLen.toNat
    ∃ t, exec (.fsPay sig) s = .next t ∧ demodFrame s t (selByte 1#2 2#2 false sig) ∧
      (∀ n, Memory.read t.fsync.work.pkt n =
        if n < min len all.length then all[n]? else Memory.read s.fsync.work.pkt n) ∧
      (all.length < len →
        t.fsync.work = { demodulated s 2#2 s.fsync.work.hdr s.fsync.work.hdrCnt with
          pktCnt := BitVec.ofNat 12 all.length, pkt := t.fsync.work.pkt } ∧
        t.msgq = s.msgq ∧ t.qroom = s.qroom) ∧
      (len ≤ all.length →
        t.fsync.work = { demodulated s 0#2 s.fsync.work.hdr s.fsync.work.hdrCnt with
          pktCnt := s.fsync.work.pktLen, pkt := t.fsync.work.pkt, frameCnt := s.fsync.work.frameCnt + 1#32 } ∧
        t.msgq = s.msgq ++ [frameOf s.fsync.work s.fsync.work.whit (all.take len)] ∧ t.qroom = s.qroom.map (· - 1))

/-- 41_frame_sync.md R240, R241, R243, R245, R246, R247: what the demapper does to each tap, to the residue, to the bytes, and to
frequency and phase from the phase error summed over the active subcarriers; everything else of the working state stays. -/
def Obligations.DemapResult : Prop :=
  ∀ s : State,
    let w := s.fsync.work
    let err := arg
      ((s.fsync.map.mapIdx fun i m => (equalized s i m).re.toInt * (nearest s i m).re.toInt +
        (equalized s i m).im.toInt * (nearest s i m).im.toInt).sum)
      ((s.fsync.map.mapIdx fun i m => (equalized s i m).im.toInt * (nearest s i m).re.toInt -
        (equalized s i m).re.toInt * (nearest s i m).im.toInt).sum)
    let packed := packAll (nBits s.fsync)
      (s.fsync.map.mapIdx fun i m => valBits s.fsync.vals (slice s.fsync.refs (equalized s i m)))
      { bits := w.pkBits, n := w.pkN }
    let freq := BitVec.ofInt 32 (w.freq.toInt - (s.fsync.cfg.freqGain.toInt * err.toInt) >>> (16 : Nat))
    (demap s).2 = packed.2 ∧
    (demap s).1 = { w with
      taps := s.fsync.map.mapIdx fun i m =>
        eqUpdate s.fsync.cfg.eqGain ((demapCtx s).tap i) (equalized s i m) (nearest s i m)
      pkBits := packed.1.bits, pkN := packed.1.n
      freq := freq
      phase := BitVec.ofInt 32
        ((w.phase.toNat : Int) + freq.toInt - (s.fsync.cfg.phaseGain.toInt * err.toInt) >>> (16 : Nat)) }

/-- 41_frame_sync.md R242: the slicer's answer is an index of the table, no point is nearer, and every lower index is farther. -/
def Obligations.SliceIsLowestNearest : Prop :=
  ∀ (refs : List Cplx) (z : Cplx), refs ≠ [] →
    ∃ r, refs[slice refs z]? = some r ∧ (∀ x ∈ refs, dist2 z r ≤ dist2 z x) ∧
      ∀ j < slice refs z, ∀ x, refs[j]? = some x → dist2 z r < dist2 z x

/-- 41_frame_sync.md R247, R266: the packer loses no bit. The bytes it completes and the residue it leaves, read least significant first,
are the old residue followed by the patterns, `NBITS` bits each; it completes `floor((pk_n + NBITS * count) / 8)` bytes.
That bits fill a byte from the least significant end is the spec's own decision ("from general knowledge, not in source", R247). -/
def Obligations.PackingLosesNoBit : Prop :=
  ∀ (nbits : Nat) (vs : List Byte) (p : Packer), nbits ≤ 8 → p.n.toNat ≤ 7 → p.bits.toNat < 2 ^ p.n.toNat →
    (∀ v ∈ vs, v.toNat < 2 ^ nbits) →
    let r := packAll nbits vs p
    r.2.length = (p.n.toNat + nbits * vs.length) / 8 ∧ r.1.n.toNat = (p.n.toNat + nbits * vs.length) % 8 ∧
    r.1.bits.toNat < 2 ^ r.1.n.toNat ∧
    digits 8 r.2 + 2 ^ (8 * r.2.length) * r.1.bits.toNat = p.bits.toNat + 2 ^ p.n.toNat * digits nbits vs

/-- 00_scope.md R29 (an inference the spec marks "derived"): zero noise and unity channel. With phase and frequency zero, taps unity, and every active sample on a reference
point above the equalizer's threshold, a demodulated symbol leaves phase, frequency and taps exactly as they are, whatever the gains. -/
def Obligations.UnityChannelKeepsTracking : Prop :=
  ∀ s : State, s.fsync.work.phase = 0#32 → s.fsync.work.freq = 0#32 →
    s.fsync.work.taps = List.replicate s.fsync.map.length unity →
    (∀ m ∈ s.fsync.map, ∃ x ∈ s.fsync.refs, (fsyncItem s).s[m.toNat]? = some x ∧ Config.eqNormMin < norm2 x) →
    (demap s).1.phase = 0#32 ∧ (demap s).1.freq = 0#32 ∧ (demap s).1.taps = s.fsync.work.taps

/-- 41_frame_sync.md R266, 10_state.md R54 (inferences the spec marks "derived"): every step keeps the frame synchronizer's invariant. -/
def Obligations.StepKeepsFsyncInvariant : Prop :=
  ∀ s t : State, FsyncInv s → step s = .next t → FsyncInv t

/-- 30_encoding.md R150 to R153: a header of length and whitener offset, repeated in its low half and sent most significant byte first,
is accepted and read back; the source's example word is read back but not accepted. The lower half as a copy of the upper is the spec's own
decision ("from general knowledge, not in source", R150, R152). -/
def Obligations.HeaderReadsBack : Prop :=
  (∀ (whit : BitVec 4) (len : BitVec 12) (h0 : Word),
    let h : Word := whit ++ len ++ whit ++ len
    shiftHeader h0 [h.extractLsb' 24 8, h.extractLsb' 16 8, h.extractLsb' 8 8, h.extractLsb' 0 8] = h ∧
    hdrOk h = true ∧ hdrLen h = len ∧ hdrWhit h = whit) ∧
  hdrLen 0x50800000#32 = 128#12 ∧ hdrWhit 0x50800000#32 = 5#4 ∧ hdrOk 0x50800000#32 = false

/-- 30_encoding.md R155: a frame is `11 + ceil(len/4)` words; payload byte `n` stands in bits `8*(n mod 4)` up of word `11 + n/4`.
The serialisation is the spec's own decision (R155, D33). -/
def Obligations.FrameSerialisation : Prop :=
  ∀ f : Frame, f.words.length = 11 + (f.payload.length + 3) / 4 ∧
    (∀ n b, f.payload[n]? = some b →
      ∃ v, f.words[11 + n / 4]? = some v ∧ v.extractLsb' (8 * (n % 4)) 8 = b) ∧
    f.words[1]? = some f.arg1 ∧ f.words[10]? = some f.len ∧
    f.words[3]? = some (BitVec.ofNat 32 (f.tsValid.toNat + 2 * f.cfoValid.toNat))

/-! ## The preamble inserter -/

/-- 42_preamble_inserter.md R281: PI.DROP, selected in IDLE on a symbol with `BS = 0`, consumes the symbol and changes nothing else.
That unflagged symbols are consumed while idle is the spec's own decision ("from general knowledge, not in source", R281). -/
def Obligations.PiDropResult : Prop :=
  encodedBy .pins 0x80#8 0xFD#8 (fun i => ∃ pl, i = .piDrop pl) (fun s => s.pins.work.state = 0#2 ∧ condBs s = false) ∧
  ∀ (pl : Bool) (s : State), exec (.piDrop pl) s = .next { s with
    pins := { s.pins with
      ctl := latched s.pins.ctl (selByte 2#2 0#2 pl false)
      work := { s.pins.work with rd := s.pins.work.rd + 1#64, state := 0#2 } }
    pinsIn := { s.pinsIn with items := s.pinsIn.items.drop 1 } }

/-- 42_preamble_inserter.md R282, R287: PI.DETECT and PI.REDETECT, selected in IDLE and PAYLOAD on a symbol with `BS = 1`, enter PREAMBLE
at symbol 0; nothing is consumed or produced. -/
def Obligations.PiDetectResult : Prop :=
  encodedBy .pins 0x81#8 0xFD#8 (fun i => ∃ pl, i = .piDetect pl) (fun s => s.pins.work.state = 0#2 ∧ condBs s = true) ∧
  encodedBy .pins 0xB1#8 0xFD#8 (fun i => ∃ pl, i = .piRedetect pl) (fun s => s.pins.work.state = 3#2 ∧ condBs s = true) ∧
  ∀ (pl : Bool) (s : State),
    let after := fun (b : Byte) => { s with
      pins := { s.pins with
        ctl := latched s.pins.ctl b
        work := { s.pins.work with preIdx := 0#8, state := 1#2 } } }
    exec (.piDetect pl) s = .next (after (selByte 2#2 0#2 pl true)) ∧
    exec (.piRedetect pl) s = .next (after (selByte 2#2 3#2 pl true))

/-- 42_preamble_inserter.md R283, R284, R289: PI.PRE and PI.PREL, selected in PREAMBLE by `PL`, produce the preamble symbol `pre_idx` with the pending symbol's
`AUX`; the first one is stamped with BURST_START and the most recent absolute-time tag; nothing is consumed. -/
def Obligations.PiPreambleResult : Prop :=
  encodedBy .pins 0x90#8 0xFE#8 (fun i => ∃ bs, i = .piPre bs) (fun s => s.pins.work.state = 1#2 ∧ condPl s = false) ∧
  encodedBy .pins 0x92#8 0xFE#8 (fun i => ∃ bs, i = .piPrel bs) (fun s => s.pins.work.state = 1#2 ∧ condPl s = true) ∧
  ∀ (bs : Bool) (s : State) (x : BurstSymbol) (rest : List BurstSymbol) (ys : List Cplx),
    s.pinsIn.items = x :: rest → s.pins.pre[s.pins.work.preIdx.toNat]? = some ys →
    ys.length = s.pins.cfg.fftLen.toNat →
    let w := s.pins.work
    let stamp : List Tag := if w.preIdx = 0#8 then
        ({ src := 2#8, key := 1#3, index := w.wr, value := 0#128 } : Tag) ::
          (match (tagQuery s.pinsIn.tags w.rd (w.rd + 1#64) 3#3).getLast? with
           | some t => [{ src := t.src, key := 3#3, index := w.wr, value := t.value }]
           | none => [])
      else []
    let after := fun (b : Byte) (i : Byte) (st : BitVec 2) => { s with
      pins := { s.pins with
        ctl := latched s.pins.ctl b
        work := { w with wr := w.wr + 1#64, preIdx := i, state := st } }
      pinsOut := { s.pinsOut with
        tags := s.pinsOut.tags ++ stamp
        items := s.pinsOut.items ++ [{ s := ys, aux := x.aux }]
        space := s.pinsOut.space.map (· - 1) } }
    exec (.piPre bs) s = .next (after (selByte 2#2 1#2 false bs) (w.preIdx + 1#8) 1#2) ∧
    exec (.piPrel bs) s = .next (after (selByte 2#2 1#2 true bs) (s.pins.cfg.nPre.setWidth 8) 2#2)

/-- 42_preamble_inserter.md R285, R286: PI.FIRST, selected in FIRST_PAYLOAD, and PI.COPY, selected in PAYLOAD on a symbol with `BS = 0`,
copy the symbol at `rd` with its own `AUX`; no tag is relayed. -/
def Obligations.PiCopyResult : Prop :=
  encodedBy .pins 0xA0#8 0xFC#8 (fun i => ∃ pl bs, i = .piFirst pl bs) (fun s => s.pins.work.state = 2#2) ∧
  encodedBy .pins 0xB0#8 0xFD#8 (fun i => ∃ pl, i = .piCopy pl) (fun s => s.pins.work.state = 3#2 ∧ condBs s = false) ∧
  ∀ (pl bs : Bool) (s : State) (x : BurstSymbol) (rest : List BurstSymbol),
    s.pinsIn.items = x :: rest → x.s.length = s.pins.cfg.fftLen.toNat →
    let after := fun (b : Byte) => { s with
      pins := { s.pins with
        ctl := latched s.pins.ctl b
        work := { s.pins.work with rd := s.pins.work.rd + 1#64, wr := s.pins.work.wr + 1#64, state := 3#2 } }
      pinsIn := { s.pinsIn with items := rest }
      pinsOut := { s.pinsOut with
        items := s.pinsOut.items ++ [{ s := x.s, aux := x.aux }]
        space := s.pinsOut.space.map (· - 1) } }
    exec (.piFirst pl bs) s = .next (after (selByte 2#2 2#2 pl bs)) ∧
    exec (.piCopy pl) s = .next (after (selByte 2#2 3#2 pl false))

/-- 42_preamble_inserter.md R291 (an inference the spec marks "derived"): every step keeps the preamble inserter's invariant. -/
def Obligations.StepKeepsPinsInvariant : Prop :=
  ∀ s t : State, PinsInv s → step s = .next t → PinsInv t

/-- 42_preamble_inserter.md R282 to R285, R288 to R290: from IDLE or PAYLOAD with a flagged symbol pending, `N_PRE + 2` steps of a running
PINS with room for `N_PRE + 1` symbols, or unlimited room, emit the whole preamble and then that symbol, all with its `AUX`, consume one
symbol and use up that much room, and attach the burst's tags to the first preamble symbol only. -/
def Obligations.PreambleThenPayload : Prop :=
  ∀ (s : State) (x : BurstSymbol) (rest : List BurstSymbol) (acts : List Action),
    PinsInv s → s.pins.ctl.en = true → s.pins.ctl.fault = false →
    (s.pins.work.state = 0#2 ∨ s.pins.work.state = 3#2) →
    s.pinsIn.items = x :: rest → x.bs = true → x.s.length = s.pins.cfg.fftLen.toNat →
    (∀ k, s.pinsOut.space = some k → s.pins.cfg.nPre.toNat + 1 ≤ k) →
    s.agenda = List.replicate (s.pins.cfg.nPre.toNat + 2) (.step .pins) ++ acts →
    ∃ t, Sys2Proof.core.run (s.pins.cfg.nPre.toNat + 2) s = .next t ∧
      t.agenda = acts ∧ t.pins.work.state = 3#2 ∧
      t.pins.work.rd = s.pins.work.rd + 1#64 ∧
      t.pins.work.wr = s.pins.work.wr + BitVec.ofNat 64 (s.pins.cfg.nPre.toNat + 1) ∧
      t.pinsIn = { s.pinsIn with items := rest } ∧
      t.pinsOut.items = s.pinsOut.items ++
        s.pins.pre.map (fun ys => ({ s := ys, aux := x.aux } : AuxSymbol)) ++ [{ s := x.s, aux := x.aux }] ∧
      t.pinsOut.tags = s.pinsOut.tags ++ stampTags s ∧
      t.pinsOut.space = s.pinsOut.space.map (· - (s.pins.cfg.nPre.toNat + 1))

/-! ## The cyclic prefixer -/

/-- 43_cyclic_prefixer.md R301 to R303: CP.SYM and CP.EOB, selected by `EOB`, send the last `OUT_SIZE - IN_SIZE` samples of the symbol and then the whole symbol,
relay every tag of the symbol to the first output sample, and CP.EOB marks the last output sample. -/
def Obligations.CpResult : Prop :=
  encodedBy .cpfx 0xC0#8 0xFF#8 (· = .cpSym) (fun s => condEob s = false) ∧
  encodedBy .cpfx 0xC1#8 0xFF#8 (· = .cpEob) (fun s => condEob s = true) ∧
  ∀ (s : State) (x : EobSymbol) (rest : List EobSymbol),
    s.cpfxIn.items = x :: rest → x.s.length = s.cpfx.cfg.inSize.toNat →
    s.cpfx.cfg.inSize.toNat ≤ s.cpfx.cfg.outSize.toNat →
    s.cpfx.cfg.outSize.toNat ≤ 2 * s.cpfx.cfg.inSize.toNat →
    let w := s.cpfx.work
    let out := s.cpfx.cfg.outSize.toNat
    let samples := x.s.drop (2 * x.s.length - out) ++ x.s
    let relayed := (s.cpfxIn.tags.filter fun t => t.index == w.rd).map fun t => { t with index := w.wr }
    let after := fun (b : Byte) (extra : List Tag) => { s with
      cpfx := { s.cpfx with
        ctl := latched s.cpfx.ctl b
        work := { rd := w.rd + 1#64, wr := w.wr + BitVec.ofNat 64 out } }
      cpfxIn := { s.cpfxIn with items := rest }
      cpfxOut := { s.cpfxOut with
        tags := s.cpfxOut.tags ++ (relayed ++ extra)
        items := s.cpfxOut.items ++ samples
        space := s.cpfxOut.space.map (· - out) } }
    exec .cpSym s = .next (after 0xC0#8 []) ∧
    exec .cpEob s = .next (after 0xC1#8
      [{ src := 3#8, key := 2#3, index := w.wr + BitVec.ofNat 64 out - 1#64, value := 0#128 }])

/-- 43_cyclic_prefixer.md R300, 10_state.md R45: every step keeps `wr = rd * OUT_SIZE` and a legal configuration. -/
def Obligations.StepKeepsCpfxInvariant : Prop :=
  ∀ s t : State, CpfxInv s → step s = .next t → CpfxInv t

/-! ## Tags and streams -/

/-- 44_tag_protocol.md R311: for indices that do not wrap, a query over the half-open range `[a, b)` is the sub-list, order kept, of the
tags of its key with `a <= index < b`, and the query of CPFX the same for every key; a tag at `K` is found by `[K, K+1)`, also at the last
index. -/
def Obligations.TagQueryIsHalfOpen : Prop :=
  ∀ (tags : List Tag) (a b : Dword) (key : BitVec 3), key ≠ 0#3 →
    (a ≤ b →
      tagQuery tags a b key = tags.filter (fun t => decide (t.key = key ∧ a ≤ t.index ∧ t.index < b)) ∧
      tagQueryAll tags a b = tags.filter (fun t => decide (a ≤ t.index ∧ t.index < b))) ∧
    ∀ t ∈ tags, t.key = key → t ∈ tagQuery tags t.index (t.index + 1#64) key

/-- 20_memory.md R102, R106; 44_tag_protocol.md R310, R316: while an engine is enabled, whatever step is taken, the tag lists of its ports and
the items it produced are only appended to. (That a hardware reset and a soft reset leave them is the model's reading, log 17 and 22.) -/
def Obligations.TagsAndOutputsOnlyGrow : Prop :=
  ∀ s t : State, step s = .next t →
    (s.samp.ctl.en = true → s.sampIn.tags <+: t.sampIn.tags ∧ outGrows s.sampOut t.sampOut) ∧
    (s.fsync.ctl.en = true → s.fsyncIn.tags <+: t.fsyncIn.tags) ∧
    (s.pins.ctl.en = true → s.pinsIn.tags <+: t.pinsIn.tags ∧ outGrows s.pinsOut t.pinsOut) ∧
    (s.cpfx.ctl.en = true → s.cpfxIn.tags <+: t.cpfxIn.tags ∧ outGrows s.cpfxOut t.cpfxOut)

/-- 20_memory.md R101, R102: every step keeps the output counters of enabled engines equal to the number of items produced. -/
def Obligations.StepKeepsStreamCounters : Prop :=
  ∀ s t : State, StreamInv s → step s = .next t → StreamInv t

/-- 20_memory.md R110, R131: a step leaves the queue as it is, appends one frame, or takes the oldest one. (That frames stay queued over a
hardware reset is the model's reading, log 17; taking from an empty queue changes nothing by log 12.) -/
def Obligations.MessageQueueIsFifo : Prop :=
  ∀ s t : State, step s = .next t →
    t.msgq = s.msgq ∨ (∃ f, t.msgq = s.msgq ++ [f]) ∨ (∃ f, s.msgq = f :: t.msgq)

/-- 20_memory.md R112: XFORM relays the next item of SAMP.OUT to FSYNC.IN with `SIG`, and of PINS.OUT to CPFX.IN with `AUX` arriving as
`EOB`, its tags before it at the same index, whatever it makes of the samples; without a next item nothing changes. The model's choices:
the samples are data of the action (log 13), a disabled consumer gets item and tags for its next run (log 9), the index is the upstream
one (log 26). -/
def Obligations.RelayKeepsFlagAndTags : Prop :=
  ∀ (s : State) (ys : List Cplx) (rest : List Action),
    (s.agenda = .relayRx ys :: rest →
      (∀ x, s.sampOut.items[s.sampOut.relayed]? = some x →
        let ts := s.sampOut.tags.filter (fun t => t.index == BitVec.ofNat 64 s.sampOut.relayed)
        let y : SigSymbol := { s := ys, sig := x.sig }
        step s = .next { s with
          agenda := rest
          fsyncIn := if s.fsync.ctl.en = true
            then { s.fsyncIn with tags := s.fsyncIn.tags ++ ts, items := s.fsyncIn.items ++ [y] }
            else { s.fsyncIn with stagedTags := s.fsyncIn.stagedTags ++ ts, staged := s.fsyncIn.staged ++ [y] }
          sampOut := { s.sampOut with relayed := s.sampOut.relayed + 1 } }) ∧
      (s.sampOut.items[s.sampOut.relayed]? = none → step s = .next { s with agenda := rest })) ∧
    (s.agenda = .relayTx ys :: rest →
      (∀ x, s.pinsOut.items[s.pinsOut.relayed]? = some x →
        let ts := s.pinsOut.tags.filter (fun t => t.index == BitVec.ofNat 64 s.pinsOut.relayed)
        let y : EobSymbol := { s := ys, eob := x.aux }
        step s = .next { s with
          agenda := rest
          cpfxIn := if s.cpfx.ctl.en = true
            then { s.cpfxIn with tags := s.cpfxIn.tags ++ ts, items := s.cpfxIn.items ++ [y] }
            else { s.cpfxIn with stagedTags := s.cpfxIn.stagedTags ++ ts, staged := s.cpfxIn.staged ++ [y] }
          pinsOut := { s.pinsOut with relayed := s.pinsOut.relayed + 1 } }) ∧
      (s.pinsOut.items[s.pinsOut.relayed]? = none → step s = .next { s with agenda := rest }))

/-! ## System operations, faults, interrupt -/

/-- 45_system_ops.md R336; 60_exceptions.md R368; 70_reset_and_hazards.md R391: SYS.SRST gives every common register and the working state
their reset values (the value parts of the tag latches and the unwritten taps by log 4 and 6) and keeps everything else. -/
def Obligations.SrstResult : Prop :=
  ∀ (e : Engine) (d : Word) (s : State), ∃ t, exec (.sysSrst e d) s = .next t ∧ onlyEngine e s t ∧ sameRegs e s t ∧
    t.ctlOf e = { en := false, cfgErr := false, fault := false, cfgWrIgn := false, faultCode := 0#8, faultInfo := 0#32,
                  cfgErrCode := 0#8, lastSel := 0#8, lastValid := false } ∧
    sameWork e State.reset t

/-- 45_system_ops.md R331, R332, R342, R343; 70_reset_and_hazards.md R392; 10_state.md R60, R66, R68 to R72: SYS.COMMIT. Refused, it records
the code and changes nothing else; accepted, it freezes registers, points, patterns and preamble, derives `MAP`, `NBITS`, `CP_LEN`, `CP`,
resets the working state, clears `LAST_SEL` and the error, keeps the fault record, enables the engine and starts its ports anew; while
`EN = 1` it changes nothing. A table word is the one written, where one was. (The model's own: a table word never written and the draw
counter, log 5; latch values at reset, log 4; where items offered before the commit go, log 9; what XFORM relays next, log 26.) -/
def Obligations.CommitResult : Prop :=
  ∀ (e : Engine) (d : Word) (s : State),
    (∀ a w, Memory.readWord s.mem a = some w → tableWord s a = w) ∧
    ((s.ctlOf e).en = true → exec (.sysCommit e d) s = .next s) ∧
    ((s.ctlOf e).en = false → validate s e ≠ 0#8 → exec (.sysCommit e d) s = .next
      { s.setCtl e { s.ctlOf e with cfgErr := true, cfgErrCode := validate s e } with draws := s.draws + 1 }) ∧
    ((s.ctlOf e).en = false → validate s e = 0#8 → ∃ t, exec (.sysCommit e d) s = .next t ∧
      t.ctlOf e = { s.ctlOf e with
        en := true, cfgErr := false, cfgErrCode := 0#8, lastSel := 0#8, lastValid := false } ∧
      sameWork e State.reset t ∧ t.mem = s.mem ∧ t.msgq = s.msgq ∧ t.qroom = s.qroom ∧ t.irqEnable = s.irqEnable ∧
      t.agenda = s.agenda ∧ t.rdata = s.rdata ∧ t.draws = s.draws + 1 ∧
      (∀ e', e' ≠ e → t.ctlOf e' = s.ctlOf e' ∧ sameRegs e' s t ∧ sameWork e' s t ∧ samePorts e' s t) ∧
      match e with
      | .samp => t.samp.reg = s.samp.reg ∧ t.samp.cfg = s.samp.reg ∧
          (sampCpLen t.samp).toNat + s.samp.reg.fftLen.toNat = s.samp.reg.symLen.toNat ∧
          t.sampIn = freshIn s.sampIn ∧ t.sampOut = freshOut s.sampOut
      | .fsync => t.fsync.reg = s.fsync.reg ∧ t.fsync.cfg = s.fsync.reg ∧
          t.fsync.map.map BitVec.toNat = (List.range s.fsync.reg.fftLen.toNat).filter (maskSet s) ∧
          2 ^ nBits t.fsync = s.fsync.reg.constNpoints.toNat ∧
          t.fsync.refs = (List.range s.fsync.reg.constNpoints.toNat).map (fun k =>
            { re := tableWord s (0x1400 + 4 * k), im := tableWord s (0x1800 + 4 * k) }) ∧
          t.fsync.vals = (List.range s.fsync.reg.constNpoints.toNat).map (fun k =>
            (tableWord s (0x1C00 + 4 * k)).extractLsb' 0 8) ∧
          t.fsyncIn = freshIn s.fsyncIn
      | .pins => t.pins.reg = s.pins.reg ∧ t.pins.cfg = s.pins.reg ∧
          t.pins.pre = (List.range s.pins.reg.nPre.toNat).map (fun k =>
            (List.range s.pins.reg.fftLen.toNat).map fun j =>
              { re := tableWord s (0x80000 + 8 * (k * 4096 + j)), im := tableWord s (0x80000 + 8 * (k * 4096 + j) + 4) }) ∧
          t.pinsIn = freshIn s.pinsIn ∧ t.pinsOut = freshOut s.pinsOut
      | .cpfx => t.cpfx.reg = s.cpfx.reg ∧ t.cpfx.cfg = s.cpfx.reg ∧
          cpfxCp t + s.cpfx.reg.inSize.toNat = s.cpfx.reg.outSize.toNat ∧
          t.cpfxIn = freshIn s.cpfxIn ∧ t.cpfxOut = freshOut s.cpfxOut)

/-- 45_system_ops.md R332, R340; 60_exceptions.md R362: a configuration is legal exactly when it passes every check of the table, and the
code of an illegal one is that of the first check that fails, in the table's order. -/
def Obligations.LegalConfigurations : Prop :=
  (∀ r : SampRegs, validateSamp r = 0#8 ↔
    1 ≤ r.fftLen.toNat ∧ r.fftLen.toNat ≤ 4096 ∧ r.fftLen.toNat ≤ r.symLen.toNat ∧ r.symLen.toNat ≤ 8192 ∧
    1 ≤ r.bandwidth.toNat) ∧
  (∀ (s : State) (r : FsyncRegs), validateFsync s r = 0#8 ↔
    1 ≤ r.fftLen.toNat ∧ r.fftLen.toNat ≤ 4096 ∧ 1 ≤ r.occCarriers.toNat ∧ r.occCarriers.toNat ≤ r.fftLen.toNat ∧
    (∃ n, 1 ≤ n ∧ n ≤ 8 ∧ r.constNpoints.toNat = 2 ^ n ∧ ∀ k < 2 ^ n, (tableVal s k).toNat < 2 ^ n) ∧
    r.constNvalues = r.constNpoints ∧
    (∀ i, r.fftLen.toNat ≤ i → i < 32 * ((r.fftLen.toNat + 31) / 32) → maskBit s i = false) ∧
    1 ≤ ((List.range r.fftLen.toNat).filter (maskBit s)).length ∧
    ((List.range r.fftLen.toNat).filter (maskBit s)).length ≤ r.occCarriers.toNat) ∧
  (∀ r : PinsRegs, validatePins r = 0#8 ↔
    1 ≤ r.fftLen.toNat ∧ r.fftLen.toNat ≤ 4096 ∧ 1 ≤ r.nPre.toNat ∧ r.nPre.toNat ≤ 16 ∧ r.preSymLen = r.fftLen) ∧
  (∀ r : CpfxRegs, validateCpfx r = 0#8 ↔
    1 ≤ r.inSize.toNat ∧ r.inSize.toNat ≤ 4096 ∧ r.inSize.toNat ≤ r.outSize.toNat ∧
    r.outSize.toNat ≤ 2 * r.inSize.toNat) ∧
  ∀ s : State,
    (let r := s.samp.reg
     firstFailing
      [ (r.fftLen.toNat = 0 ∨ 4096 < r.fftLen.toNat, 0x13#8),
        (r.symLen.toNat < r.fftLen.toNat ∨ 8192 < r.symLen.toNat, 0x14#8),
        (r.bandwidth.toNat = 0, 0x15#8) ] (validate s .samp)) ∧
    (let r := s.fsync.reg
     let n := r.constNpoints.toNat
     let active := ((List.range r.fftLen.toNat).filter (maskSet s)).length
     firstFailing
      [ (r.fftLen.toNat = 0 ∨ 4096 < r.fftLen.toNat, 0x13#8),
        (r.occCarriers.toNat = 0 ∨ r.fftLen.toNat < r.occCarriers.toNat, 0x1A#8),
        (n ∉ [2, 4, 8, 16, 32, 64, 128, 256], 0x16#8),
        (r.constNvalues ≠ r.constNpoints, 0x11#8),
        (∃ k < n, n ≤ ((tableWord s (0x1C00 + 4 * k)).extractLsb' 0 8).toNat, 0x17#8),
        (∃ i, r.fftLen.toNat ≤ i ∧ i < 32 * ((r.fftLen.toNat + 31) / 32) ∧ maskSet s i = true, 0x19#8),
        (active = 0, 0x18#8),
        (r.occCarriers.toNat < active, 0x12#8) ] (validate s .fsync)) ∧
    (let r := s.pins.reg
     firstFailing
      [ (r.fftLen.toNat = 0 ∨ 4096 < r.fftLen.toNat, 0x13#8),
        (r.nPre.toNat = 0 ∨ 16 < r.nPre.toNat, 0x1B#8),
        (r.preSymLen ≠ r.fftLen, 0x10#8) ] (validate s .pins)) ∧
    (let r := s.cpfx.reg
     firstFailing
      [ (r.inSize.toNat = 0 ∨ 4096 < r.inSize.toNat ∨ r.outSize.toNat < r.inSize.toNat ∨
          2 * r.inSize.toNat < r.outSize.toNat, 0x1C#8) ] (validate s .cpfx))

/-- 45_system_ops.md R335: SYS.STOP clears `EN` and changes nothing else; the engine then has no enabled step. -/
def Obligations.StopResult : Prop :=
  ∀ (e : Engine) (d : Word) (s : State), ∃ t, exec (.sysStop e d) s = .next t ∧ onlyEngine e s t ∧ sameRegs e s t ∧
    sameWork e s t ∧ t.ctlOf e = { s.ctlOf e with en := false } ∧ enabled t e = false

/-- 45_system_ops.md R337, 10_state.md R60 to R72, 20_memory.md R121: SYS.CFGWR of a disabled engine. The word reads back as written, less the
bits the register does not have; every other configuration word and every table word reads as before; no engine's common registers,
committed configuration or working state change. (The bits CONST_VAL drops: log 24.) -/
def Obligations.CfgWriteReadsBack : Prop :=
  ∀ (a : BusAddr) (d : Word) (s : State), (Instr.sysCfgwr a d).wf = true → a ≠ irqEnableAddr →
    (∀ c, cfgRegAt a = some c → (s.ctlOf c.owner).en = false) →
    (∀ k, tableAt a = some k → (s.ctlOf k.owner).en = false) →
    ∃ t, exec (.sysCfgwr a d) s = .next t ∧
      regRead t a = some (
        if a = 0x0013C#20 ∨ a = 0x0023C#20 then d &&& 1#32 else if tableAt a = some .constVal then d &&& 0xFF#32 else d) ∧
      (∀ b, b ≠ a → aligned b = true → regRead t b = regRead s b) ∧
      (∀ n, (n < a.toNat ∨ a.toNat + 3 < n) → Memory.read t.mem n = Memory.read s.mem n) ∧
      (∀ e, t.ctlOf e = s.ctlOf e ∧ sameWork e s t) ∧
      t.samp.cfg = s.samp.cfg ∧ t.fsync.cfg = s.fsync.cfg ∧ t.pins.cfg = s.pins.cfg ∧ t.cpfx.cfg = s.cpfx.cfg

/-- 45_system_ops.md R337, 10_state.md R55: SYS.CFGWR of an enabled engine sets `CFG_WR_IGN` and changes nothing else; `IRQ_ENABLE` takes its
four bits at any time (its name SYS.CFGWR is log 16). -/
def Obligations.CfgWriteWhileEnabled : Prop :=
  (∀ (a : BusAddr) (d : Word) (s : State) (e : Engine),
    ((∃ c, cfgRegAt a = some c ∧ c.owner = e) ∨ (cfgRegAt a = none ∧ ∃ k, tableAt a = some k ∧ k.owner = e)) →
    (s.ctlOf e).en = true →
    exec (.sysCfgwr a d) s = .next (s.setCtl e { s.ctlOf e with cfgWrIgn := true })) ∧
  (∀ (d : Word) (s : State),
    exec (.sysCfgwr 0x00010#20 d) s = .next { s with irqEnable := d.extractLsb' 0 4 })

/-- 45_system_ops.md R338: a write to STATUS with bit 7 is SYS.W1C, which clears `CFG_WR_IGN` and nothing else; without bit 7 the write
changes nothing. -/
def Obligations.W1cResult : Prop :=
  ∀ (e : Engine) (d : Word) (s : State),
    (d.getLsbD 7 = true → decodeBus (busWrite (baseOf e + 4#20) d) = .ok (.sysW1c e d)) ∧
    (∃ t, exec (.sysW1c e d) s = .next t ∧ onlyEngine e s t ∧ sameRegs e s t ∧ sameWork e s t ∧
      t.ctlOf e = { s.ctlOf e with cfgWrIgn := false }) ∧
    ∀ rest, s.agenda = .bus (busWrite (baseOf e + 4#20) d) :: rest → d.getLsbD 7 = false →
      step s = .next { s with agenda := rest }

/-- 45_system_ops.md R344; 10_state.md R54 to R70; 20_memory.md R122, R123: SYS.READ returns what the addressed register holds and has no side
effect. Each register holds the field the register tables name, a table word what was written, a tap below `N_ACT` its value and one
beyond it 0; every other address reads 0. Of an unspecified element it returns some word, and only the model's draw counter advances
(log 5); what HOST reads stands in `rdata` (log 20). -/
def Obligations.ReadHasNoSideEffect : Prop :=
  (∀ (a : BusAddr) (s : State),
    (∀ v, regRead s a = some v → exec (.sysRead a) s = .next { s with rdata := v }) ∧
    (regRead s a = none → ∃ v, exec (.sysRead a) s = .next { s with rdata := v, draws := s.draws + 1 })) ∧
  ∀ s : State,
    (∀ p ∈ registerFile s, regRead s p.1 = some p.2) ∧
    (∀ a k, aligned a = true → tableAt a = some k → regRead s a = Memory.readWord s.mem a.toNat) ∧
    (∀ i < 4096,
      (s.fsync.map.length ≤ i → regRead s (BitVec.ofNat 20 (0x8000 + 8 * i)) = some 0#32 ∧
        regRead s (BitVec.ofNat 20 (0x8004 + 8 * i)) = some 0#32) ∧
      (i < s.fsync.map.length → regRead s (BitVec.ofNat 20 (0x8000 + 8 * i)) = s.fsync.work.taps[i]?.map Cplx.re ∧
        regRead s (BitVec.ofNat 20 (0x8004 + 8 * i)) = s.fsync.work.taps[i]?.map Cplx.im)) ∧
    ∀ a : BusAddr, tableAt a = none → (a.toNat < 0x8000 ∨ 0x10000 ≤ a.toNat) → (∀ p ∈ registerFile s, p.1 ≠ a) →
      regRead s a = some 0#32

/-- 10_state.md R55, R56, R60 to R66, R80: after reset `ID`, `PARAMS0`, `PARAMS1` read their constants and every other register of the
global block and of the four banks reads 0 (WR of FSYNC by log 10); no engine is enabled and the interrupt line is low. -/
def Obligations.ResetValues : Prop :=
  regRead State.reset 0x00000#20 = some 0x4F464231#32 ∧ regRead State.reset 0x00004#20 = some 0x10201000#32 ∧
  regRead State.reset 0x00008#20 = some 0x04100FFF#32 ∧
  (∀ a : BusAddr, 0x0000C ≤ a.toNat → a.toNat < 0x500 → regRead State.reset a = some 0#32) ∧
  (∀ e, enabled State.reset e = false) ∧ irqLine State.reset = false

/-- 10_state.md R80: the reset state meets every invariant. -/
def Obligations.ResetMeetsInvariants : Prop := Inv State.reset

/-- 20_memory.md R134, 70_reset_and_hazards.md R400: whatever step is taken, the configuration of an engine that is enabled before and after it
does not change: registers, committed copy, derived tables, table memories. -/
def Obligations.ConfigurationFrozenWhileEnabled : Prop :=
  ∀ (e : Engine) (s t : State), step s = .next t → (s.ctlOf e).en = true → (t.ctlOf e).en = true → sameConfig e s t

/-- 60_exceptions.md R365, R366, R372: whatever step is taken, an engine that is enabled and faulted before it, and still faulted after it,
has kept its working state and its fault record. -/
def Obligations.FaultedEngineIsFrozen : Prop :=
  ∀ (e : Engine) (s t : State), step s = .next t → (s.ctlOf e).en = true → (s.ctlOf e).fault = true →
    (t.ctlOf e).fault = true →
    sameWork e s t ∧ (t.ctlOf e).faultCode = (s.ctlOf e).faultCode ∧ (t.ctlOf e).faultInfo = (s.ctlOf e).faultInfo ∧
    (t.ctlOf e).lastSel = (s.ctlOf e).lastSel

/-- 45_system_ops.md R331, R335: the only step that enables an engine is a write of `d[1:0] = 0b01` to its CTRL with a legal configuration,
and it leaves the working state at its reset values (of the latch values the spec leaves open, by log 4). -/
def Obligations.OnlyCommitEnables : Prop :=
  ∀ (e : Engine) (s t : State), step s = .next t → (s.ctlOf e).en = false → (t.ctlOf e).en = true →
    validate s e = 0#8 ∧ sameWork e State.reset t ∧
    ∃ d rest, s.agenda = .bus (busWrite (baseOf e) d) :: rest ∧ d.getLsbD 0 = true ∧ d.getLsbD 1 = false

/-- 10_state.md R40, 60_exceptions.md R378: a step of one engine leaves the other engines, the configuration memories and the interrupt enable
as they are. -/
def Obligations.EngineStepTouchesOwnStateOnly : Prop :=
  ∀ (e : Engine) (s t : State) (rest : List Action), s.agenda = .step e :: rest → step s = .next t →
    t.mem = s.mem ∧ t.irqEnable = s.irqEnable ∧ t.agenda = rest ∧ t.rdata = s.rdata ∧ t.draws = s.draws ∧
    (∀ e', e' ≠ e → t.ctlOf e' = s.ctlOf e' ∧ sameRegs e' s t ∧ sameWork e' s t) ∧
    (e ≠ .samp → t.sampIn = s.sampIn ∧ t.sampOut = s.sampOut) ∧
    (e ≠ .fsync → t.fsyncIn = s.fsyncIn ∧ t.msgq = s.msgq ∧ t.qroom = s.qroom) ∧
    (e ≠ .pins → t.pinsIn = s.pinsIn ∧ t.pinsOut = s.pinsOut) ∧
    (e ≠ .cpfx → t.cpfxIn = s.cpfxIn ∧ t.cpfxOut = s.cpfxOut)

/-- 10_state.md R40: an engine's step depends on its own state and ports alone: two states that agree on them still agree on them after
the step, whatever the rest holds, and FSYNC enqueues the same frames in both. -/
def Obligations.EngineStepsDoNotInterfere : Prop :=
  ∀ (e : Engine) (s s' t t' : State) (r r' : List Action), s.agenda = .step e :: r → s'.agenda = .step e :: r' →
    agreeFor e s s' → step s = .next t → step s' = .next t' →
    agreeFor e t t' ∧ (e = .fsync → ∃ fs, t.msgq = s.msgq ++ fs ∧ t'.msgq = s'.msgq ++ fs)

/-- 60_exceptions.md R370: bit `e` of IRQ_STATUS is `FAULT or CFG_ERR` of engine `e`, the interrupt line is high exactly when some engine
has both its enable bit and its status bit set, and IRQ_ENABLE resets to 0, so the line is low out of reset. -/
def Obligations.InterruptLine : Prop :=
  (∀ s : State,
    (∀ e : Engine, (irqStatus s).getLsbD (engineNum e).toNat = ((s.ctlOf e).fault || (s.ctlOf e).cfgErr)) ∧
    (irqLine s = true ↔ ∃ e : Engine, s.irqEnable.getLsbD (engineNum e).toNat = true ∧
      (irqStatus s).getLsbD (engineNum e).toNat = true)) ∧
  State.reset.irqEnable = 0#4 ∧ irqLine State.reset = false

/-- 70_reset_and_hazards.md R390, 10_state.md R80: the reset input gives the block its reset values; streams, queue and agenda are the
environment's and stay (log 17); the latch values and committed copies, which the spec leaves open, are those of `State.reset` (log 4). -/
def Obligations.HardwareResetResult : Prop :=
  ∀ (s : State) (rest : List Action), s.agenda = .hwReset :: rest →
    step s = .next { State.reset with
      sampIn := s.sampIn, sampOut := s.sampOut, fsyncIn := s.fsyncIn, pinsIn := s.pinsIn, pinsOut := s.pinsOut,
      cpfxIn := s.cpfxIn, cpfxOut := s.cpfxOut, msgq := s.msgq, qroom := s.qroom, agenda := rest, rdata := s.rdata,
      draws := s.draws }

/-- 10_state.md R68 to R72, 20_memory.md R123: every step keeps the table memories in canonical form and inside their windows. -/
def Obligations.StepKeepsMemoryForm : Prop :=
  ∀ s t : State, MemInv s → step s = .next t → MemInv t

/-- 10_state.md R47, 41_frame_sync.md R260, 60_exceptions.md R361: from states that meet the invariants, no step records a fault the spec calls
unreachable: an illegal state, a header overrun, a payload overrun, any fault of PINS or CPFX. -/
def Obligations.InternalFaultsAreUnreachable : Prop :=
  ∀ s t : State, SampInv s → FsyncInv s → NoInternalFault s → step s = .next t → NoInternalFault t
end

