-- ==== Sys2Proof/Laws/Memory.lean ====
section
/-! SUPPORT. Byte cells: reading what was written, and the canonical form. -/

namespace Sys2Proof.Laws

open Sys2Proof.Machine

/-- A byte just written is read back; every other byte is as before. -/
theorem read_write (m : List Host.Cell) (x y : Nat) (v : Byte) :
    Memory.read (Memory.write m x v) y = if y = x then some v else Memory.read m y := by
  induction m with
  | nil => by_cases h : y = x <;> simp [Memory.write, Memory.read, h]
  | cons c m ih =>
    obtain ⟨a, u⟩ := c
    simp only [Memory.write]
    split
    · by_cases h : y = x <;> simp [Memory.read, h]
    · split
      · rename_i h; subst h
        by_cases h : y = x <;> simp [Memory.read, h]
      · rename_i h1 h2
        by_cases h : y = a
        · subst h; simp [Memory.read, Ne.symm h2]
        · simp [Memory.read, h, ih]

@[simp] theorem read_write_self (m : List Host.Cell) (x : Nat) (v : Byte) :
    Memory.read (Memory.write m x v) x = some v := by simp [read_write]

theorem read_write_ne (m : List Host.Cell) {x y : Nat} (v : Byte) (h : y ≠ x) :
    Memory.read (Memory.write m x v) y = Memory.read m y := by simp [read_write, h]

/-- The canonical form, said of the first entry and the rest. -/
theorem wf_cons (c : Host.Cell) (m : List Host.Cell) :
    Memory.wf (c :: m) = true ↔ (∀ d ∈ m.head?, c.1 < d.1) ∧ Memory.wf m = true := by
  cases m with
  | nil => simp [Memory.wf]
  | cons d m => simp [Memory.wf]

/-- The first address after a write is the written one or the old first one. -/
theorem head_write (m : List Host.Cell) (x : Nat) (v : Byte) (b : Nat) (hx : b < x)
    (h : ∀ d ∈ m.head?, b < d.1) : ∀ d ∈ (Memory.write m x v).head?, b < d.1 := by
  cases m with
  | nil => simp [Memory.write, hx]
  | cons c m =>
    obtain ⟨a, u⟩ := c
    have ha : b < a := h (a, u) (by simp)
    simp only [Memory.write]
    split
    · simp [hx]
    · split <;> simp [hx, ha]

/-- A write keeps the canonical form. -/
theorem wf_write (m : List Host.Cell) (x : Nat) (v : Byte) (h : Memory.wf m = true) :
    Memory.wf (Memory.write m x v) = true := by
  induction m with
  | nil => simp [Memory.write, Memory.wf]
  | cons c m ih =>
    obtain ⟨a, u⟩ := c
    rw [wf_cons] at h
    simp only [Memory.write]
    split
    · rw [wf_cons, wf_cons]; exact ⟨by simpa, h⟩
    · split
      · rename_i hx; subst hx; rw [wf_cons]; exact h
      · rw [wf_cons]
        exact ⟨head_write m x v a (by omega) h.1, ih h.2⟩

/-- The entries after a write are old ones or the written one. -/
theorem mem_write (m : List Host.Cell) (x : Nat) (v : Byte) (c : Host.Cell)
    (h : c ∈ Memory.write m x v) : c = (x, v) ∨ c ∈ m := by
  induction m with
  | nil => simpa [Memory.write] using h
  | cons d m ih =>
    obtain ⟨a, u⟩ := d
    simp only [Memory.write] at h
    split at h
    · simpa using h
    · split at h
      · rcases List.mem_cons.1 h with h | h
        · exact .inl h
        · exact .inr (List.mem_cons_of_mem _ h)
      · rcases List.mem_cons.1 h with h | h
        · exact .inr (h ▸ List.mem_cons_self)
        · exact (ih h).imp id (List.mem_cons_of_mem _)

/-- A word write keeps the canonical form. -/
theorem wf_writeWord (m : List Host.Cell) (a : Nat) (d : Word) (h : Memory.wf m = true) :
    Memory.wf (Memory.writeWord m a d) = true :=
  wf_write _ _ _ (wf_write _ _ _ (wf_write _ _ _ (wf_write _ _ _ h)))

/-- The entries after a word write are old ones or lie in the written word. -/
theorem mem_writeWord (m : List Host.Cell) (a : Nat) (d : Word) (c : Host.Cell)
    (h : c ∈ Memory.writeWord m a d) : (a ≤ c.1 ∧ c.1 ≤ a + 3) ∨ c ∈ m := by
  unfold Memory.writeWord at h
  rcases mem_write _ _ _ _ h with rfl | h
  · left; simp
  · rcases mem_write _ _ _ _ h with rfl | h
    · left; simp
    · rcases mem_write _ _ _ _ h with rfl | h
      · left; simp
      · rcases mem_write _ _ _ _ h with rfl | h
        · left; simp
        · exact .inr h

/-- The bytes of a word, put together again. -/
theorem word_bytes (d : Word) :
    d.extractLsb' 24 8 ++ d.extractLsb' 16 8 ++ d.extractLsb' 8 8 ++ d.extractLsb' 0 8 = d := by
  apply BitVec.eq_of_getLsbD_eq
  intro i hi
  simp only [BitVec.getLsbD_append, BitVec.getLsbD_extractLsb']
  split
  · rename_i h; simp [h]
  · split
    · rename_i h1 h2; rw [show 8 + (i - 8) = i by omega]; simp [show i - 8 < 8 by omega]
    · split
      · rename_i h1 h2 h3; rw [show 16 + (i - 8 - 8) = i by omega]; simp [show i - 8 - 8 < 8 by omega]
      · rename_i h1 h2 h3; rw [show 24 + (i - 8 - 8 - 8) = i by omega]; simp [show i - 8 - 8 - 8 < 8 by omega]

/-- A word just written is read back. -/
theorem readWord_writeWord_self (m : List Host.Cell) (a : Nat) (d : Word) :
    Memory.readWord (Memory.writeWord m a d) a = some d := by
  simp [Memory.readWord, Memory.writeWord, read_write, word_bytes]

/-- A word that shares no byte with the written one is as before. -/
theorem readWord_writeWord_ne (m : List Host.Cell) (a b : Nat) (d : Word) (h : b + 3 < a ∨ a + 3 < b) :
    Memory.readWord (Memory.writeWord m a d) b = Memory.readWord m b := by
  have e : ∀ i, i < 4 → Memory.read (Memory.writeWord m a d) (b + i) = Memory.read m (b + i) := by
    intro i hi
    unfold Memory.writeWord
    rw [read_write_ne _ _ (by omega), read_write_ne _ _ (by omega), read_write_ne _ _ (by omega),
      read_write_ne _ _ (by omega)]
  have e0 := e 0 (by omega)
  simp only [Nat.add_zero] at e0
  simp only [Memory.readWord, e0, e 1 (by omega), e 2 (by omega), e 3 (by omega)]

end Sys2Proof.Laws
end

