-- ==== Sys2Proof/Laws/Select.lean ====
section
/-! SUPPORT. What the decoder reads from the selector of each engine, from each bus access, and how an engine step ends. -/

namespace Sys2Proof.Laws

open Sys2Proof.Machine

/-! ## Selectors (30_encoding.md R162, R165) -/

/-- The operation SAMP selects. -/
theorem decodeSel_samp (st : BitVec 2) (l t : Bool) :
    decodeSel (selByte 0#2 st l t) =
      if st = 0#2 then .ok (if t then .saAcq l else .saScan l)
      else if st = 2#2 then .ok (if t then .saReacq l else if l then .saLast else .saSym)
      else .error (.illegalState st) := by
  revert st l t; decide

/-- The operation FSYNC selects. -/
theorem decodeSel_fsync (st : BitVec 2) (sig : Bool) :
    decodeSel (selByte 1#2 st false sig) =
      if st = 0#2 then .ok (if sig then .fsAcq else .fsIdle)
      else if st = 1#2 then .ok (.fsHdr sig)
      else if st = 2#2 then .ok (.fsPay sig)
      else .error (.illegalState st) := by
  revert st sig; decide

/-- The operation PINS selects. -/
theorem decodeSel_pins (st : BitVec 2) (pl bs : Bool) :
    decodeSel (selByte 2#2 st pl bs) = .ok
      (if st = 0#2 then (if bs then .piDetect pl else .piDrop pl)
       else if st = 1#2 then (if pl then .piPrel bs else .piPre bs)
       else if st = 2#2 then .piFirst pl bs
       else if bs then .piRedetect pl else .piCopy pl) := by
  revert st pl bs; decide

/-- The operation CPFX selects. -/
theorem decodeSel_cpfx (eob : Bool) :
    decodeSel (selByte 3#2 0#2 false eob) = .ok (if eob then .cpEob else .cpSym) := by
  revert eob; decide

/-! ## Bus accesses (30_encoding.md R168) -/

/-- An access that decodes is one of the six system operations, at the address the operation names. -/
theorem decodeBus_cases {acc : BusAccess} {i : Instr} (h : decodeBus acc = .ok i) :
    acc.width = .word ∧ aligned acc.addr = true ∧
    ((acc.op = .read ∧ i = .sysRead acc.addr) ∨
     (∃ e d, acc = busWrite (baseOf e) d ∧ d.getLsbD 1 = true ∧ i = .sysSrst e d) ∨
     (∃ e d, acc = busWrite (baseOf e) d ∧ d.getLsbD 1 = false ∧ d.getLsbD 0 = true ∧ i = .sysCommit e d) ∨
     (∃ e d, acc = busWrite (baseOf e) d ∧ d.getLsbD 1 = false ∧ d.getLsbD 0 = false ∧ i = .sysStop e d) ∨
     (∃ e d, acc = busWrite (baseOf e + 4#20) d ∧ d.getLsbD 7 = true ∧ i = .sysW1c e d) ∨
     (∃ d, acc.op = .write d ∧ isCfgWord acc.addr = true ∧ i = .sysCfgwr acc.addr d)) := by
  obtain ⟨op, addr, width⟩ := acc
  simp only [decodeBus] at h
  split at h
  · cases h
  · rename_i hw
    simp only [not_or, Bool.not_eq_false, ne_eq, not_not] at hw
    obtain ⟨rfl, ha⟩ := hw
    refine ⟨rfl, ha, ?_⟩
    cases op with
    | read => simp only [Except.ok.injEq] at h; exact .inl ⟨rfl, h.symm⟩
    | write d =>
      have key : ∀ e, ctrlAt addr = some e → addr = baseOf e := by
        intro e he; unfold ctrlAt at he
        repeat' split at he
        all_goals first | (cases he; assumption) | cases he
      have key2 : ∀ e, statusAt addr = some e → addr = baseOf e + 4#20 := by
        intro e he; unfold statusAt at he
        repeat' split at he
        all_goals first | (cases he; assumption) | cases he
      simp only at h
      split at h
      · rename_i e he
        have := key e he; subst this
        split at h
        · cases h; exact .inr (.inl ⟨e, d, rfl, ‹_›, rfl⟩)
        · split at h
          · cases h; exact .inr (.inr (.inl ⟨e, d, rfl, by simpa using ‹¬ d.getLsbD 1 = true›, ‹_›, rfl⟩))
          · cases h
            exact .inr (.inr (.inr (.inl ⟨e, d, rfl, by simpa using ‹¬ d.getLsbD 1 = true›,
              by simpa using ‹¬ d.getLsbD 0 = true›, rfl⟩)))
      · split at h
        · rename_i e he
          have := key2 e he; subst this
          split at h
          · cases h; exact .inr (.inr (.inr (.inr (.inl ⟨e, d, rfl, ‹_›, rfl⟩))))
          · cases h
        · split at h
          · cases h; exact .inr (.inr (.inr (.inr (.inr ⟨d, rfl, ‹_›, rfl⟩))))
          · cases h

/-! ## The end of an engine step (60_exceptions.md R364, R367) -/

/-- A completed step latches its selector. -/
@[simp] theorem endStep_ok (s : State) (e : Engine) (b : Byte) (t : State) :
    endStep s e b (.ok t) = .next (latchSel t e b) := rfl

/-- A faulting step is a fault entry from the state before it. -/
@[simp] theorem endStep_error (s : State) (e : Engine) (b : Byte) (f : HwFault) :
    endStep s e b (.error f) = .next (faultEntry s e b f) := rfl

/-- All an engine step can end in. -/
theorem endStep_cases {s t : State} {e : Engine} {b : Byte} {r : Except HwFault State}
    (h : endStep s e b r = .next t) :
    (∃ u, r = .ok u ∧ t = latchSel u e b) ∨ (∃ f, r = .error f ∧ t = faultEntry s e b f) := by
  cases r with
  | ok u => simp only [endStep_ok, Host.Outcome.next.injEq] at h; exact .inl ⟨u, rfl, h.symm⟩
  | error f => simp only [endStep_error, Host.Outcome.next.injEq] at h; exact .inr ⟨f, rfl, h.symm⟩

/-- Whether an engine is enabled does not depend on the agenda. -/
@[simp] theorem enabled_agenda (s : State) (l : List Action) (e : Engine) :
    enabled { s with agenda := l } e = enabled s e := by cases e <;> rfl

/-- Nor does its selector. -/
@[simp] theorem selector_agenda (s : State) (l : List Action) (e : Engine) :
    selector { s with agenda := l } e = selector s e := by cases e <;> rfl

/-- An enabled engine is running. -/
theorem running_of_enabled {s : State} {e : Engine} (h : enabled s e = true) :
    (s.ctlOf e).en = true ∧ (s.ctlOf e).fault = false := by
  simp only [enabled, Bool.and_eq_true, Ctl.running, Bool.not_eq_true'] at h
  exact h.1

/-- What an engine step can be: held; the operation the selector decodes to; or the fault of a reserved state. -/
theorem engineStep_cases {s t : State} {e : Engine} (h : engineStep s e = .next t) :
    (enabled s e = false ∧ t = s) ∨
    (enabled s e = true ∧ ∃ i, decodeSel (selector s e) = .ok i ∧ exec i s = .next t) ∨
    (enabled s e = true ∧ ∃ st, decodeSel (selector s e) = .error (.illegalState st) ∧
      t = faultEntry s e (selector s e) (faultIllegalState st)) := by
  unfold engineStep at h
  split at h
  · rename_i he
    split at h
    · rename_i i hi; exact .inr (.inl ⟨he, i, hi, h⟩)
    · rename_i st hi
      simp only [Host.Outcome.next.injEq] at h
      exact .inr (.inr ⟨he, st, hi, h.symm⟩)
    · cases h
  · rename_i he
    simp only [Host.Outcome.next.injEq] at h
    exact .inl ⟨by simpa using he, h.symm⟩

/-- What a step can be: nothing on the agenda, or the first action of it. -/
theorem step_cases {s t : State} (h : step s = .next t) :
    (s.agenda = [] ∧ t = s) ∨
    (∃ a rest, s.agenda = a :: rest ∧ perform { s with agenda := rest } a = .next t) := by
  unfold step at h
  split at h
  · rename_i ha; simp only [Host.Outcome.next.injEq] at h; exact .inl ⟨ha, h.symm⟩
  · rename_i a rest ha; exact .inr ⟨a, rest, ha, h⟩

end Sys2Proof.Laws
end

