-- ==== Sys2Proof/Laws/Bus.lean ====
section
/-! SUPPORT. All a bus access can do, and what alignment is. -/

namespace Sys2Proof.Laws

open Sys2Proof.Machine

/-- An aligned address is a multiple of 4 (20_memory.md R122). -/
theorem aligned_iff {a : BusAddr} : aligned a = true ↔ a.toNat % 4 = 0 := by
  have e : a.toNat &&& 3 = a.toNat % 4 := Nat.and_two_pow_sub_one_eq_mod a.toNat 2
  simp only [aligned, beq_iff_eq]
  constructor
  · intro h
    have := congrArg BitVec.toNat h
    rw [BitVec.toNat_and] at this
    simp at this
    omega
  · intro h
    apply BitVec.eq_of_toNat_eq
    rw [BitVec.toNat_and]
    simp
    omega

/-- All a bus access can do: nothing but the returned word; one of the writes to CTRL and STATUS; a configuration write ignored or
performed; a write of the interrupt enable. -/
theorem busStep_cases {s t : State} {acc : BusAccess} (h : busStep s acc = .next t) :
    (t = idleAccess s acc) ∨
    (∃ e d, acc = busWrite (baseOf e) d ∧ d.getLsbD 1 = true ∧ t = softReset s e) ∨
    (∃ e d, acc = busWrite (baseOf e) d ∧ d.getLsbD 1 = false ∧ d.getLsbD 0 = true ∧
      t = if (s.ctlOf e).en then s else commit s e) ∨
    (∃ e, t = s.setCtl e { s.ctlOf e with en := false }) ∨
    (∃ e, t = s.setCtl e { s.ctlOf e with cfgWrIgn := false }) ∨
    (∃ v n, t = { s with rdata := v, draws := n }) ∨
    (∃ e, (s.ctlOf e).en = true ∧ t = s.setCtl e { s.ctlOf e with cfgWrIgn := true }) ∨
    (∃ c d, (s.ctlOf c.owner).en = false ∧ t = setCfgReg s c d) ∨
    (∃ (k : Table) (a : BusAddr) (d : Word), tableAt a = some k ∧ aligned a = true ∧
      (s.ctlOf k.owner).en = false ∧ t = { s with mem := Memory.writeWord s.mem a.toNat d }) ∨
    (∃ v, t = { s with irqEnable := v }) := by
  unfold busStep at h
  split at h
  · rename_i i hi
    obtain ⟨hw, ha, h1 | ⟨e, d, h1, h2, rfl⟩ | ⟨e, d, h1, h2, h3, rfl⟩ | ⟨e, d, h1, h2, h3, rfl⟩ |
      ⟨e, d, h1, h2, rfl⟩ | ⟨d, h1, h2, rfl⟩⟩ := decodeBus_cases hi
    · obtain ⟨-, rfl⟩ := h1
      simp only [exec, execSysRead, Host.Outcome.next.injEq] at h
      split at h
      · exact .inr (.inr (.inr (.inr (.inr (.inl ⟨_, s.draws, h.symm⟩)))))
      · exact .inr (.inr (.inr (.inr (.inr (.inl ⟨_, _, h.symm⟩)))))
    · simp only [exec, execSysSrst, Host.Outcome.next.injEq] at h
      exact .inr (.inl ⟨e, d, h1, h2, h.symm⟩)
    · simp only [exec, execSysCommit, Host.Outcome.next.injEq] at h
      exact .inr (.inr (.inl ⟨e, d, h1, h2, h3, h.symm⟩))
    · simp only [exec, execSysStop, Host.Outcome.next.injEq] at h
      exact .inr (.inr (.inr (.inl ⟨e, h.symm⟩)))
    · simp only [exec, execSysW1c, Host.Outcome.next.injEq] at h
      exact .inr (.inr (.inr (.inr (.inl ⟨e, h.symm⟩))))
    · simp only [exec, execSysCfgwr, Host.Outcome.next.injEq] at h
      split at h
      · rename_i c hc
        unfold guardedWrite at h
        split at h
        · exact .inr (.inr (.inr (.inr (.inr (.inr (.inl ⟨_, ‹_›, h.symm⟩))))))
        · exact .inr (.inr (.inr (.inr (.inr (.inr (.inr (.inl
            ⟨c, d, by rename_i hne; simpa using hne, h.symm⟩)))))))
      · split at h
        · rename_i k hk
          unfold guardedWrite at h
          split at h
          · exact .inr (.inr (.inr (.inr (.inr (.inr (.inl ⟨_, ‹_›, h.symm⟩))))))
          · exact .inr (.inr (.inr (.inr (.inr (.inr (.inr (.inr (.inl
              ⟨k, _, _, hk, ha, by rename_i hne; simpa using hne, h.symm⟩))))))))
        · split at h
          · exact .inr (.inr (.inr (.inr (.inr (.inr (.inr (.inr (.inr ⟨_, h.symm⟩))))))))
          · exact .inr (.inr (.inr (.inr (.inr (.inr (.inr (.inr (.inr ⟨s.irqEnable, h.symm⟩))))))))
  · simp only [Host.Outcome.next.injEq] at h
    exact .inl h.symm

end Sys2Proof.Laws
end

