-- ==== Sys2Proof/Laws/Ops.lean ====
section
/-! SUPPORT. What the shared operations of the engines do: tag queries, samples out of items, the scan, tag ingestion, the packer, the
payload store, the header loop, the end of a demodulating step, narrowing to a component, the two ends of a commit. -/

namespace Sys2Proof.Laws

open Sys2Proof.Machine

/-! ## The reset state -/

/-- The table memories of the reset state are in canonical form. -/
theorem reset_mem_wf : Memory.wf State.reset.mem = true := rfl

/-- So is its payload memory. -/
theorem reset_pkt_wf : Memory.wf State.reset.fsync.work.pkt = true := rfl

/-! ## Components (00_scope.md R20, R21) -/

/-- Saturation lands in the range of a component. -/
theorem sat_range (v : Int) : -2147483648 ≤ sat v ∧ sat v ≤ 2147483647 := by
  unfold sat Config.smin Config.smax
  split
  · omega
  · split <;> omega

/-- Narrowing to a component keeps the saturated integer. -/
@[simp] theorem satWord_toInt (v : Int) : (satWord v).toInt = sat v := by
  have := sat_range v
  rw [satWord, BitVec.toInt_ofInt]
  exact Int.bmod_eq_of_le (by omega) (by omega)

/-- The shift by `F` is the floor of the division by `2^F`. -/
theorem shiftRight_fracBits (v : Int) : v >>> Config.fracBits = v / 65536 := by
  rw [Int.shiftRight_eq_div_pow]
  rfl

/-! ## Commit (45_system_ops.md R331) -/

/-- A commit with a legal configuration. -/
theorem commit_of_legal {s : State} {e : Engine} (h : validate s e = 0#8) :
    commit s e = { commitAccepted s e with draws := s.draws + 1 } := by
  unfold commit
  rw [if_pos h]

/-- A commit with an illegal one. -/
theorem commit_of_illegal {s : State} {e : Engine} (h : validate s e ≠ 0#8) :
    commit s e = { commitRefused s e (validate s e) with draws := s.draws + 1 } := by
  unfold commit
  rw [if_neg h]

/-- A table word that was written is what a commit reads (70_reset_and_hazards.md R395). -/
theorem tableWord_of_written {s : State} {a : Nat} {w : Word} (h : Memory.readWord s.mem a = some w) : tableWord s a = w := by
  simp [tableWord, h]

/-! ## Tag queries (44_tag_protocol.md R311, R312) -/

/-- A range that does not wrap is the plain half-open range. -/
theorem inRange_iff {a b i : Dword} (h : a ≤ b) : inRange a b i = true ↔ a ≤ i ∧ i < b := by
  simp only [inRange, decide_eq_true_eq, BitVec.lt_def, BitVec.le_def, BitVec.toNat_sub] at *
  have := a.isLt
  have := b.isLt
  have := i.isLt
  omega

/-- The range of one item holds that item's index only. -/
theorem inRange_one (a i : Dword) : inRange a (a + 1#64) i = true ↔ i = a := by
  simp only [inRange, decide_eq_true_eq]
  rw [BitVec.add_comm, BitVec.add_sub_cancel]
  constructor
  · intro h
    have h0 : i - a = 0#64 := by
      apply BitVec.eq_of_toNat_eq
      simp only [BitVec.lt_def] at h
      simp at h ⊢
      omega
    simpa using congrArg (· + a) h0
  · rintro rfl
    simp

/-- A tag a query finds stands in the list, has the key and lies in the range. -/
theorem mem_tagQuery {tags : List Tag} {a b : Dword} {key : BitVec 3} {t : Tag} :
    t ∈ tagQuery tags a b key ↔ t ∈ tags ∧ t.key = key ∧ key ≠ 0#3 ∧ inRange a b t.index = true := by
  simp only [tagQuery, List.mem_filter, Bool.and_eq_true, beq_iff_eq, Bool.not_eq_true', beq_eq_false_iff_ne, and_assoc]

/-! ## Samples out of items -/

/-- An item of the right size is read whole. -/
theorem itemSamples_eq (p : Nat) (idx : Dword) (xs : List Cplx) (n : Nat) (h : xs.length = n) :
    itemSamples p idx xs n = xs := by
  apply List.ext_getElem?
  intro i
  unfold itemSamples
  by_cases hn : i < n
  · simp only [List.getElem?_map, List.getElem?_range hn, Option.map_some, itemSample]
    rw [List.getElem?_eq_getElem (by omega)]
    simp
  · rw [List.getElem?_eq_none (by simp; omega), List.getElem?_eq_none (by omega)]

/-- A preamble symbol inside the committed memory is the committed one. -/
theorem preambleSymbol_eq (s : State) (k : Nat) (ys : List Cplx) (h : s.pins.pre[k]? = some ys)
    (hl : ys.length = s.pins.cfg.fftLen.toNat) : preambleSymbol s k = ys := by
  apply List.ext_getElem?
  intro n
  unfold preambleSymbol
  by_cases hn : n < s.pins.cfg.fftLen.toNat
  · simp only [List.getElem?_map, List.getElem?_range hn, Option.map_some, h, Option.getD_some]
    rw [List.getElem?_eq_getElem (by omega)]
    simp
  · rw [List.getElem?_eq_none (by simp; omega), List.getElem?_eq_none (by omega)]

/-- The sampler's symbol is a slice of the offered samples, when they are there. -/
theorem sampSymbol_eq (s : State) (c : Nat) (h : sampFft s + c ≤ s.sampIn.items.length) :
    sampSymbol s c = ((s.sampIn.items.drop c).take (sampFft s)).map fun x => x.s := by
  apply List.ext_getElem?
  intro n
  unfold sampSymbol
  by_cases hn : n < sampFft s
  · simp only [List.getElem?_map, List.getElem?_range hn, List.getElem?_take, if_pos hn, List.getElem?_drop,
      Option.map_some]
    rw [List.getElem?_eq_getElem (by omega)]
    simp
  · rw [List.getElem?_eq_none (by simp; omega), List.getElem?_eq_none (by simp; omega)]

/-- The first trigger of the scan region is where the scan finds it. -/
theorem scanOffset_eq (s : State) (k : Nat) (x : SampleItem) (hl : sampFft s + sampSym s ≤ s.sampIn.items.length)
    (hk : k < sampSym s) (hx : s.sampIn.items[sampFft s + k]? = some x) (ht : x.trig = true)
    (hf : ∀ j < k, ∀ y, s.sampIn.items[sampFft s + j]? = some y → y.trig = false) : scanOffset s = some k := by
  unfold scanOffset
  rw [List.findIdx?_eq_some_iff_getElem]
  have hk2 : k < ((s.sampIn.items.drop (sampFft s)).take (sampSym s)).length := by simp; omega
  refine ⟨hk2, ?_, ?_⟩
  · have : ((s.sampIn.items.drop (sampFft s)).take (sampSym s))[k]? = some x := by
      rw [List.getElem?_take, if_pos hk, List.getElem?_drop, hx]
    rw [List.getElem?_eq_getElem hk2] at this
    cases this
    exact ht
  · intro j hj
    rw [List.getElem_take, List.getElem_drop, hf j hj _ (by rw [List.getElem?_eq_getElem])]
    simp

/-! ## Tag ingestion of the sampler (40_sampler.md R205, R206) -/

/-- The CFO half touches its three latches only. -/
theorem ingestCfo_frame (s : State) (c : Nat) (w : SampWork) :
    ∃ v n b, ingestCfo s c w = { w with cfoValid := v, cfoVal := n, cfoSrc := b } := by
  unfold ingestCfo
  split <;> exact ⟨_, _, _, rfl⟩

/-- Ingestion touches the time latches, the CFO latches and the drop counter only, and an accepted time tag has index 0. -/
theorem sampIngest_frame {s : State} {c : Nat} {w : SampWork} (h : sampIngest s c = .ok w) :
    (∃ v a b i d cv cn cs, w = { s.samp.work with
      atValid := v, atSecs := a, atFrac := b, atIdx := i, dropCnt := d, cfoValid := cv, cfoVal := cn, cfoSrc := cs }) ∧
    ((s.samp.work.atValid = true → s.samp.work.atIdx = 0#64) → w.atValid = true → w.atIdx = 0#64) := by
  unfold sampIngest at h
  split at h
  · cases h
  · rename_i w' hw
    cases h
    obtain ⟨v, n, b, e⟩ := ingestCfo_frame s c w'
    rw [e]
    unfold ingestTime at hw
    split at hw
    · cases hw
      exact ⟨⟨_, _, _, _, _, _, _, _, rfl⟩, fun g => g⟩
    · split at hw
      · split at hw <;> cases hw
        exact ⟨⟨_, _, _, _, _, _, _, _, rfl⟩, fun g => g⟩
      · rename_i hi
        cases hw
        exact ⟨⟨_, _, _, _, _, _, _, _, rfl⟩, fun _ _ => by simpa using hi⟩

/-- The only fault of ingestion is `F_ATIME_OFFSET`. -/
theorem sampIngest_error {s : State} {c : Nat} {f : HwFault} (h : sampIngest s c = .error f) : f.code = 0x01#8 := by
  unfold sampIngest ingestTime at h
  split at h
  · rename_i f' h'
    cases h
    split at h'
    · cases h'
    · split at h'
      · split at h' <;> cases h'
        rfl
      · cases h'
  · cases h

/-! ## The bit packer (41_frame_sync.md R247) -/

/-- One pattern packed: no bit is lost, at most one byte is completed, the residue stays shorter than a byte. -/
theorem pack_spec (nbits : Nat) (v : Byte) (p : Packer) (h : nbits ≤ 8) (hn : p.n.toNat ≤ 7)
    (hb : p.bits.toNat < 2 ^ p.n.toNat) (hv : v.toNat < 2 ^ nbits) :
    (pack nbits v p).2.length = (p.n.toNat + nbits) / 8 ∧
    (pack nbits v p).1.n.toNat = (p.n.toNat + nbits) % 8 ∧
    (pack nbits v p).1.bits.toNat < 2 ^ (pack nbits v p).1.n.toNat ∧
    ((pack nbits v p).2.head?.map BitVec.toNat).getD 0 +
      2 ^ (8 * (pack nbits v p).2.length) * (pack nbits v p).1.bits.toNat = p.bits.toNat + 2 ^ p.n.toNat * v.toNat := by
  have hor : (p.bits ||| (v.setWidth 15 <<< p.n.toNat)).toNat = p.bits.toNat + 2 ^ p.n.toNat * v.toNat := by
    have hlt : 2 ^ p.n.toNat * v.toNat < 2 ^ 15 := by
      have : 2 ^ p.n.toNat ≤ 2 ^ 7 := Nat.pow_le_pow_right (by omega) hn
      have := v.isLt
      nlinarith
    rw [BitVec.toNat_or, BitVec.toNat_shiftLeft, BitVec.toNat_setWidth, Nat.shiftLeft_eq,
      Nat.mod_eq_of_lt (a := v.toNat) (by have := v.isLt; omega), Nat.mul_comm, Nat.mod_eq_of_lt hlt, Nat.or_comm,
      ← Nat.two_pow_add_eq_or_of_lt hb]
    omega
  have hsum : p.bits.toNat + 2 ^ p.n.toNat * v.toNat < 2 ^ (p.n.toNat + nbits) := by
    rw [Nat.pow_add]
    have : 2 ^ p.n.toNat * (v.toNat + 1) ≤ 2 ^ p.n.toNat * 2 ^ nbits := Nat.mul_le_mul_left _ hv
    rw [Nat.mul_add] at this
    omega
  simp only [pack]
  split
  · rename_i h8
    have e1 : (BitVec.ofNat 4 (p.n.toNat + nbits - 8)).toNat = p.n.toNat + nbits - 8 := by
      simp [BitVec.toNat_ofNat]
      omega
    have e2 : ((p.bits ||| (v.setWidth 15 <<< p.n.toNat)) >>> 8).toNat =
        (p.bits.toNat + 2 ^ p.n.toNat * v.toNat) / 256 := by
      rw [BitVec.toNat_ushiftRight, hor, Nat.shiftRight_eq_div_pow]
    have e3 : ((p.bits ||| (v.setWidth 15 <<< p.n.toNat)).setWidth 8).toNat =
        (p.bits.toNat + 2 ^ p.n.toNat * v.toNat) % 256 := by
      rw [BitVec.toNat_setWidth, hor]
    refine ⟨by simp; omega, by simp only [e1]; omega, ?_, ?_⟩
    · simp only [e1, e2]
      rw [Nat.div_lt_iff_lt_mul (by omega)]
      have : 2 ^ (p.n.toNat + nbits) = 2 ^ (p.n.toNat + nbits - 8) * 256 := by
        rw [show (256 : Nat) = 2 ^ 8 from rfl, ← Nat.pow_add]
        congr 1
        omega
      omega
    · simp only [List.head?_cons, Option.map_some, Option.getD_some, List.length_singleton, e2, e3]
      have := Nat.mod_add_div (p.bits.toNat + 2 ^ p.n.toNat * v.toNat) 256
      omega
  · rename_i h8
    have e1 : (BitVec.ofNat 4 (p.n.toNat + nbits)).toNat = p.n.toNat + nbits := by
      simp [BitVec.toNat_ofNat]
      omega
    refine ⟨by simp; omega, by simp only [e1]; omega, ?_, ?_⟩
    · simp only [e1, hor]
      exact hsum
    · simp [hor]

/-! ## The demapper's walk (41_frame_sync.md R240) -/

/-- The walk makes one tap for each subcarrier of the map. -/
theorem demapLoop_taps_length (x : DemapCtx) (ms : List (BitVec 12)) : ∀ (i : Nat) (d : Demap),
    (demapLoop x ms i d).taps.length = d.taps.length + ms.length := by
  induction ms with
  | nil => intro i d; rfl
  | cons m ms ih =>
    intro i d
    simp only [demapLoop, ih, demapOne, List.length_append, List.length_cons, List.length_nil]
    omega

/-- The demapper leaves the header, the payload, the captured metadata, the position and the counters alone. -/
theorem demap_frame (s : State) : ∃ taps bits n fr ph, (demap s).1 = { s.fsync.work with
    taps := taps, pkBits := bits, pkN := n, freq := fr, phase := ph } := ⟨_, _, _, _, _, rfl⟩

/-! ## The payload store and the header loop (41_frame_sync.md R250, R251, R256) -/

/-- The payload store of an incomplete payload: the bytes that fit are stored in order, and it never overruns. -/
theorem storeBytes_spec (bs : List Byte) : ∀ w : FsyncWork, w.pktCnt ≤ w.pktLen →
    ∃ pkt', storeBytes bs w = .ok { w with
        pkt := pkt', pktCnt := w.pktCnt + BitVec.ofNat 12 (min bs.length (w.pktLen.toNat - w.pktCnt.toNat)) } ∧
      (∀ n, Memory.read pkt' n =
        if w.pktCnt.toNat ≤ n ∧ n < w.pktCnt.toNat + min bs.length (w.pktLen.toNat - w.pktCnt.toNat)
        then bs[n - w.pktCnt.toNat]? else Memory.read w.pkt n) ∧
      (Memory.wf w.pkt = true → Memory.wf pkt' = true) := by
  induction bs with
  | nil => intro w h; exact ⟨w.pkt, by simp [storeBytes], by simp, id⟩
  | cons b bs ih =>
    intro w h
    simp only [storeBytes]
    split
    · rename_i hlt
      have h1 : w.pktCnt.toNat < w.pktLen.toNat := hlt
      have h2 := w.pktLen.isLt
      rw [if_neg (by unfold Config.maxPkt; omega)]
      have e1 : (w.pktCnt + 1#12).toNat = w.pktCnt.toNat + 1 := by simp [BitVec.toNat_add]; omega
      obtain ⟨pkt', a, b', c⟩ :=
        ih { w with pkt := Memory.write w.pkt w.pktCnt.toNat b, pktCnt := w.pktCnt + 1#12 }
          (by simp only [BitVec.le_def, e1]; omega)
      refine ⟨pkt', ?_, ?_, fun hw => c (wf_write _ _ _ hw)⟩
      · rw [a]
        simp only [e1, List.length_cons]
        congr 2
        apply BitVec.eq_of_toNat_eq
        simp only [BitVec.toNat_add, BitVec.toNat_ofNat, e1]
        omega
      · intro n
        rw [b']
        simp only [e1, List.length_cons]
        by_cases hn : n = w.pktCnt.toNat
        · subst hn
          rw [if_neg (by omega), if_pos (by omega)]
          simp
        · rw [read_write_ne _ _ hn]
          by_cases hc : w.pktCnt.toNat ≤ n ∧ n < w.pktCnt.toNat + min (bs.length + 1) (w.pktLen.toNat - w.pktCnt.toNat)
          · rw [if_pos hc, if_pos (by omega), show n - w.pktCnt.toNat = (n - (w.pktCnt.toNat + 1)) + 1 by omega]
            simp
          · rw [if_neg hc, if_neg (by omega)]
    · rename_i hlt
      have h1 : ¬ w.pktCnt.toNat < w.pktLen.toNat := hlt
      have h0 : w.pktLen.toNat - w.pktCnt.toNat = 0 := by omega
      refine ⟨w.pkt, ?_, ?_, id⟩
      · rw [h0]
        simp
      · rw [h0]
        intro n
        rw [if_neg (by omega)]

/-- The header loop of an incomplete header: too few bytes are all shifted in; else the header is completed and checked with the
bytes that remain. It never overruns. -/
theorem collectHeader_spec (draws : Nat) (bytes : List Byte) : ∀ w : FsyncWork, w.hdrCnt.toNat ≤ 3 →
    (bytes.length < 4 - w.hdrCnt.toNat → collectHeader draws bytes w = .ok
      { work := { w with
          hdr := bytes.foldl (fun h b => (h <<< 8) ||| b.setWidth 32) w.hdr
          hdrCnt := BitVec.ofNat 3 (w.hdrCnt.toNat + bytes.length) }
        frame := none }) ∧
    (4 - w.hdrCnt.toNat ≤ bytes.length → collectHeader draws bytes w =
      checkHeader draws (bytes.drop (4 - w.hdrCnt.toNat)) { w with
        hdr := (bytes.take (4 - w.hdrCnt.toNat)).foldl (fun h b => (h <<< 8) ||| b.setWidth 32) w.hdr
        hdrCnt := 4#3 }) := by
  induction bytes with
  | nil => intro w hw; simp [collectHeader]; intro h; omega
  | cons b bs ih =>
    intro w hw
    have e1 : (w.hdrCnt + 1#3).toNat = w.hdrCnt.toNat + 1 := by simp [BitVec.toNat_add]; omega
    have hne : ¬ 4 ≤ w.hdrCnt.toNat := by omega
    simp only [collectHeader, Config.hdrBytes, hne, if_false]
    by_cases h3 : w.hdrCnt.toNat = 3
    · simp only [e1, h3]
      refine ⟨fun h => by simp at h, fun _ => ?_⟩
      have : w.hdrCnt + 1#3 = 4#3 := BitVec.eq_of_toNat_eq (by rw [e1, h3]; rfl)
      simp [this]
    · have hne2 : ¬ w.hdrCnt.toNat + 1 = 4 := by omega
      simp only [e1, hne2, if_false]
      have := ih { w with hdr := (w.hdr <<< 8) ||| b.setWidth 32, hdrCnt := w.hdrCnt + 1#3 } (by simp only [e1]; omega)
      simp only [e1] at this
      obtain ⟨t1, t2⟩ := this
      have en : 4 - w.hdrCnt.toNat = (4 - (w.hdrCnt.toNat + 1)) + 1 := by omega
      rw [en]
      simp only [List.take_succ_cons, List.drop_succ_cons, List.length_cons, List.foldl_cons] at *
      refine ⟨fun h => ?_, fun h => ?_⟩
      · rw [t1 (by omega)]
        congr 4
        omega
      · rw [t2 (by omega)]

/-- The end of a demodulating step: one symbol consumed, the registers written, the frame enqueued if there is one. -/
theorem finishDemod_ok (s : State) (c : Collect) : finishDemod s (.ok c) = .ok { s with
    fsync := { s.fsync with work := { c.work with rd := c.work.rd + 1#64 } }
    fsyncIn := s.fsyncIn.consume 1
    msgq := s.msgq ++ c.frame.toList
    qroom := if c.frame.isSome then s.qroom.map (· - 1) else s.qroom } := by
  unfold finishDemod
  cases hc : c.frame <;> simp [emitFrame, enqueue, hc]

/-! ## The cyclic prefixer -/

/-- A legal configuration makes the output of one step `OUT_SIZE` samples long (43_cyclic_prefixer.md R301). -/
theorem prefixed_length {s : State} (h : validateCpfx s.cpfx.cfg = 0#8) :
    (prefixed s).length = s.cpfx.cfg.outSize.toNat := by
  unfold validateCpfx at h
  split at h
  · cases h
  · simp [prefixed, cpfxCp, cpfxSymLen]
    omega

end Sys2Proof.Laws
end

