-- ==== Sys2Proof/Laws/PerInstr.lean ====
section
/-! SUPPORT. Statements about every operation as syntax, one lemma for each constructor. -/

namespace Sys2Proof.Laws.SelFormed

/-- The encoding is one an agent can form (30_encoding.md R160, 20_memory.md R122): a selector has bits [3:2] zero, a bus access is 32 bits
wide. -/
def Statement (i : Instr) : Prop :=
  match encode i with
  | .sel b => b.extractLsb' 2 2 = 0#2
  | .bus a => a.width = .word

theorem saScan (l : Bool) : Statement (.saScan l) := by cases l <;> rfl
theorem saAcq (l : Bool) : Statement (.saAcq l) := by cases l <;> rfl
theorem saSym : Statement .saSym := rfl
theorem saLast : Statement .saLast := rfl
theorem saReacq (l : Bool) : Statement (.saReacq l) := by cases l <;> rfl
theorem fsIdle : Statement .fsIdle := rfl
theorem fsAcq : Statement .fsAcq := rfl
theorem fsHdr (sig : Bool) : Statement (.fsHdr sig) := by cases sig <;> rfl
theorem fsPay (sig : Bool) : Statement (.fsPay sig) := by cases sig <;> rfl
theorem piDrop (pl : Bool) : Statement (.piDrop pl) := by cases pl <;> rfl
theorem piDetect (pl : Bool) : Statement (.piDetect pl) := by cases pl <;> rfl
theorem piPre (bs : Bool) : Statement (.piPre bs) := by cases bs <;> rfl
theorem piPrel (bs : Bool) : Statement (.piPrel bs) := by cases bs <;> rfl
theorem piFirst (pl bs : Bool) : Statement (.piFirst pl bs) := by cases pl <;> cases bs <;> rfl
theorem piCopy (pl : Bool) : Statement (.piCopy pl) := by cases pl <;> rfl
theorem piRedetect (pl : Bool) : Statement (.piRedetect pl) := by cases pl <;> rfl
theorem cpSym : Statement .cpSym := rfl
theorem cpEob : Statement .cpEob := rfl
theorem sysSrst (e : Engine) (d : Word) : Statement (.sysSrst e d) := rfl
theorem sysCommit (e : Engine) (d : Word) : Statement (.sysCommit e d) := rfl
theorem sysStop (e : Engine) (d : Word) : Statement (.sysStop e d) := rfl
theorem sysCfgwr (a : BusAddr) (d : Word) : Statement (.sysCfgwr a d) := rfl
theorem sysW1c (e : Engine) (d : Word) : Statement (.sysW1c e d) := rfl
theorem sysRead (a : BusAddr) : Statement (.sysRead a) := rfl

end Sys2Proof.Laws.SelFormed
end

