-- ==== Sys2Proof/Laws/State.lean ====
section
/-! SUPPORT. What each named update of the state does to each field: one lemma per field per update. -/

namespace Sys2Proof.Laws

open Sys2Proof.Machine

/-! ## `State.setCtl` -/

@[simp] theorem setCtl_irqEnable (s : State) (e : Engine) (c : Ctl) :
    (s.setCtl e c).irqEnable = s.irqEnable := by cases e <;> rfl
@[simp] theorem setCtl_mem (s : State) (e : Engine) (c : Ctl) :
    (s.setCtl e c).mem = s.mem := by cases e <;> rfl
@[simp] theorem setCtl_sampIn (s : State) (e : Engine) (c : Ctl) :
    (s.setCtl e c).sampIn = s.sampIn := by cases e <;> rfl
@[simp] theorem setCtl_sampOut (s : State) (e : Engine) (c : Ctl) :
    (s.setCtl e c).sampOut = s.sampOut := by cases e <;> rfl
@[simp] theorem setCtl_fsyncIn (s : State) (e : Engine) (c : Ctl) :
    (s.setCtl e c).fsyncIn = s.fsyncIn := by cases e <;> rfl
@[simp] theorem setCtl_pinsIn (s : State) (e : Engine) (c : Ctl) :
    (s.setCtl e c).pinsIn = s.pinsIn := by cases e <;> rfl
@[simp] theorem setCtl_pinsOut (s : State) (e : Engine) (c : Ctl) :
    (s.setCtl e c).pinsOut = s.pinsOut := by cases e <;> rfl
@[simp] theorem setCtl_cpfxIn (s : State) (e : Engine) (c : Ctl) :
    (s.setCtl e c).cpfxIn = s.cpfxIn := by cases e <;> rfl
@[simp] theorem setCtl_cpfxOut (s : State) (e : Engine) (c : Ctl) :
    (s.setCtl e c).cpfxOut = s.cpfxOut := by cases e <;> rfl
@[simp] theorem setCtl_msgq (s : State) (e : Engine) (c : Ctl) :
    (s.setCtl e c).msgq = s.msgq := by cases e <;> rfl
@[simp] theorem setCtl_qroom (s : State) (e : Engine) (c : Ctl) :
    (s.setCtl e c).qroom = s.qroom := by cases e <;> rfl
@[simp] theorem setCtl_agenda (s : State) (e : Engine) (c : Ctl) :
    (s.setCtl e c).agenda = s.agenda := by cases e <;> rfl
@[simp] theorem setCtl_rdata (s : State) (e : Engine) (c : Ctl) :
    (s.setCtl e c).rdata = s.rdata := by cases e <;> rfl
@[simp] theorem setCtl_draws (s : State) (e : Engine) (c : Ctl) :
    (s.setCtl e c).draws = s.draws := by cases e <;> rfl
@[simp] theorem setCtl_samp_reg (s : State) (e : Engine) (c : Ctl) :
    (s.setCtl e c).samp.reg = s.samp.reg := by cases e <;> rfl
@[simp] theorem setCtl_samp_cfg (s : State) (e : Engine) (c : Ctl) :
    (s.setCtl e c).samp.cfg = s.samp.cfg := by cases e <;> rfl
@[simp] theorem setCtl_samp_work (s : State) (e : Engine) (c : Ctl) :
    (s.setCtl e c).samp.work = s.samp.work := by cases e <;> rfl
@[simp] theorem setCtl_fsync_reg (s : State) (e : Engine) (c : Ctl) :
    (s.setCtl e c).fsync.reg = s.fsync.reg := by cases e <;> rfl
@[simp] theorem setCtl_fsync_cfg (s : State) (e : Engine) (c : Ctl) :
    (s.setCtl e c).fsync.cfg = s.fsync.cfg := by cases e <;> rfl
@[simp] theorem setCtl_fsync_map (s : State) (e : Engine) (c : Ctl) :
    (s.setCtl e c).fsync.map = s.fsync.map := by cases e <;> rfl
@[simp] theorem setCtl_fsync_refs (s : State) (e : Engine) (c : Ctl) :
    (s.setCtl e c).fsync.refs = s.fsync.refs := by cases e <;> rfl
@[simp] theorem setCtl_fsync_vals (s : State) (e : Engine) (c : Ctl) :
    (s.setCtl e c).fsync.vals = s.fsync.vals := by cases e <;> rfl
@[simp] theorem setCtl_fsync_work (s : State) (e : Engine) (c : Ctl) :
    (s.setCtl e c).fsync.work = s.fsync.work := by cases e <;> rfl
@[simp] theorem setCtl_pins_reg (s : State) (e : Engine) (c : Ctl) :
    (s.setCtl e c).pins.reg = s.pins.reg := by cases e <;> rfl
@[simp] theorem setCtl_pins_cfg (s : State) (e : Engine) (c : Ctl) :
    (s.setCtl e c).pins.cfg = s.pins.cfg := by cases e <;> rfl
@[simp] theorem setCtl_pins_pre (s : State) (e : Engine) (c : Ctl) :
    (s.setCtl e c).pins.pre = s.pins.pre := by cases e <;> rfl
@[simp] theorem setCtl_pins_work (s : State) (e : Engine) (c : Ctl) :
    (s.setCtl e c).pins.work = s.pins.work := by cases e <;> rfl
@[simp] theorem setCtl_cpfx_reg (s : State) (e : Engine) (c : Ctl) :
    (s.setCtl e c).cpfx.reg = s.cpfx.reg := by cases e <;> rfl
@[simp] theorem setCtl_cpfx_cfg (s : State) (e : Engine) (c : Ctl) :
    (s.setCtl e c).cpfx.cfg = s.cpfx.cfg := by cases e <;> rfl
@[simp] theorem setCtl_cpfx_work (s : State) (e : Engine) (c : Ctl) :
    (s.setCtl e c).cpfx.work = s.cpfx.work := by cases e <;> rfl
@[simp] theorem setCtl_samp_samp_ctl (s : State) (c : Ctl) :
    (s.setCtl .samp c).samp.ctl = c := rfl
@[simp] theorem setCtl_samp_of_fsync (s : State) (c : Ctl) :
    (s.setCtl .samp c).fsync = s.fsync := rfl
@[simp] theorem setCtl_samp_of_pins (s : State) (c : Ctl) :
    (s.setCtl .samp c).pins = s.pins := rfl
@[simp] theorem setCtl_samp_of_cpfx (s : State) (c : Ctl) :
    (s.setCtl .samp c).cpfx = s.cpfx := rfl
@[simp] theorem setCtl_fsync_of_samp (s : State) (c : Ctl) :
    (s.setCtl .fsync c).samp = s.samp := rfl
@[simp] theorem setCtl_fsync_fsync_ctl (s : State) (c : Ctl) :
    (s.setCtl .fsync c).fsync.ctl = c := rfl
@[simp] theorem setCtl_fsync_of_pins (s : State) (c : Ctl) :
    (s.setCtl .fsync c).pins = s.pins := rfl
@[simp] theorem setCtl_fsync_of_cpfx (s : State) (c : Ctl) :
    (s.setCtl .fsync c).cpfx = s.cpfx := rfl
@[simp] theorem setCtl_pins_of_samp (s : State) (c : Ctl) :
    (s.setCtl .pins c).samp = s.samp := rfl
@[simp] theorem setCtl_pins_of_fsync (s : State) (c : Ctl) :
    (s.setCtl .pins c).fsync = s.fsync := rfl
@[simp] theorem setCtl_pins_pins_ctl (s : State) (c : Ctl) :
    (s.setCtl .pins c).pins.ctl = c := rfl
@[simp] theorem setCtl_pins_of_cpfx (s : State) (c : Ctl) :
    (s.setCtl .pins c).cpfx = s.cpfx := rfl
@[simp] theorem setCtl_cpfx_of_samp (s : State) (c : Ctl) :
    (s.setCtl .cpfx c).samp = s.samp := rfl
@[simp] theorem setCtl_cpfx_of_fsync (s : State) (c : Ctl) :
    (s.setCtl .cpfx c).fsync = s.fsync := rfl
@[simp] theorem setCtl_cpfx_of_pins (s : State) (c : Ctl) :
    (s.setCtl .cpfx c).pins = s.pins := rfl
@[simp] theorem setCtl_cpfx_cpfx_ctl (s : State) (c : Ctl) :
    (s.setCtl .cpfx c).cpfx.ctl = c := rfl
@[simp] theorem ctlOf_setCtl_self (s : State) (e : Engine) (c : Ctl) :
    (s.setCtl e c).ctlOf e = c := by cases e <;> rfl
theorem ctlOf_setCtl_ne (s : State) (e e' : Engine) (c : Ctl) (h : e' ≠ e) :
    (s.setCtl e c).ctlOf e' = s.ctlOf e' := by
  cases e <;> cases e' <;> first | rfl | exact absurd rfl h
@[simp] theorem setCtl_ctlOf (s : State) (e : Engine) : s.setCtl e (s.ctlOf e) = s := by cases e <;> rfl

/-! ## `resetWork` -/

@[simp] theorem resetWork_irqEnable (s : State) (e : Engine) :
    (resetWork s e).irqEnable = s.irqEnable := by cases e <;> rfl
@[simp] theorem resetWork_mem (s : State) (e : Engine) :
    (resetWork s e).mem = s.mem := by cases e <;> rfl
@[simp] theorem resetWork_sampIn (s : State) (e : Engine) :
    (resetWork s e).sampIn = s.sampIn := by cases e <;> rfl
@[simp] theorem resetWork_sampOut (s : State) (e : Engine) :
    (resetWork s e).sampOut = s.sampOut := by cases e <;> rfl
@[simp] theorem resetWork_fsyncIn (s : State) (e : Engine) :
    (resetWork s e).fsyncIn = s.fsyncIn := by cases e <;> rfl
@[simp] theorem resetWork_pinsIn (s : State) (e : Engine) :
    (resetWork s e).pinsIn = s.pinsIn := by cases e <;> rfl
@[simp] theorem resetWork_pinsOut (s : State) (e : Engine) :
    (resetWork s e).pinsOut = s.pinsOut := by cases e <;> rfl
@[simp] theorem resetWork_cpfxIn (s : State) (e : Engine) :
    (resetWork s e).cpfxIn = s.cpfxIn := by cases e <;> rfl
@[simp] theorem resetWork_cpfxOut (s : State) (e : Engine) :
    (resetWork s e).cpfxOut = s.cpfxOut := by cases e <;> rfl
@[simp] theorem resetWork_msgq (s : State) (e : Engine) :
    (resetWork s e).msgq = s.msgq := by cases e <;> rfl
@[simp] theorem resetWork_qroom (s : State) (e : Engine) :
    (resetWork s e).qroom = s.qroom := by cases e <;> rfl
@[simp] theorem resetWork_agenda (s : State) (e : Engine) :
    (resetWork s e).agenda = s.agenda := by cases e <;> rfl
@[simp] theorem resetWork_rdata (s : State) (e : Engine) :
    (resetWork s e).rdata = s.rdata := by cases e <;> rfl
@[simp] theorem resetWork_draws (s : State) (e : Engine) :
    (resetWork s e).draws = s.draws := by cases e <;> rfl
@[simp] theorem resetWork_samp_reg (s : State) (e : Engine) :
    (resetWork s e).samp.reg = s.samp.reg := by cases e <;> rfl
@[simp] theorem resetWork_samp_cfg (s : State) (e : Engine) :
    (resetWork s e).samp.cfg = s.samp.cfg := by cases e <;> rfl
@[simp] theorem resetWork_samp_ctl (s : State) (e : Engine) :
    (resetWork s e).samp.ctl = s.samp.ctl := by cases e <;> rfl
@[simp] theorem resetWork_fsync_reg (s : State) (e : Engine) :
    (resetWork s e).fsync.reg = s.fsync.reg := by cases e <;> rfl
@[simp] theorem resetWork_fsync_cfg (s : State) (e : Engine) :
    (resetWork s e).fsync.cfg = s.fsync.cfg := by cases e <;> rfl
@[simp] theorem resetWork_fsync_map (s : State) (e : Engine) :
    (resetWork s e).fsync.map = s.fsync.map := by cases e <;> rfl
@[simp] theorem resetWork_fsync_refs (s : State) (e : Engine) :
    (resetWork s e).fsync.refs = s.fsync.refs := by cases e <;> rfl
@[simp] theorem resetWork_fsync_vals (s : State) (e : Engine) :
    (resetWork s e).fsync.vals = s.fsync.vals := by cases e <;> rfl
@[simp] theorem resetWork_fsync_ctl (s : State) (e : Engine) :
    (resetWork s e).fsync.ctl = s.fsync.ctl := by cases e <;> rfl
@[simp] theorem resetWork_pins_reg (s : State) (e : Engine) :
    (resetWork s e).pins.reg = s.pins.reg := by cases e <;> rfl
@[simp] theorem resetWork_pins_cfg (s : State) (e : Engine) :
    (resetWork s e).pins.cfg = s.pins.cfg := by cases e <;> rfl
@[simp] theorem resetWork_pins_pre (s : State) (e : Engine) :
    (resetWork s e).pins.pre = s.pins.pre := by cases e <;> rfl
@[simp] theorem resetWork_pins_ctl (s : State) (e : Engine) :
    (resetWork s e).pins.ctl = s.pins.ctl := by cases e <;> rfl
@[simp] theorem resetWork_cpfx_reg (s : State) (e : Engine) :
    (resetWork s e).cpfx.reg = s.cpfx.reg := by cases e <;> rfl
@[simp] theorem resetWork_cpfx_cfg (s : State) (e : Engine) :
    (resetWork s e).cpfx.cfg = s.cpfx.cfg := by cases e <;> rfl
@[simp] theorem resetWork_cpfx_ctl (s : State) (e : Engine) :
    (resetWork s e).cpfx.ctl = s.cpfx.ctl := by cases e <;> rfl
@[simp] theorem resetWork_samp_samp_work (s : State) :
    (resetWork s .samp).samp.work = SampWork.reset := rfl
@[simp] theorem resetWork_samp_of_fsync (s : State) :
    (resetWork s .samp).fsync = s.fsync := rfl
@[simp] theorem resetWork_samp_of_pins (s : State) :
    (resetWork s .samp).pins = s.pins := rfl
@[simp] theorem resetWork_samp_of_cpfx (s : State) :
    (resetWork s .samp).cpfx = s.cpfx := rfl
@[simp] theorem resetWork_fsync_of_samp (s : State) :
    (resetWork s .fsync).samp = s.samp := rfl
@[simp] theorem resetWork_fsync_fsync_work (s : State) :
    (resetWork s .fsync).fsync.work = FsyncWork.reset := rfl
@[simp] theorem resetWork_fsync_of_pins (s : State) :
    (resetWork s .fsync).pins = s.pins := rfl
@[simp] theorem resetWork_fsync_of_cpfx (s : State) :
    (resetWork s .fsync).cpfx = s.cpfx := rfl
@[simp] theorem resetWork_pins_of_samp (s : State) :
    (resetWork s .pins).samp = s.samp := rfl
@[simp] theorem resetWork_pins_of_fsync (s : State) :
    (resetWork s .pins).fsync = s.fsync := rfl
@[simp] theorem resetWork_pins_pins_work (s : State) :
    (resetWork s .pins).pins.work = PinsWork.reset := rfl
@[simp] theorem resetWork_pins_of_cpfx (s : State) :
    (resetWork s .pins).cpfx = s.cpfx := rfl
@[simp] theorem resetWork_cpfx_of_samp (s : State) :
    (resetWork s .cpfx).samp = s.samp := rfl
@[simp] theorem resetWork_cpfx_of_fsync (s : State) :
    (resetWork s .cpfx).fsync = s.fsync := rfl
@[simp] theorem resetWork_cpfx_of_pins (s : State) :
    (resetWork s .cpfx).pins = s.pins := rfl
@[simp] theorem resetWork_cpfx_cpfx_work (s : State) :
    (resetWork s .cpfx).cpfx.work = CpfxWork.reset := rfl
@[simp] theorem resetWork_ctlOf (s : State) (e e' : Engine) :
    (resetWork s e).ctlOf e' = s.ctlOf e' := by cases e <;> cases e' <;> rfl

/-! ## `faultEntry` -/

@[simp] theorem faultEntry_irqEnable (s : State) (e : Engine) (b : Byte) (h : HwFault) :
    (faultEntry s e b h).irqEnable = s.irqEnable := by cases e <;> rfl
@[simp] theorem faultEntry_mem (s : State) (e : Engine) (b : Byte) (h : HwFault) :
    (faultEntry s e b h).mem = s.mem := by cases e <;> rfl
@[simp] theorem faultEntry_sampIn (s : State) (e : Engine) (b : Byte) (h : HwFault) :
    (faultEntry s e b h).sampIn = s.sampIn := by cases e <;> rfl
@[simp] theorem faultEntry_sampOut (s : State) (e : Engine) (b : Byte) (h : HwFault) :
    (faultEntry s e b h).sampOut = s.sampOut := by cases e <;> rfl
@[simp] theorem faultEntry_fsyncIn (s : State) (e : Engine) (b : Byte) (h : HwFault) :
    (faultEntry s e b h).fsyncIn = s.fsyncIn := by cases e <;> rfl
@[simp] theorem faultEntry_pinsIn (s : State) (e : Engine) (b : Byte) (h : HwFault) :
    (faultEntry s e b h).pinsIn = s.pinsIn := by cases e <;> rfl
@[simp] theorem faultEntry_pinsOut (s : State) (e : Engine) (b : Byte) (h : HwFault) :
    (faultEntry s e b h).pinsOut = s.pinsOut := by cases e <;> rfl
@[simp] theorem faultEntry_cpfxIn (s : State) (e : Engine) (b : Byte) (h : HwFault) :
    (faultEntry s e b h).cpfxIn = s.cpfxIn := by cases e <;> rfl
@[simp] theorem faultEntry_cpfxOut (s : State) (e : Engine) (b : Byte) (h : HwFault) :
    (faultEntry s e b h).cpfxOut = s.cpfxOut := by cases e <;> rfl
@[simp] theorem faultEntry_msgq (s : State) (e : Engine) (b : Byte) (h : HwFault) :
    (faultEntry s e b h).msgq = s.msgq := by cases e <;> rfl
@[simp] theorem faultEntry_qroom (s : State) (e : Engine) (b : Byte) (h : HwFault) :
    (faultEntry s e b h).qroom = s.qroom := by cases e <;> rfl
@[simp] theorem faultEntry_agenda (s : State) (e : Engine) (b : Byte) (h : HwFault) :
    (faultEntry s e b h).agenda = s.agenda := by cases e <;> rfl
@[simp] theorem faultEntry_rdata (s : State) (e : Engine) (b : Byte) (h : HwFault) :
    (faultEntry s e b h).rdata = s.rdata := by cases e <;> rfl
@[simp] theorem faultEntry_draws (s : State) (e : Engine) (b : Byte) (h : HwFault) :
    (faultEntry s e b h).draws = s.draws := by cases e <;> rfl
@[simp] theorem faultEntry_samp_reg (s : State) (e : Engine) (b : Byte) (h : HwFault) :
    (faultEntry s e b h).samp.reg = s.samp.reg := by cases e <;> rfl
@[simp] theorem faultEntry_samp_cfg (s : State) (e : Engine) (b : Byte) (h : HwFault) :
    (faultEntry s e b h).samp.cfg = s.samp.cfg := by cases e <;> rfl
@[simp] theorem faultEntry_samp_work (s : State) (e : Engine) (b : Byte) (h : HwFault) :
    (faultEntry s e b h).samp.work = s.samp.work := by cases e <;> rfl
@[simp] theorem faultEntry_fsync_reg (s : State) (e : Engine) (b : Byte) (h : HwFault) :
    (faultEntry s e b h).fsync.reg = s.fsync.reg := by cases e <;> rfl
@[simp] theorem faultEntry_fsync_cfg (s : State) (e : Engine) (b : Byte) (h : HwFault) :
    (faultEntry s e b h).fsync.cfg = s.fsync.cfg := by cases e <;> rfl
@[simp] theorem faultEntry_fsync_map (s : State) (e : Engine) (b : Byte) (h : HwFault) :
    (faultEntry s e b h).fsync.map = s.fsync.map := by cases e <;> rfl
@[simp] theorem faultEntry_fsync_refs (s : State) (e : Engine) (b : Byte) (h : HwFault) :
    (faultEntry s e b h).fsync.refs = s.fsync.refs := by cases e <;> rfl
@[simp] theorem faultEntry_fsync_vals (s : State) (e : Engine) (b : Byte) (h : HwFault) :
    (faultEntry s e b h).fsync.vals = s.fsync.vals := by cases e <;> rfl
@[simp] theorem faultEntry_fsync_work (s : State) (e : Engine) (b : Byte) (h : HwFault) :
    (faultEntry s e b h).fsync.work = s.fsync.work := by cases e <;> rfl
@[simp] theorem faultEntry_pins_reg (s : State) (e : Engine) (b : Byte) (h : HwFault) :
    (faultEntry s e b h).pins.reg = s.pins.reg := by cases e <;> rfl
@[simp] theorem faultEntry_pins_cfg (s : State) (e : Engine) (b : Byte) (h : HwFault) :
    (faultEntry s e b h).pins.cfg = s.pins.cfg := by cases e <;> rfl
@[simp] theorem faultEntry_pins_pre (s : State) (e : Engine) (b : Byte) (h : HwFault) :
    (faultEntry s e b h).pins.pre = s.pins.pre := by cases e <;> rfl
@[simp] theorem faultEntry_pins_work (s : State) (e : Engine) (b : Byte) (h : HwFault) :
    (faultEntry s e b h).pins.work = s.pins.work := by cases e <;> rfl
@[simp] theorem faultEntry_cpfx_reg (s : State) (e : Engine) (b : Byte) (h : HwFault) :
    (faultEntry s e b h).cpfx.reg = s.cpfx.reg := by cases e <;> rfl
@[simp] theorem faultEntry_cpfx_cfg (s : State) (e : Engine) (b : Byte) (h : HwFault) :
    (faultEntry s e b h).cpfx.cfg = s.cpfx.cfg := by cases e <;> rfl
@[simp] theorem faultEntry_cpfx_work (s : State) (e : Engine) (b : Byte) (h : HwFault) :
    (faultEntry s e b h).cpfx.work = s.cpfx.work := by cases e <;> rfl
@[simp] theorem faultEntry_samp_of_fsync (s : State) (b : Byte) (h : HwFault) :
    (faultEntry s .samp b h).fsync = s.fsync := rfl
@[simp] theorem faultEntry_samp_of_pins (s : State) (b : Byte) (h : HwFault) :
    (faultEntry s .samp b h).pins = s.pins := rfl
@[simp] theorem faultEntry_samp_of_cpfx (s : State) (b : Byte) (h : HwFault) :
    (faultEntry s .samp b h).cpfx = s.cpfx := rfl
@[simp] theorem faultEntry_fsync_of_samp (s : State) (b : Byte) (h : HwFault) :
    (faultEntry s .fsync b h).samp = s.samp := rfl
@[simp] theorem faultEntry_fsync_of_pins (s : State) (b : Byte) (h : HwFault) :
    (faultEntry s .fsync b h).pins = s.pins := rfl
@[simp] theorem faultEntry_fsync_of_cpfx (s : State) (b : Byte) (h : HwFault) :
    (faultEntry s .fsync b h).cpfx = s.cpfx := rfl
@[simp] theorem faultEntry_pins_of_samp (s : State) (b : Byte) (h : HwFault) :
    (faultEntry s .pins b h).samp = s.samp := rfl
@[simp] theorem faultEntry_pins_of_fsync (s : State) (b : Byte) (h : HwFault) :
    (faultEntry s .pins b h).fsync = s.fsync := rfl
@[simp] theorem faultEntry_pins_of_cpfx (s : State) (b : Byte) (h : HwFault) :
    (faultEntry s .pins b h).cpfx = s.cpfx := rfl
@[simp] theorem faultEntry_cpfx_of_samp (s : State) (b : Byte) (h : HwFault) :
    (faultEntry s .cpfx b h).samp = s.samp := rfl
@[simp] theorem faultEntry_cpfx_of_fsync (s : State) (b : Byte) (h : HwFault) :
    (faultEntry s .cpfx b h).fsync = s.fsync := rfl
@[simp] theorem faultEntry_cpfx_of_pins (s : State) (b : Byte) (h : HwFault) :
    (faultEntry s .cpfx b h).pins = s.pins := rfl
@[simp] theorem faultEntry_ctlOf (s : State) (e : Engine) (b : Byte) (h : HwFault) :
    (faultEntry s e b h).ctlOf e = { s.ctlOf e with fault := true, faultCode := h.code, faultInfo := h.info, lastSel := b, lastValid := true } := by cases e <;> rfl

/-! ## `latchSel` -/

@[simp] theorem latchSel_irqEnable (s : State) (e : Engine) (b : Byte) :
    (latchSel s e b).irqEnable = s.irqEnable := by cases e <;> rfl
@[simp] theorem latchSel_mem (s : State) (e : Engine) (b : Byte) :
    (latchSel s e b).mem = s.mem := by cases e <;> rfl
@[simp] theorem latchSel_sampIn (s : State) (e : Engine) (b : Byte) :
    (latchSel s e b).sampIn = s.sampIn := by cases e <;> rfl
@[simp] theorem latchSel_sampOut (s : State) (e : Engine) (b : Byte) :
    (latchSel s e b).sampOut = s.sampOut := by cases e <;> rfl
@[simp] theorem latchSel_fsyncIn (s : State) (e : Engine) (b : Byte) :
    (latchSel s e b).fsyncIn = s.fsyncIn := by cases e <;> rfl
@[simp] theorem latchSel_pinsIn (s : State) (e : Engine) (b : Byte) :
    (latchSel s e b).pinsIn = s.pinsIn := by cases e <;> rfl
@[simp] theorem latchSel_pinsOut (s : State) (e : Engine) (b : Byte) :
    (latchSel s e b).pinsOut = s.pinsOut := by cases e <;> rfl
@[simp] theorem latchSel_cpfxIn (s : State) (e : Engine) (b : Byte) :
    (latchSel s e b).cpfxIn = s.cpfxIn := by cases e <;> rfl
@[simp] theorem latchSel_cpfxOut (s : State) (e : Engine) (b : Byte) :
    (latchSel s e b).cpfxOut = s.cpfxOut := by cases e <;> rfl
@[simp] theorem latchSel_msgq (s : State) (e : Engine) (b : Byte) :
    (latchSel s e b).msgq = s.msgq := by cases e <;> rfl
@[simp] theorem latchSel_qroom (s : State) (e : Engine) (b : Byte) :
    (latchSel s e b).qroom = s.qroom := by cases e <;> rfl
@[simp] theorem latchSel_agenda (s : State) (e : Engine) (b : Byte) :
    (latchSel s e b).agenda = s.agenda := by cases e <;> rfl
@[simp] theorem latchSel_rdata (s : State) (e : Engine) (b : Byte) :
    (latchSel s e b).rdata = s.rdata := by cases e <;> rfl
@[simp] theorem latchSel_draws (s : State) (e : Engine) (b : Byte) :
    (latchSel s e b).draws = s.draws := by cases e <;> rfl
@[simp] theorem latchSel_samp_reg (s : State) (e : Engine) (b : Byte) :
    (latchSel s e b).samp.reg = s.samp.reg := by cases e <;> rfl
@[simp] theorem latchSel_samp_cfg (s : State) (e : Engine) (b : Byte) :
    (latchSel s e b).samp.cfg = s.samp.cfg := by cases e <;> rfl
@[simp] theorem latchSel_samp_work (s : State) (e : Engine) (b : Byte) :
    (latchSel s e b).samp.work = s.samp.work := by cases e <;> rfl
@[simp] theorem latchSel_fsync_reg (s : State) (e : Engine) (b : Byte) :
    (latchSel s e b).fsync.reg = s.fsync.reg := by cases e <;> rfl
@[simp] theorem latchSel_fsync_cfg (s : State) (e : Engine) (b : Byte) :
    (latchSel s e b).fsync.cfg = s.fsync.cfg := by cases e <;> rfl
@[simp] theorem latchSel_fsync_map (s : State) (e : Engine) (b : Byte) :
    (latchSel s e b).fsync.map = s.fsync.map := by cases e <;> rfl
@[simp] theorem latchSel_fsync_refs (s : State) (e : Engine) (b : Byte) :
    (latchSel s e b).fsync.refs = s.fsync.refs := by cases e <;> rfl
@[simp] theorem latchSel_fsync_vals (s : State) (e : Engine) (b : Byte) :
    (latchSel s e b).fsync.vals = s.fsync.vals := by cases e <;> rfl
@[simp] theorem latchSel_fsync_work (s : State) (e : Engine) (b : Byte) :
    (latchSel s e b).fsync.work = s.fsync.work := by cases e <;> rfl
@[simp] theorem latchSel_pins_reg (s : State) (e : Engine) (b : Byte) :
    (latchSel s e b).pins.reg = s.pins.reg := by cases e <;> rfl
@[simp] theorem latchSel_pins_cfg (s : State) (e : Engine) (b : Byte) :
    (latchSel s e b).pins.cfg = s.pins.cfg := by cases e <;> rfl
@[simp] theorem latchSel_pins_pre (s : State) (e : Engine) (b : Byte) :
    (latchSel s e b).pins.pre = s.pins.pre := by cases e <;> rfl
@[simp] theorem latchSel_pins_work (s : State) (e : Engine) (b : Byte) :
    (latchSel s e b).pins.work = s.pins.work := by cases e <;> rfl
@[simp] theorem latchSel_cpfx_reg (s : State) (e : Engine) (b : Byte) :
    (latchSel s e b).cpfx.reg = s.cpfx.reg := by cases e <;> rfl
@[simp] theorem latchSel_cpfx_cfg (s : State) (e : Engine) (b : Byte) :
    (latchSel s e b).cpfx.cfg = s.cpfx.cfg := by cases e <;> rfl
@[simp] theorem latchSel_cpfx_work (s : State) (e : Engine) (b : Byte) :
    (latchSel s e b).cpfx.work = s.cpfx.work := by cases e <;> rfl
@[simp] theorem latchSel_samp_of_fsync (s : State) (b : Byte) :
    (latchSel s .samp b).fsync = s.fsync := rfl
@[simp] theorem latchSel_samp_of_pins (s : State) (b : Byte) :
    (latchSel s .samp b).pins = s.pins := rfl
@[simp] theorem latchSel_samp_of_cpfx (s : State) (b : Byte) :
    (latchSel s .samp b).cpfx = s.cpfx := rfl
@[simp] theorem latchSel_fsync_of_samp (s : State) (b : Byte) :
    (latchSel s .fsync b).samp = s.samp := rfl
@[simp] theorem latchSel_fsync_of_pins (s : State) (b : Byte) :
    (latchSel s .fsync b).pins = s.pins := rfl
@[simp] theorem latchSel_fsync_of_cpfx (s : State) (b : Byte) :
    (latchSel s .fsync b).cpfx = s.cpfx := rfl
@[simp] theorem latchSel_pins_of_samp (s : State) (b : Byte) :
    (latchSel s .pins b).samp = s.samp := rfl
@[simp] theorem latchSel_pins_of_fsync (s : State) (b : Byte) :
    (latchSel s .pins b).fsync = s.fsync := rfl
@[simp] theorem latchSel_pins_of_cpfx (s : State) (b : Byte) :
    (latchSel s .pins b).cpfx = s.cpfx := rfl
@[simp] theorem latchSel_cpfx_of_samp (s : State) (b : Byte) :
    (latchSel s .cpfx b).samp = s.samp := rfl
@[simp] theorem latchSel_cpfx_of_fsync (s : State) (b : Byte) :
    (latchSel s .cpfx b).fsync = s.fsync := rfl
@[simp] theorem latchSel_cpfx_of_pins (s : State) (b : Byte) :
    (latchSel s .cpfx b).pins = s.pins := rfl
@[simp] theorem latchSel_ctlOf (s : State) (e : Engine) (b : Byte) :
    (latchSel s e b).ctlOf e = { s.ctlOf e with lastSel := b, lastValid := true } := by cases e <;> rfl

/-! ## `enqueue` -/

@[simp] theorem enqueue_irqEnable (s : State) (f : Frame) :
    (enqueue s f).irqEnable = s.irqEnable := rfl
@[simp] theorem enqueue_mem (s : State) (f : Frame) :
    (enqueue s f).mem = s.mem := rfl
@[simp] theorem enqueue_sampIn (s : State) (f : Frame) :
    (enqueue s f).sampIn = s.sampIn := rfl
@[simp] theorem enqueue_sampOut (s : State) (f : Frame) :
    (enqueue s f).sampOut = s.sampOut := rfl
@[simp] theorem enqueue_fsyncIn (s : State) (f : Frame) :
    (enqueue s f).fsyncIn = s.fsyncIn := rfl
@[simp] theorem enqueue_pinsIn (s : State) (f : Frame) :
    (enqueue s f).pinsIn = s.pinsIn := rfl
@[simp] theorem enqueue_pinsOut (s : State) (f : Frame) :
    (enqueue s f).pinsOut = s.pinsOut := rfl
@[simp] theorem enqueue_cpfxIn (s : State) (f : Frame) :
    (enqueue s f).cpfxIn = s.cpfxIn := rfl
@[simp] theorem enqueue_cpfxOut (s : State) (f : Frame) :
    (enqueue s f).cpfxOut = s.cpfxOut := rfl
@[simp] theorem enqueue_agenda (s : State) (f : Frame) :
    (enqueue s f).agenda = s.agenda := rfl
@[simp] theorem enqueue_rdata (s : State) (f : Frame) :
    (enqueue s f).rdata = s.rdata := rfl
@[simp] theorem enqueue_draws (s : State) (f : Frame) :
    (enqueue s f).draws = s.draws := rfl
@[simp] theorem enqueue_samp (s : State) (f : Frame) :
    (enqueue s f).samp = s.samp := rfl
@[simp] theorem enqueue_fsync (s : State) (f : Frame) :
    (enqueue s f).fsync = s.fsync := rfl
@[simp] theorem enqueue_pins (s : State) (f : Frame) :
    (enqueue s f).pins = s.pins := rfl
@[simp] theorem enqueue_cpfx (s : State) (f : Frame) :
    (enqueue s f).cpfx = s.cpfx := rfl
@[simp] theorem enqueue_msgq (s : State) (f : Frame) :
    (enqueue s f).msgq = s.msgq ++ [f] := rfl
@[simp] theorem enqueue_qroom (s : State) (f : Frame) :
    (enqueue s f).qroom = s.qroom.map (· - 1) := rfl

/-! ## Ports -/

@[simp] theorem consume_tags {α : Type} (p : InPort α) (n : Nat) :
    (p.consume n).tags = p.tags := rfl
@[simp] theorem consume_staged {α : Type} (p : InPort α) (n : Nat) :
    (p.consume n).staged = p.staged := rfl
@[simp] theorem consume_stagedTags {α : Type} (p : InPort α) (n : Nat) :
    (p.consume n).stagedTags = p.stagedTags := rfl
@[simp] theorem consume_items {α : Type} (p : InPort α) (n : Nat) :
    (p.consume n).items = p.items.drop n := rfl
@[simp] theorem inRestart_items {α : Type} (p : InPort α) :
    p.restart.items = p.staged := rfl
@[simp] theorem inRestart_tags {α : Type} (p : InPort α) :
    p.restart.tags = p.stagedTags := rfl
@[simp] theorem inRestart_staged {α : Type} (p : InPort α) :
    p.restart.staged = [] := rfl
@[simp] theorem inRestart_stagedTags {α : Type} (p : InPort α) :
    p.restart.stagedTags = [] := rfl
@[simp] theorem offer_tags {α : Type} (p : InPort α) (en : Bool) (x : α) :
    (p.offer en x).tags = p.tags := by cases en <;> rfl
@[simp] theorem offer_stagedTags {α : Type} (p : InPort α) (en : Bool) (x : α) :
    (p.offer en x).stagedTags = p.stagedTags := by cases en <;> rfl
@[simp] theorem offer_on_items {α : Type} (p : InPort α) (x : α) :
    (p.offer true x).items = p.items ++ [x] := rfl
@[simp] theorem offer_off_items {α : Type} (p : InPort α) (x : α) :
    (p.offer false x).items = p.items := rfl
@[simp] theorem addTags_items {α : Type} (p : InPort α) (en : Bool) (ts : List Tag) :
    (p.addTags en ts).items = p.items := by cases en <;> rfl
@[simp] theorem addTags_staged {α : Type} (p : InPort α) (en : Bool) (ts : List Tag) :
    (p.addTags en ts).staged = p.staged := by cases en <;> rfl
@[simp] theorem addTags_on_tags {α : Type} (p : InPort α) (ts : List Tag) :
    (p.addTags true ts).tags = p.tags ++ ts := rfl
@[simp] theorem addTags_off_tags {α : Type} (p : InPort α) (ts : List Tag) :
    (p.addTags false ts).tags = p.tags := rfl
@[simp] theorem produce_items {α : Type} (p : OutPort α) (xs : List α) :
    (p.produce xs).items = p.items ++ xs := rfl
@[simp] theorem produce_tags {α : Type} (p : OutPort α) (xs : List α) :
    (p.produce xs).tags = p.tags := rfl
@[simp] theorem produce_space {α : Type} (p : OutPort α) (xs : List α) :
    (p.produce xs).space = p.space.map (· - xs.length) := rfl
@[simp] theorem produce_relayed {α : Type} (p : OutPort α) (xs : List α) :
    (p.produce xs).relayed = p.relayed := rfl
@[simp] theorem emit_items {α : Type} (p : OutPort α) (ts : List Tag) :
    (p.emit ts).items = p.items := rfl
@[simp] theorem emit_tags {α : Type} (p : OutPort α) (ts : List Tag) :
    (p.emit ts).tags = p.tags ++ ts := rfl
@[simp] theorem emit_space {α : Type} (p : OutPort α) (ts : List Tag) :
    (p.emit ts).space = p.space := rfl
@[simp] theorem emit_relayed {α : Type} (p : OutPort α) (ts : List Tag) :
    (p.emit ts).relayed = p.relayed := rfl
@[simp] theorem grant_items {α : Type} (p : OutPort α) (n : Nat) :
    (p.grant n).items = p.items := rfl
@[simp] theorem grant_tags {α : Type} (p : OutPort α) (n : Nat) :
    (p.grant n).tags = p.tags := rfl
@[simp] theorem grant_relayed {α : Type} (p : OutPort α) (n : Nat) :
    (p.grant n).relayed = p.relayed := rfl
@[simp] theorem outRestart_items {α : Type} (p : OutPort α) :
    p.restart.items = [] := rfl
@[simp] theorem outRestart_tags {α : Type} (p : OutPort α) :
    p.restart.tags = [] := rfl
@[simp] theorem outRestart_space {α : Type} (p : OutPort α) :
    p.restart.space = p.space := rfl
@[simp] theorem outRestart_relayed {α : Type} (p : OutPort α) :
    p.restart.relayed = 0 := rfl

end Sys2Proof.Laws
end

