-- ==== Sys2Proof/Tests/Slice0.lean ====
section
/-! SUPPORT. Tests: ill-formed operations, decoded words, single steps of spec/95_test_vectors.md, and for every statement with
hypotheses a state that meets them. -/

set_option Elab.async false

namespace Sys2Proof.Tests

open Sys2Proof.Machine Sys2Proof.Safety Sys2Proof.Claims

/-! ## Helpers -/

/-- Whether an outcome is a next state. -/
def isNext (o : Host.Outcome State Fault Refusal) : Bool :=
  match o with
  | .next _ => true
  | .fault _ => false
  | .refused _ => false

/-- The next state of an outcome. -/
def after (o : Host.Outcome State Fault Refusal) : State :=
  match o with
  | .next t => t
  | .fault _ => State.reset
  | .refused _ => State.reset

/-- An outcome that is a next state is that next state. -/
theorem next_after {o : Host.Outcome State Fault Refusal} (h : isNext o = true) : o = .next (after o) := by
  cases o
  · rfl
  · cases h
  · cases h

def cx (a b : Int) : Cplx := { re := BitVec.ofInt 32 a, im := BitVec.ofInt 32 b }
/-- `(a,b)q` of spec/95_test_vectors.md. -/
def cq (a b : Int) : Cplx := cx (a * 65536) (b * 65536)
def running : Ctl := { Ctl.reset with en := true }
def tag (idx key val src : Nat) : Tag :=
  { src := BitVec.ofNat 8 src, key := BitVec.ofNat 3 key, index := BitVec.ofNat 64 idx, value := BitVec.ofNat 128 val }
/-- A time value `(secs, frac)` as a tag value. -/
def tv (secs frac : Nat) : Nat := secs * 2 ^ 64 + frac

/-- `IN[i] = (i, -i)` for `rd <= i < n` (section 3, set-up S4). -/
def sIn (rd n : Nat) (trig : List Nat) : List SampleItem :=
  (List.range (n - rd)).map fun k => { s := cx (rd + k : Nat) (-(rd + k : Nat)), trig := trig.contains (rd + k) }
def sOut (a n : Nat) : List Cplx := (List.range n).map fun k => cx (a + k : Nat) (-(a + k : Nat))
def s4 (policy : Bool) (timeout : Word) : SampRegs :=
  { policy := policy, fftLen := 4#32, symLen := 6#32, bandwidth := 8#32, timeout := timeout }

/-- SAMP at absolute index `rd`, its step next. -/
def sampAt (r : SampRegs) (st : BitVec 2) (rd wr n : Nat) (cd : Word) (trig : List Nat) (tags : List Tag) : State :=
  { State.reset with
    samp := { Samp.reset with
      ctl := running, cfg := r
      work := { SampWork.reset with state := st, rd := BitVec.ofNat 64 rd, wr := BitVec.ofNat 64 wr, countdown := cd } }
    sampIn := { InPort.empty with items := sIn rd n trig, tags := tags }
    agenda := [.step .samp] }

/-- The table of set-up Q8 (section 4). -/
def q8Refs : List Cplx := [cq 1 0, cq (-1) 0, cq 0 1, cq 0 (-1)]
def q8 (policy : Bool) : FsyncRegs :=
  { policy := policy, fftLen := 8#32, occCarriers := 4#32, constNpoints := 4#32, constNvalues := 4#32,
    phaseGain := 16384#32, freqGain := 4096#32, eqGain := 3277#32 }
/-- The symbol whose subcarriers 1, 2, 5, 6 are given. -/
def sym (a b c d : Cplx) : List Cplx := [cq 0 0, a, b, cq 0 0, cq 0 0, c, d, cq 0 0]

/-- FSYNC with set-up Q8, one symbol offered, its step next. -/
def fsyncAt (policy : Bool) (x : SigSymbol) (tags : List Tag) (w : FsyncWork) : State :=
  { State.reset with
    fsync := { Fsync.reset with
      ctl := running, cfg := q8 policy, map := [1#12, 2#12, 5#12, 6#12], refs := q8Refs, vals := [0#8, 1#8, 2#8, 3#8]
      work := w }
    fsyncIn := { InPort.empty with items := [x], tags := tags }
    agenda := [.step .fsync] }
def q8Work : FsyncWork := { FsyncWork.reset with taps := List.replicate 4 unity }

/-- PINS with the set-up of V50, its step next. -/
def pinsAt (st : BitVec 2) (rd wr : Nat) (idx : Byte) (items : List BurstSymbol) (tags : List Tag) : State :=
  { State.reset with
    pins := { Pins.reset with
      ctl := running, cfg := { fftLen := 2#32, nPre := 2#32, preSymLen := 2#32 }
      pre := [[cx 1 0, cx 2 0], [cx 3 0, cx 4 0]]
      work := { state := st, rd := BitVec.ofNat 64 rd, wr := BitVec.ofNat 64 wr, preIdx := idx } }
    pinsIn := { InPort.empty with items := items, tags := tags }
    agenda := [.step .pins] }
def v50s1 : BurstSymbol := { s := [cx 110 0, cx 111 0], bs := true, aux := false }
def v50s2 : BurstSymbol := { s := [cx 120 0, cx 121 0], bs := false, aux := true }
def v50tags : List Tag := [tag 1 3 (tv 7 0x8000000000000000) 0x80, tag 1 3 (tv 8 0x4000000000000000) 0x80]

/-- CPFX at a position, one symbol offered, its step next. -/
def cpfxAt (inSize outSize : Word) (rd wr : Nat) (x : EobSymbol) (tags : List Tag) : State :=
  { State.reset with
    cpfx := { Cpfx.reset with
      ctl := running, cfg := { inSize := inSize, outSize := outSize }
      work := { rd := BitVec.ofNat 64 rd, wr := BitVec.ofNat 64 wr } }
    cpfxIn := { InPort.empty with items := [x], tags := tags }
    agenda := [.step .cpfx] }

/-- One bus write as the next action. -/
def writing (s : State) (a : BusAddr) (d : Word) : State := { s with agenda := [.bus (busWrite a d)] }
/-- One bus read as the next action. -/
def reading (s : State) (a : BusAddr) : State := { s with agenda := [.bus (busRead a)] }
/-- SAMP with the legal registers of S4, disabled. -/
def sampConfigured : State := { State.reset with samp := { Samp.reset with reg := s4 false 3#32 } }

/-! ## Ill-formed operations -/

theorem test_wf_srst_without_bit1 : (Instr.sysSrst .samp 1#32).wf = false := by decide
theorem test_wf_commit_with_bit1 : (Instr.sysCommit .fsync 3#32).wf = false := by decide
theorem test_wf_commit_without_bit0 : (Instr.sysCommit .fsync 4#32).wf = false := by decide
theorem test_wf_stop_with_bit0 : (Instr.sysStop .pins 1#32).wf = false := by decide
theorem test_wf_stop_with_bit1 : (Instr.sysStop .pins 2#32).wf = false := by decide
theorem test_wf_cfgwr_unaligned : (Instr.sysCfgwr 0x00142#20 5#32).wf = false := by decide
theorem test_wf_cfgwr_read_only : (Instr.sysCfgwr 0x00000#20 0#32).wf = false := by decide
theorem test_wf_cfgwr_reserved : (Instr.sysCfgwr 0x00500#20 1#32).wf = false := by decide
theorem test_wf_w1c_without_bit7 : (Instr.sysW1c .cpfx 0x7F#32).wf = false := by decide
theorem test_wf_read_unaligned : (Instr.sysRead 0x00141#20).wf = false := by decide

/-! ## Decoding: one word for each operation, written out from 30_encoding.md R162 and R168 -/

theorem test_decode_saScan : decodeSel 0b00000000#8 = .ok (.saScan false) := by decide
theorem test_decode_saAcq : decodeSel 0b00000001#8 = .ok (.saAcq false) := by decide
theorem test_decode_saSym : decodeSel 0b00100000#8 = .ok .saSym := by decide
theorem test_decode_saLast : decodeSel 0b00100010#8 = .ok .saLast := by decide
theorem test_decode_saReacq : decodeSel 0b00100011#8 = .ok (.saReacq true) := by decide
theorem test_decode_fsIdle : decodeSel 0b01000000#8 = .ok .fsIdle := by decide
theorem test_decode_fsAcq : decodeSel 0b01000001#8 = .ok .fsAcq := by decide
theorem test_decode_fsHdr : decodeSel 0b01010001#8 = .ok (.fsHdr true) := by decide
theorem test_decode_fsPay : decodeSel 0b01100000#8 = .ok (.fsPay false) := by decide
theorem test_decode_piDrop : decodeSel 0b10000010#8 = .ok (.piDrop true) := by decide
theorem test_decode_piDetect : decodeSel 0b10000001#8 = .ok (.piDetect false) := by decide
theorem test_decode_piPre : decodeSel 0b10010001#8 = .ok (.piPre true) := by decide
theorem test_decode_piPrel : decodeSel 0b10010011#8 = .ok (.piPrel true) := by decide
theorem test_decode_piFirst : decodeSel 0b10100001#8 = .ok (.piFirst false true) := by decide
theorem test_decode_piCopy : decodeSel 0b10110000#8 = .ok (.piCopy false) := by decide
theorem test_decode_piRedetect : decodeSel 0b10110001#8 = .ok (.piRedetect false) := by decide
theorem test_decode_cpSym : decodeSel 0b11000000#8 = .ok .cpSym := by decide
theorem test_decode_cpEob : decodeSel 0b11000001#8 = .ok .cpEob := by decide
theorem test_decode_sysSrst : decodeBus (busWrite 0x00200#20 2#32) = .ok (.sysSrst .fsync 2#32) := by decide
theorem test_decode_sysCommit : decodeBus (busWrite 0x00300#20 1#32) = .ok (.sysCommit .pins 1#32) := by decide
theorem test_decode_sysStop : decodeBus (busWrite 0x00400#20 0#32) = .ok (.sysStop .cpfx 0#32) := by decide
theorem test_decode_sysCfgwr : decodeBus (busWrite 0x00140#20 64#32) = .ok (.sysCfgwr 0x00140#20 64#32) := by decide
theorem test_decode_sysW1c : decodeBus (busWrite 0x00104#20 0x80#32) = .ok (.sysW1c .samp 0x80#32) := by decide
theorem test_decode_sysRead : decodeBus (busRead 0x00404#20) = .ok (.sysRead 0x00404#20) := by decide
theorem test_decode_reserved : decodeSel 0x71#8 = .error (.illegalState 3#2) := by decide
theorem test_decode_unformable : decodeSel 0x42#8 = .error .unformable := by decide

/-! ## The number system (V1, V2, V3, V5, V31, V32) -/

theorem test_cmul_floor : cmul (cx (-3) 0) (cx 1 0) = cx (-1) 0 := by decide
theorem test_cmul_saturates :
    cmul (cx (-2147483648) (-2147483648)) (cx 2147483647 (-2147483648)) = cx (-2147483648) 32768 := by decide
theorem test_cdiv_floor : cdiv (cx (-65536) 0) (cx 196608 0) = cx (-21846) 0 := by decide
theorem test_smul_floor : smul 3277#32 (-5) = -1 := by decide
theorem test_timeAdd_borrows :
    timeAdd { secs := 100#64, frac := 0#64 } (-3) 8 = { secs := 99#64, frac := 0xA000000000000000#64 } := by decide
theorem test_timeAdd_carries :
    timeAdd { secs := 5#64, frac := 0xC000000000000000#64 } 3 8 = { secs := 6#64, frac := 0x2000000000000000#64 } := by
  decide +kernel
theorem test_slice_tie : slice q8Refs (cx 0 0) = 0 := by decide
theorem test_eqUpdate_threshold : eqUpdate 32768#32 unity (cx 2072 0) unity = unity := by decide

/-! ## SAMP steps -/

/-- V10, step 1. -/
theorem test_saAcq_v10 :
    let t := after (step (sampAt (s4 false 3#32) 0#2 0 0 60 0#32 [9] [tag 0 3 (tv 100 0) 0x80, tag 2 4 0x1234 0x81]))
    t.samp.work.rd = 6#64 ∧ t.samp.work.countdown = 3#32 ∧ t.samp.work.state = 2#2 ∧
    t.sampOut.items = [{ s := sOut 6 4, sig := true }] ∧
    t.sampOut.tags = [tag 0 5 (tv 100 0x8000000000000000) 0, tag 0 4 0x1234 0x81] := by decide +kernel

/-- V13, step 1: the earliest trigger, a negative elapsed count. -/
theorem test_saAcq_v13 :
    let t := after (step (sampAt (s4 false 1#32) 0#2 0 0 30 0#32 [3, 4] [tag 0 3 (tv 100 0) 0x80]))
    t.samp.work.rd = 1#64 ∧ t.sampOut.items = [{ s := sOut 1 4, sig := true }] ∧
    t.sampOut.tags = [tag 0 5 (tv 99 0xE000000000000000) 0] := by decide +kernel

/-- V14: an offset tag under policy 0. -/
theorem test_saScan_v14 :
    let t := after (step (sampAt (s4 false 3#32) 0#2 0 0 30 0#32 [] [tag 3 3 (tv 7 0) 0x80]))
    t.samp.ctl.faultCode = 1#8 ∧ t.samp.ctl.faultInfo = 3#32 ∧ t.samp.work = SampWork.reset ∧
    t.sampIn.items.length = 30 := by decide +kernel

/-- V10, step 5. -/
theorem test_saScan_v10 :
    let t := after (step (sampAt (s4 false 3#32) 0#2 24 4 60 0#32 [] []))
    t.samp.work.rd = 30#64 ∧ t.samp.work.wr = 4#64 ∧ t.sampOut.items = [] ∧ t.samp.ctl.lastSel = 0#8 := by decide +kernel

/-- V10, step 2. -/
theorem test_saSym_v10 :
    let t := after (step (sampAt (s4 false 3#32) 2#2 6 1 60 3#32 [9] []))
    t.samp.work.rd = 12#64 ∧ t.samp.work.countdown = 2#32 ∧ t.samp.work.state = 2#2 ∧
    t.sampOut.items = [{ s := sOut 12 4, sig := false }] := by decide +kernel

/-- V13, step 2. -/
theorem test_saLast_v13 :
    let t := after (step (sampAt (s4 false 1#32) 2#2 1 1 30 1#32 [3, 4] []))
    t.samp.work.rd = 7#64 ∧ t.samp.work.state = 0#2 ∧ t.samp.work.timeoutCnt = 1#32 ∧
    t.sampOut.items = [{ s := sOut 7 4, sig := false }] ∧ t.samp.ctl.lastSel = 0x22#8 := by decide +kernel

/-- V17, step 2: a trigger wins over the last symbol of the countdown. -/
theorem test_saReacq_v17 :
    let t := after (step (sampAt (s4 false 1#32) 2#2 6 1 40 1#32 [9, 12] []))
    t.samp.work.rd = 9#64 ∧ t.samp.work.countdown = 1#32 ∧ t.samp.work.state = 2#2 ∧
    t.sampOut.items = [{ s := sOut 9 4, sig := true }] ∧ t.samp.ctl.lastSel = 0x23#8 := by decide +kernel

/-! ## FSYNC steps -/

/-- V30, step 1. -/
theorem test_fsIdle_v30 :
    let t := after (step (fsyncAt false { s := List.replicate 8 (cq 0 0), sig := false } [] FsyncWork.reset))
    t.fsync.work.rd = 1#64 ∧ t.fsync.work.state = 0#2 ∧ t.fsyncIn.items = [] := by decide +kernel

/-- V30, step 2, over dirty tracking state (V44). -/
theorem test_fsAcq_v30 :
    let t := after (step (fsyncAt false { s := List.replicate 8 (cq 1 0), sig := true }
      [tag 1 5 (tv 100 0x8000000000000000) 0, tag 1 4 0x1234 0x81]
      { FsyncWork.reset with rd := 1#64, phase := 0xF6000000#32, freq := 7#32, hdr := 0x50025003#32, hdrCnt := 4#3, pkN := 3#4 }))
    t.fsync.work = { q8Work with
      state := 1#2, rd := 2#64, tsValid := true, tsSecs := 100#64, tsFrac := 0x8000000000000000#64, cfoValid := true,
      cfoVal := 0x1234#64 } := by decide +kernel

/-- V37: a missing tag under policy 1. -/
theorem test_fsAcq_v37 :
    let t := after (step (fsyncAt true { s := List.replicate 8 (cq 1 0), sig := true } [tag 0 5 (tv 1 0) 0] FsyncWork.reset))
    t.fsync.ctl.faultCode = 5#8 ∧ t.fsync.ctl.faultInfo = 2#32 ∧ t.fsync.work = FsyncWork.reset := by decide +kernel

/-- V30, step 6: the fourth header byte. -/
theorem test_fsHdr_v30 :
    let t := after (step (fsyncAt false { s := sym (cq 0 1) (cq 1 0) (cq 1 0) (cq 1 0), sig := false } []
      { q8Work with state := 1#2, hdr := 0x00500250#32, hdrCnt := 3#3 }))
    t.fsync.work = { q8Work with
      state := 2#2, rd := 1#64, hdr := 0x50025002#32, hdrCnt := 4#3, pktLen := 2#12, whit := 5#4 } := by decide +kernel

/-- V35: a bad header. -/
theorem test_fsHdr_v35 :
    let t := after (step (fsyncAt false { s := sym (cq 0 (-1)) (cq 1 0) (cq 1 0) (cq 1 0), sig := false } []
      { q8Work with state := 1#2, hdr := 0x00500250#32, hdrCnt := 3#3 }))
    t.fsync.work.hdr = 0x50025003#32 ∧ t.fsync.work.badhdrCnt = 1#32 ∧ t.fsync.work.state = 0#2 ∧ t.msgq = [] := by
  decide +kernel

/-- V30, step 8: the last payload byte. -/
theorem test_fsPay_v30 :
    let t := after (step (fsyncAt false { s := sym (cq 1 0) (cq 0 (-1)) (cq 0 (-1)) (cq 1 0), sig := false } []
      { q8Work with
        state := 2#2, hdr := 0x50025002#32, hdrCnt := 4#3, pktLen := 2#12, whit := 5#4, pktCnt := 1#12, pkt := [(0, 0xA5#8)] }))
    t.fsync.work.state = 0#2 ∧ t.fsync.work.frameCnt = 1#32 ∧
    t.msgq.map Frame.words = [[0#32, 5#32, 0#32, 0#32, 0#32, 0#32, 0#32, 0#32, 0#32, 0#32, 2#32, 0x3CA5#32]] := by
  decide +kernel

/-- V34, the second symbol of three-bit patterns: the residue crosses symbols. -/
theorem test_pack_v34 :
    packAll 3 [1#8, 2#8, 3#8] { bits := 1#15, n := 1#4 } = ({ bits := 1#15, n := 2#4 }, [0xA3#8]) := by decide +kernel

/-! ## PINS steps -/

theorem test_piDrop_v50 :
    let t := after (step (pinsAt 0#2 0 0 0#8 [{ s := [cx 100 0, cx 101 0], bs := false, aux := true }, v50s1] []))
    t.pins.work.rd = 1#64 ∧ t.pinsOut.items = [] ∧ t.pinsIn.items = [v50s1] ∧ t.pins.ctl.lastSel = 0x80#8 := by decide +kernel
theorem test_piDetect_v50 :
    let t := after (step (pinsAt 0#2 1 0 0#8 [v50s1] v50tags))
    t.pins.work.state = 1#2 ∧ t.pins.work.rd = 1#64 ∧ t.pinsIn.items = [v50s1] ∧ t.pinsOut.items = [] := by decide +kernel
theorem test_piPre_v50 :
    let t := after (step (pinsAt 1#2 1 0 0#8 [v50s1] v50tags))
    t.pins.work.preIdx = 1#8 ∧ t.pinsOut.items = [{ s := [cx 1 0, cx 2 0], aux := false }] ∧
    t.pinsOut.tags = [tag 0 1 0 2, tag 0 3 (tv 8 0x4000000000000000) 0x80] := by decide +kernel
theorem test_piPrel_v50 :
    let t := after (step (pinsAt 1#2 1 1 1#8 [v50s1] v50tags))
    t.pins.work.preIdx = 2#8 ∧ t.pins.work.state = 2#2 ∧ t.pinsOut.items = [{ s := [cx 3 0, cx 4 0], aux := false }] ∧
    t.pinsOut.tags = [] := by decide +kernel
theorem test_piFirst_v50 :
    let t := after (step (pinsAt 2#2 1 2 2#8 [v50s1] v50tags))
    t.pins.work.state = 3#2 ∧ t.pins.work.rd = 2#64 ∧ t.pins.work.wr = 3#64 ∧
    t.pinsOut.items = [{ s := v50s1.s, aux := false }] ∧ t.pinsOut.tags = [] := by decide +kernel
theorem test_piCopy_v50 :
    let t := after (step (pinsAt 3#2 2 3 2#8 [v50s2] []))
    t.pins.work.rd = 3#64 ∧ t.pins.work.wr = 4#64 ∧ t.pinsOut.items = [{ s := v50s2.s, aux := true }] := by decide +kernel
theorem test_piRedetect_v50 :
    let t := after (step (pinsAt 3#2 3 4 2#8 [v50s1] []))
    t.pins.work.state = 1#2 ∧ t.pins.work.preIdx = 0#8 ∧ t.pins.work.rd = 3#64 ∧ t.pinsOut.items = [] := by decide +kernel

/-! ## CPFX steps -/

/-- V61, step 1. -/
theorem test_cpSym_v61 :
    let t := after (step (cpfxAt 4#32 6#32 0 0 { s := [cx 10 0, cx 11 0, cx 12 0, cx 13 0], eob := false } [tag 0 1 0 2]))
    t.cpfxOut.items = [cx 12 0, cx 13 0, cx 10 0, cx 11 0, cx 12 0, cx 13 0] ∧ t.cpfxOut.tags = [tag 0 1 0 2] ∧
    t.cpfx.work = { rd := 1#64, wr := 6#64 } := by decide +kernel
/-- V63. -/
theorem test_cpEob_v63 :
    let t := after (step (cpfxAt 4#32 6#32 3 18 { s := [cx 20 0, cx 21 0, cx 22 0, cx 23 0], eob := true }
      [tag 2 1 0 2, tag 3 3 (tv 9 0) 0x80, tag 3 7 0xDEAD 0x90, tag 3 1 0 2]))
    t.cpfxOut.tags = [tag 18 3 (tv 9 0) 0x80, tag 18 7 0xDEAD 0x90, tag 18 1 0 2, tag 23 2 0 3] := by decide +kernel
/-- V62: the smallest symbol. -/
theorem test_cpEob_v62 :
    let t := after (step (cpfxAt 1#32 2#32 0 0 { s := [cx 10 0], eob := true } []))
    t.cpfxOut.items = [cx 10 0, cx 10 0] ∧ t.cpfxOut.tags = [tag 1 2 0 3] := by decide +kernel

/-! ## System operations -/

/-- V81. -/
theorem test_commit_refused_v81 :
    let t := after (step (writing State.reset 0x00100#20 1#32))
    t.samp.ctl.cfgErr = true ∧ t.samp.ctl.cfgErrCode = 0x13#8 ∧ t.samp.ctl.en = false ∧ irqStatus t = 1#4 := by decide +kernel
/-- V85: `0xFFFFFFFD` commits. -/
theorem test_commit_v85 :
    let t := after (step (writing sampConfigured 0x00100#20 0xFFFFFFFD#32))
    t.samp.ctl.en = true ∧ t.samp.cfg = s4 false 3#32 ∧ t.samp.ctl.cfgErr = false := by decide +kernel
/-- V85: `0` stops. -/
theorem test_stop_v85 :
    let t := after (step (writing (sampAt (s4 false 3#32) 0#2 24 4 30 0#32 [] []) 0x00100#20 0#32))
    t.samp.ctl.en = false ∧ t.samp.work.rd = 24#64 := by decide +kernel
/-- V85: `3` resets. -/
theorem test_srst_v85 :
    let t := after (step (writing (sampAt (s4 false 3#32) 0#2 24 4 30 0#32 [] []) 0x00100#20 3#32))
    t.samp.ctl = Ctl.reset ∧ t.samp.work = SampWork.reset ∧ t.samp.cfg = s4 false 3#32 := by decide +kernel
/-- V84: a write while enabled. -/
theorem test_cfgwr_v84 :
    let t := after (step (writing (sampAt (s4 false 3#32) 0#2 0 0 0 0#32 [] []) 0x00140#20 64#32))
    t.samp.reg.fftLen = 0#32 ∧ t.samp.ctl.cfgWrIgn = true := by decide +kernel
/-- A table word is stored low byte first. -/
theorem test_cfgwr_table :
    let t := after (step (writing State.reset 0x01000#20 0x66400001#32))
    t.mem = [(0x1000, 0x01#8), (0x1001, 0x00#8), (0x1002, 0x40#8), (0x1003, 0x66#8)] := by decide +kernel
/-- V84: clearing `CFG_WR_IGN`. -/
theorem test_w1c_v84 :
    let t := after (step (writing { State.reset with samp := { Samp.reset with ctl := { running with cfgWrIgn := true } } }
      0x00104#20 0x80#32))
    t.samp.ctl = running := by decide +kernel
/-- V80: `PARAMS0`. -/
theorem test_read_v80 : (after (step (reading State.reset 0x00004#20))).rdata = 0x10201000#32 := by decide +kernel
/-- V84: `STATUS`. -/
theorem test_read_v84 :
    (after (step (reading { State.reset with samp := { Samp.reset with ctl := { running with cfgWrIgn := true } } }
      0x00104#20))).rdata = 0x90#32 := by decide +kernel

/-! ## Placing one operation of the table -/

theorem test_placed_selectors :
    (List.all [0x00, 0x01, 0x02, 0x03, 0x20, 0x21, 0x22, 0x23, 0x40, 0x41, 0x50, 0x51, 0x60, 0x61, 0x80, 0x81, 0x90, 0x92, 0xA0,
      0xB0, 0xB1, 0xC0, 0xC1] fun w =>
        let s := State.reset.withFetchWord 8 w
        let e := selEngine (BitVec.ofNat 8 w)
        enabled s e && selector s e == BitVec.ofNat 8 w && decide (s.agenda = [.step e])) = true := by decide +kernel

/-! ## A witness for each statement with hypotheses -/

/-- A placed operation: SA.ACQ, FS.HDR, PI.DETECT, CP.SYM of the table. -/
def placed (w : Nat) : State := State.reset.withFetchWord 8 w

theorem witness_DecodeEncodeRoundTrip : (Instr.sysCfgwr 0x80000#20 5#32).wf = true ∧ (Instr.sysCommit .samp 1#32).wf = true := by
  decide
theorem witness_DecodedCodeIsItsEncoding :
    decode (.sel 0xA3#8) = .ok (.piFirst true true) ∧ decode (.bus (busWrite 0xFFFFC#20 1#32)) = .ok (.sysCfgwr 0xFFFFC#20 1#32) := by
  decide
theorem witness_StepRunsDecodedOperation :
    (placed 0x01).agenda = .step .samp :: [] ∧ enabled (placed 0x01) .samp = true ∧
    decodeSel (selector (placed 0x01) .samp) = .ok (.saAcq false) ∧
    (writing State.reset 0x00100#20 1#32).agenda = .bus (busWrite 0x00100#20 1#32) :: [] ∧
    decodeBus (busWrite 0x00100#20 1#32) = .ok (.sysCommit .samp 1#32) := by decide +kernel
/-- Each way of being held, at the boundary: nine samples where ten are needed, no room, no queue room, one sample of room short. -/
theorem witness_HeldEngineDoesNothing :
    (sampAt (s4 false 3#32) 0#2 0 0 9 0#32 [] []).agenda = .step .samp :: [] ∧
    held (sampAt (s4 false 3#32) 0#2 0 0 9 0#32 [] []) .samp ∧
    held { placed 0x50 with qroom := some 0 } .fsync ∧
    held { placed 0x81 with pinsOut := { OutPort.empty with space := some 0 } } .pins ∧
    held { cpfxAt 4#32 6#32 0 0 { s := [], eob := false } [] with cpfxOut := { OutPort.empty with space := some 5 } } .cpfx ∧
    ¬ held { cpfxAt 4#32 6#32 0 0 { s := [], eob := false } [] with cpfxOut := { OutPort.empty with space := some 6 } } .cpfx := by
  refine ⟨rfl, .inr (.inr (.inl (by decide +kernel))), .inr (.inr (.inr (by decide +kernel))), .inr (.inr (.inr rfl)),
    .inr (.inr (.inr ⟨5, rfl, by decide⟩)), ?_⟩
  rintro (h | h | h | ⟨k, hk, h⟩)
  · cases h
  · cases h
  · cases h
  · cases hk
    exact absurd h (by decide)
theorem witness_ReservedStateTakesFault :
    (sampAt (s4 false 3#32) 1#2 0 0 10 0#32 [] []).agenda = .step .samp :: [] ∧
    enabled (sampAt (s4 false 3#32) 1#2 0 0 10 0#32 [] []) .samp = true ∧
    enabled (sampAt (s4 false 3#32) 3#2 0 0 10 0#32 [] []) .samp = true ∧
    enabled (fsyncAt false { s := [], sig := true } [] { q8Work with state := 3#2 }) .fsync = true := by decide +kernel
theorem witness_RefusedBusAccessChangesNothing :
    ((0x00142#20 : BusAddr).toNat % 4 ≠ 0) ∧ ctrlAt 0x00104#20 = none ∧ isCfgWord 0x00104#20 = false ∧
    (0x7F#32 : Word).getLsbD 7 = false ∧ ctrlAt 0x00000#20 = none ∧ isCfgWord 0x00000#20 = false ∧ statusAt 0x00000#20 = none ∧
    (writing State.reset 0x00104#20 0x7F#32).agenda = .bus (busWrite 0x00104#20 0x7F#32) :: [] := by decide +kernel

/-- `timeAccepted` of states whose last time tag is at index 0, or elsewhere under policy 1, or missing. -/
theorem witness_SaScanResult :
    timeAccepted (sampAt (s4 false 3#32) 0#2 0 0 60 0#32 [] [tag 0 3 (tv 100 0) 0x80]) 6 ∧
    timeAccepted (sampAt (s4 true 3#32) 0#2 0 0 60 0#32 [] [tag 5 3 (tv 100 0) 0x80]) 6 ∧
    timeAccepted (sampAt (s4 false 3#32) 0#2 0 0 60 0#32 [] [tag 6 3 (tv 100 0) 0x80]) 6 := by
  refine ⟨?_, fun _ _ _ => rfl, ?_⟩
  · intro t ht hi
    have : lastTag [tag 0 3 (tv 100 0) 0x80] 0#64 6 3#3 = some (tag 0 3 (tv 100 0) 0x80) := by decide +kernel
    have e : t = tag 0 3 (tv 100 0) 0x80 := Option.some.inj (ht.symm.trans this)
    exact absurd (by rw [e]; decide) hi
  · intro t ht _
    have : lastTag [tag 6 3 (tv 100 0) 0x80] 0#64 6 3#3 = none := by decide +kernel
    exact absurd (ht.symm.trans this) (by simp)

theorem witness_SaRegularSymbol :
    timeAccepted (sampAt (s4 false 3#32) 2#2 6 1 16 3#32 [] []) 6 ∧
    (4 + 6 ≤ (sampAt (s4 false 3#32) 2#2 6 1 16 3#32 [] []).sampIn.items.length) := by
  refine ⟨?_, by decide +kernel⟩
  intro t ht _
  have : lastTag [] 6#64 6 3#3 = none := by decide +kernel
  exact absurd (ht.symm.trans this) (by simp)

/-- The trigger at either end of the scan region. -/
theorem witness_SaTriggerSymbol :
    (∀ k ∈ [0, 5], let s := sampAt (s4 false 3#32) 0#2 0 0 10 0#32 [4 + k] []
      4 + 6 ≤ s.sampIn.items.length ∧ k < 6 ∧ (s.sampIn.items[4 + k]?.map fun x => x.trig) = some true ∧
      (∀ j < k, (s.sampIn.items[4 + j]?.map fun x => x.trig) = some false) ∧
      lastTag s.sampIn.tags s.samp.work.rd (k + 1) 3#3 = none) := by decide +kernel

theorem witness_SampTagIngestion :
    lastTag (sampAt (s4 false 3#32) 0#2 0 0 60 0#32 [] [tag 3 3 (tv 7 0) 0x80]).sampIn.tags 0#64 6 3#3 =
      some (tag 3 3 (tv 7 0) 0x80) ∧
    (tag 3 3 (tv 7 0) 0x80).index ≠ 0#64 ∧
    timeAccepted (sampAt (s4 true 3#32) 0#2 0 0 60 0#32 [] [tag 3 3 (tv 7 0) 0x80]) 6 :=
  ⟨by decide +kernel, by decide, fun _ _ _ => rfl⟩

theorem witness_SampOffsetViolationFaults :
    let s := sampAt (s4 false 3#32) 0#2 0 0 60 0#32 [7] [tag 3 3 (tv 7 0) 0x80]
    s.samp.cfg.policy = false ∧
    lastTag s.sampIn.tags s.samp.work.rd s.samp.cfg.symLen.toNat 3#3 = some (tag 3 3 (tv 7 0) 0x80) ∧
    lastTag s.sampIn.tags s.samp.work.rd (scanConsumed s) 3#3 = some (tag 3 3 (tv 7 0) 0x80) ∧ scanConsumed s = 4 := by
  decide +kernel

theorem witness_StepKeepsSampInvariant :
    SampInv (placed 0x20) ∧ step (placed 0x20) = .next (after (step (placed 0x20))) ∧
    (after (step (placed 0x20))).samp.work.countdown = 1#32 := by
  refine ⟨?_, next_after (by decide +kernel), by decide +kernel⟩
  unfold SampInv CtlOk
  decide +kernel

theorem witness_FsAcqResult :
    let s := fsyncAt true { s := [], sig := true } [tag 0 5 0 0, tag 0 4 0 0] FsyncWork.reset
    (tagQuery s.fsyncIn.tags 0#64 1#64 5#3).getLast? ≠ none ∧ (tagQuery s.fsyncIn.tags 0#64 1#64 4#3).getLast? ≠ none ∧
    (fsyncAt false { s := [], sig := true } [] FsyncWork.reset).fsync.cfg.policy = false := by decide +kernel

theorem witness_FsAcqStaleTagFaults :
    let s := fsyncAt true { s := [], sig := true } [tag 1 5 0 0, tag 0 4 0 0] FsyncWork.reset
    s.fsync.cfg.policy = true ∧ tagQuery s.fsyncIn.tags 0#64 1#64 5#3 = [] := by decide +kernel

/-- FSYNC about to demodulate the symbol of byte `0x02` or `0x00` of Q8, with a header of `n` bytes. -/
def hdrAt (a : Cplx) (hdr : Word) (n : BitVec 3) : State :=
  fsyncAt false { s := sym a (cq 1 0) (cq 1 0) (cq 1 0), sig := false } [] { q8Work with state := 1#2, hdr := hdr, hdrCnt := n }

/-- All four clauses, each with the header one byte short or complete, at lengths 0 and 2. -/
theorem witness_FsHdrResult :
    (demap (hdrAt (cq 0 1) 0x50#32 2#3)).2 = [0x02#8] ∧ (demap (hdrAt (cq 0 1) 0x00500250#32 3#3)).2 = [0x02#8] ∧
    hdrOk (shiftHeader 0x00500250#32 [0x02#8]) = true ∧ hdrLen (shiftHeader 0x00500250#32 [0x02#8]) = 2#12 ∧
    hdrOk (shiftHeader 0x00500250#32 [0x00#8]) = false ∧
    (demap (hdrAt (cq 1 0) 0x00500050#32 3#3)).2 = [0x00#8] ∧ hdrOk (shiftHeader 0x00500050#32 [0x00#8]) = true ∧
    hdrLen (shiftHeader 0x00500050#32 [0x00#8]) = 0#12 := by decide +kernel

/-- A payload of declared length `len`, its first `n` bytes stored. -/
def payAt (len n : BitVec 12) (pkt : List Host.Cell) : State :=
  fsyncAt false { s := sym (cq 0 1) (cq 1 0) (cq 1 0) (cq 1 0), sig := false } []
    { q8Work with state := 2#2, pktLen := len, pktCnt := n, pkt := pkt }

/-- Both clauses: one byte short of the declared length, and reaching it; nothing stored before, and one byte. -/
theorem witness_FsPayResult :
    (payAt 3#12 1#12 [(0, 0xA5#8)]).fsync.work.pktCnt < (payAt 3#12 1#12 [(0, 0xA5#8)]).fsync.work.pktLen ∧
    (∀ n < 1, Memory.read (payAt 3#12 1#12 [(0, 0xA5#8)]).fsync.work.pkt n = [0xA5#8][n]?) ∧
    (demap (payAt 3#12 1#12 [(0, 0xA5#8)])).2.length + 1 = 2 ∧
    (payAt 1#12 0#12 []).fsync.work.pktCnt < (payAt 1#12 0#12 []).fsync.work.pktLen ∧
    (demap (payAt 1#12 0#12 [])).2.length = 1 := by decide +kernel

theorem witness_SliceIsLowestNearest : q8Refs ≠ [] ∧ slice q8Refs (cq 0 1) = 2 := by decide +kernel

theorem witness_PackingLosesNoBit :
    (3 ≤ 8) ∧ (7#4 : BitVec 4).toNat ≤ 7 ∧ (0x7F#15 : BitVec 15).toNat < 2 ^ (7#4 : BitVec 4).toNat ∧
    (∀ v ∈ [7#8, 5#8, 0#8], v.toNat < 2 ^ 3) ∧ (packAll 3 [7#8, 5#8, 0#8] { bits := 0x7F#15, n := 7#4 }).2.length = 2 := by
  decide +kernel

theorem witness_UnityChannelKeepsTracking :
    let s := hdrAt (cq 0 1) 0#32 0#3
    s.fsync.work.phase = 0#32 ∧ s.fsync.work.freq = 0#32 ∧ s.fsync.work.taps = List.replicate s.fsync.map.length unity ∧
    (∀ m ∈ s.fsync.map, ∃ x ∈ s.fsync.refs, (fsyncItem s).s[m.toNat]? = some x ∧ Config.eqNormMin < norm2 x) := by
  decide +kernel

theorem witness_StepKeepsFsyncInvariant :
    FsyncInv (placed 0x60) ∧ step (placed 0x60) = .next (after (step (placed 0x60))) ∧
    (after (step (placed 0x60))).fsync.work.pkN = 1#4 := by
  refine ⟨?_, next_after (by decide +kernel), by decide +kernel⟩
  unfold FsyncInv CtlOk FsyncCfgOk
  refine ⟨?_, ?_, ?_, ?_, ?_, ?_, ?_, ?_, ?_⟩ <;> decide +kernel

theorem witness_FrameSerialisation : ([1#8, 2#8, 3#8, 4#8, 5#8] : List Byte)[4]? = some 5#8 := by decide

/-- The first preamble symbol, and the last one. -/
theorem witness_PiPreambleResult :
    (∀ k ∈ [0, 1], let s := pinsAt 1#2 1 0 (BitVec.ofNat 8 k) [v50s1] v50tags
      s.pinsIn.items = v50s1 :: [] ∧ (s.pins.pre[s.pins.work.preIdx.toNat]?.map List.length) = some s.pins.cfg.fftLen.toNat) := by
  decide +kernel
theorem witness_PiCopyResult :
    let s := pinsAt 2#2 1 2 2#8 [v50s1, v50s2] v50tags
    s.pinsIn.items = v50s1 :: [v50s2] ∧ v50s1.s.length = s.pins.cfg.fftLen.toNat := by decide +kernel

/-- PINS with set-up V50 in state `st`, a flagged symbol pending and four turns ahead. -/
def pinsTurns (st : BitVec 2) : State :=
  { pinsAt st 1 0 0#8 [v50s1] v50tags with agenda := List.replicate 4 (.step .pins) ++ [] }

theorem pinsTurns_inv (st : BitVec 2) (h : st = 0#2 ∨ st = 3#2) : PinsInv (pinsTurns st) := by
  refine ⟨?_, ?_, ?_, ?_⟩
  · unfold CtlOk
    exact ⟨fun e => (by cases e), fun _ => rfl, fun _ => ⟨rfl, rfl⟩⟩
  · intro _
    rcases h with rfl | rfl <;> exact ⟨by decide +kernel, by decide +kernel, by decide +kernel⟩
  · intro e
    rcases h with rfl | rfl <;> cases e
  · intro e
    rcases h with rfl | rfl <;> cases e

theorem witness_StepKeepsPinsInvariant :
    PinsInv (pinsTurns 0#2) ∧ step (pinsTurns 0#2) = .next (after (step (pinsTurns 0#2))) ∧
    (after (step (pinsTurns 0#2))).pins.work.state = pinsPreamble :=
  ⟨pinsTurns_inv _ (.inl rfl), next_after (by decide +kernel), by decide +kernel⟩

/-- From IDLE and from PAYLOAD. -/
theorem witness_PreambleThenPayload :
    PinsInv (pinsTurns 0#2) ∧ PinsInv (pinsTurns 3#2) ∧ (pinsTurns 3#2).pins.ctl.en = true ∧
    (pinsTurns 3#2).pins.ctl.fault = false ∧ (pinsTurns 3#2).pinsIn.items = v50s1 :: [] ∧ v50s1.bs = true ∧
    v50s1.s.length = (pinsTurns 3#2).pins.cfg.fftLen.toNat ∧ (pinsTurns 3#2).pinsOut.space = none ∧
    (pinsTurns 3#2).agenda = List.replicate ((pinsTurns 3#2).pins.cfg.nPre.toNat + 2) (.step .pins) ++ [] :=
  ⟨pinsTurns_inv _ (.inl rfl), pinsTurns_inv _ (.inr rfl), rfl, rfl, rfl, rfl, rfl, rfl, rfl⟩

/-- The least room that suffices. -/
theorem witness_PreambleThenPayload_bounded :
    let s : State := { pinsTurns 3#2 with pinsOut := { (OutPort.empty : OutPort AuxSymbol) with space := some 3 } }
    PinsInv s ∧ s.pins.cfg.nPre.toNat + 1 = 3 ∧ (∀ k, s.pinsOut.space = some k → s.pins.cfg.nPre.toNat + 1 ≤ k) :=
  ⟨pinsTurns_inv _ (.inr rfl), by decide, fun k h => by cases h; decide⟩

/-- No prefix, and a prefix as long as the symbol. -/
theorem witness_CpResult :
    (∀ n ∈ [2, 3, 4], let s := cpfxAt 2#32 (BitVec.ofNat 32 n) 0 0 { s := [cx 10 0, cx 11 0], eob := true } []
      s.cpfxIn.items = { s := [cx 10 0, cx 11 0], eob := true } :: [] ∧ s.cpfx.cfg.inSize.toNat ≤ s.cpfx.cfg.outSize.toNat ∧
      s.cpfx.cfg.outSize.toNat ≤ 2 * s.cpfx.cfg.inSize.toNat ∧ s.cpfx.cfg.inSize.toNat = 2) := by decide +kernel

theorem witness_StepKeepsCpfxInvariant :
    CpfxInv (cpfxAt 4#32 6#32 3 18 { s := [cx 0 0, cx 0 0, cx 0 0, cx 0 0], eob := true } []) ∧
    isNext (step (cpfxAt 4#32 6#32 3 18 { s := [cx 0 0, cx 0 0, cx 0 0, cx 0 0], eob := true } [])) = true := by
  refine ⟨?_, by decide +kernel⟩
  unfold CpfxInv CtlOk
  decide +kernel

/-- V70: the range `[4, 5)`, and the last index of all. -/
theorem witness_TagQueryIsHalfOpen :
    (4#64 : Dword) ≤ 5#64 ∧ (1#3 : BitVec 3) ≠ 0#3 ∧ tagQuery [tag 0 1 0 2, tag 4 1 0 2] 4#64 5#64 1#3 = [tag 4 1 0 2] ∧
    tagQuery [tag 0 1 0 2, tag 4 1 0 2] 0#64 4#64 1#3 = [tag 0 1 0 2] ∧
    tagQuery [tag (2 ^ 64 - 1) 1 0 2] (-1#64) (-1#64 + 1#64) 1#3 = [tag (2 ^ 64 - 1) 1 0 2] := by decide +kernel

theorem witness_TagsAndOutputsOnlyGrow :
    (placed 0x01).samp.ctl.en = true ∧ (placed 0x40).fsync.ctl.en = true ∧ (placed 0xA0).pins.ctl.en = true ∧
    (placed 0xC1).cpfx.ctl.en = true ∧ isNext (step (placed 0x01)) = true ∧ isNext (step (placed 0x40)) = true ∧
    isNext (step (placed 0xA0)) = true ∧ isNext (step (placed 0xC1)) = true := by decide +kernel

theorem witness_StepKeepsStreamCounters :
    StreamInv (placed 0x20) ∧ isNext (step (placed 0x20)) = true ∧ (after (step (placed 0x20))).sampOut.items.length = 1 := by
  refine ⟨?_, by decide +kernel, by decide +kernel⟩
  unfold StreamInv
  decide +kernel

/-- A frame is enqueued, and one is taken. -/
theorem witness_MessageQueueIsFifo :
    isNext (step (hdrAt (cq 1 0) 0x00500050#32 3#3)) = true ∧ (after (step (hdrAt (cq 1 0) 0x00500050#32 3#3))).msgq.length = 1 ∧
    (after (step { after (step (hdrAt (cq 1 0) 0x00500050#32 3#3)) with agenda := [.dequeue] })).msgq = [] := by decide +kernel

/-- The enabled and the disabled consumer, both relays, and nothing to relay. -/
theorem witness_RelayKeepsFlagAndTags_tx :
    let out : OutPort AuxSymbol := { (OutPort.empty : OutPort AuxSymbol) with items := [{ s := [], aux := true }], tags := [tag 0 1 0 2] }
    let s : State := { placed 0xC0 with pinsOut := out, agenda := [.relayTx []] }
    let u : State := { State.reset with pinsOut := out, agenda := [.relayTx []] }
    s.agenda = .relayTx [] :: [] ∧ s.cpfx.ctl.en = true ∧ s.pinsOut.items[s.pinsOut.relayed]? = some { s := [], aux := true } ∧
    u.agenda = .relayTx [] :: [] ∧ u.cpfx.ctl.en = false ∧ u.pinsOut.items[u.pinsOut.relayed]? = some { s := [], aux := true } ∧
    (after (step s)).cpfxIn.items.getLast? = some { s := [], eob := true } ∧
    (after (step u)).cpfxIn.staged = [{ s := [], eob := true }] ∧ (after (step u)).cpfxIn.stagedTags = [tag 0 1 0 2] ∧
    State.reset.sampOut.items[State.reset.sampOut.relayed]? = none := by
  decide +kernel

theorem witness_RelayKeepsFlagAndTags :
    let s : State := { placed 0x40 with
      sampOut := { (OutPort.empty : OutPort SigSymbol) with items := [{ s := [], sig := true }], tags := [tag 0 5 0 0] }, agenda := [.relayRx []] }
    s.agenda = .relayRx [] :: [] ∧ s.fsync.ctl.en = true ∧ s.sampOut.items[s.sampOut.relayed]? = some { s := [], sig := true } := by
  decide +kernel

/-- The three cases: enabled, refused, accepted. -/
theorem witness_CommitResult :
    ((placed 0x00).ctlOf .samp).en = true ∧ (State.reset.ctlOf .cpfx).en = false ∧ validate State.reset .cpfx = 0x1C#8 ∧
    (sampConfigured.ctlOf .samp).en = false ∧ validate sampConfigured .samp = 0#8 := by decide +kernel

/-- FSYNC, PINS and CPFX with legal configurations, not yet committed: one subcarrier, two points; sixteen preamble symbols of one sample. -/
def restConfigured : State :=
  { State.reset with
    fsync := { Fsync.reset with
      reg := { FsyncRegs.reset with fftLen := 1#32, occCarriers := 1#32, constNpoints := 2#32, constNvalues := 2#32 } }
    pins := { Pins.reset with reg := { fftLen := 1#32, nPre := 16#32, preSymLen := 1#32 } }
    cpfx := { Cpfx.reset with reg := { inSize := 1#32, outSize := 2#32 } }
    mem := Memory.writeWord (Memory.writeWord (Memory.writeWord [] 0x1000 0x80000000#32) 0x1C00 0#32) 0x1C04 1#32 }

/-- The other engines' accepted commits, and a table word that was written. -/
theorem witness_CommitResult_rest :
    (∀ e ∈ [Engine.fsync, .pins, .cpfx], (restConfigured.ctlOf e).en = false ∧ validate restConfigured e = 0#8) ∧
    Memory.readWord restConfigured.mem 0x1C04 = some 1#32 ∧
    (commit restConfigured .fsync).fsync.map = [0#12] ∧ (commit restConfigured .fsync).fsync.vals = [0#8, 1#8] ∧
    sampCpLen (commit sampConfigured .samp).samp + sampConfigured.samp.reg.fftLen = sampConfigured.samp.reg.symLen := by
  decide +kernel

/-- A commit that fails two checks records the first one's code (45_system_ops.md R332, R340). -/
theorem test_first_failing_check :
    validate { restConfigured with pins := { Pins.reset with reg := { fftLen := 4097#32, nPre := 17#32, preSymLen := 0#32 } } } .pins = 0x13#8 ∧
    validate { restConfigured with pins := { Pins.reset with reg := { fftLen := 4096#32, nPre := 17#32, preSymLen := 0#32 } } } .pins = 0x1B#8 := by
  decide +kernel

/-- A register and a table word, the last one of the map. -/
theorem witness_CfgWriteReadsBack :
    (Instr.sysCfgwr 0x0013C#20 3#32).wf = true ∧ (0x0013C#20 : BusAddr) ≠ irqEnableAddr ∧
    cfgRegAt 0x0013C#20 = some .sampPolicy ∧ (State.reset.ctlOf CfgReg.sampPolicy.owner).en = false ∧
    (Instr.sysCfgwr 0xFFFFC#20 3#32).wf = true ∧ cfgRegAt 0xFFFFC#20 = none ∧ tableAt 0xFFFFC#20 = some .pre ∧
    (State.reset.ctlOf Table.pre.owner).en = false := by decide +kernel

theorem witness_CfgWriteWhileEnabled :
    cfgRegAt 0x00140#20 = some .sampFftLen ∧ ((placed 0x00).ctlOf CfgReg.sampFftLen.owner).en = true ∧
    cfgRegAt 0x01400#20 = none ∧ tableAt 0x01400#20 = some .constRe ∧ ((placed 0x40).ctlOf Table.constRe.owner).en = true := by
  decide +kernel

/-- A word that is found, and one that was never written. -/
theorem witness_ReadHasNoSideEffect :
    regRead State.reset 0x00004#20 = some 0x10201000#32 ∧ regRead State.reset 0x01400#20 = none := by decide +kernel

/-- Table words at the ends of their windows, the first and the last tap; and addresses that hold nothing: unlisted offsets of a
bank, both sides of the tap window, an unaligned one. -/
theorem witness_ReadHasNoSideEffect_registers :
    (aligned 0x01000#20 = true ∧ tableAt 0x01000#20 = some .carrierMask ∧ aligned 0xFFFFC#20 = true ∧ tableAt 0xFFFFC#20 = some .pre) ∧
    (placed 0x40).fsync.map.length = 1 ∧ (placed 0x40).fsync.work.taps[0]? = some unity ∧
    regRead (placed 0x40) 0x08000#20 = some 0x10000#32 ∧ regRead (placed 0x40) 0x0FFFC#20 = some 0#32 := by decide +kernel
theorem witness_ReadHasNoSideEffect_holes :
    [(0x00128#20 : BusAddr), 0x004FC#20, 0x07FFC#20, 0x10000#20, 0x00101#20].all (fun a =>
      (tableAt a).isNone && (decide (a.toNat < 0x8000) || decide (0x10000 ≤ a.toNat)) &&
        (registerFile State.reset).all (fun p => p.1 != a)) = true := by decide +kernel

/-- 00_scope.md R22, R30; 41_frame_sync.md R243: the smallest divisor, both sides of the threshold, the smallest rate. -/
theorem witness_ArithmeticOnIntegers :
    (cx 1 0 ≠ { re := 0#32, im := 0#32 }) ∧ (2072 * 2072 + 0 * 0 : Int) ≤ 4294967 ∧ (4294967 : Int) < 2073 * 2073 + 0 * 0 ∧
    0 < 1 ∧ cdiv (cx 65536 0) (cx 1 0) = cx 2147483647 0 ∧ eqUpdate 32768#32 unity (cx 2073 0) unity = cx 1068698 0 := by
  decide +kernel

/-- A configuration write of another engine, while SAMP is enabled. -/
theorem witness_ConfigurationFrozenWhileEnabled :
    let s := writing (placed 0x00) 0x01400#20 7#32
    isNext (step s) = true ∧ (s.ctlOf .samp).en = true ∧ ((after (step s)).ctlOf .samp).en = true ∧
    (after (step s)).mem.length = 4 := by decide +kernel

/-- SAMP faulted by V14, its turn again. -/
def faultedSamp : State :=
  { after (step (sampAt (s4 false 3#32) 0#2 0 0 30 0#32 [] [tag 3 3 (tv 7 0) 0x80])) with agenda := [.step .samp] }

theorem witness_FaultedEngineIsFrozen :
    isNext (step faultedSamp) = true ∧ (faultedSamp.ctlOf .samp).en = true ∧ (faultedSamp.ctlOf .samp).fault = true ∧
    ((after (step faultedSamp)).ctlOf .samp).fault = true := by decide +kernel

theorem witness_OnlyCommitEnables :
    let s := writing sampConfigured 0x00100#20 0xFFFFFFFD#32
    isNext (step s) = true ∧ (s.ctlOf .samp).en = false ∧ ((after (step s)).ctlOf .samp).en = true := by decide +kernel

theorem witness_EngineStepTouchesOwnStateOnly :
    (placed 0x50).agenda = .step .fsync :: [] ∧ isNext (step (placed 0x50)) = true ∧
    (after (step (placed 0x50))).fsync.work.rd = 1#64 := by decide +kernel

/-- Two states that differ in everything but SAMP. -/
theorem witness_EngineStepsDoNotInterfere :
    let s := placed 0x01
    let s' : State := { placed 0x01 with irqEnable := 0xF#4, msgq := [frameOf FsyncWork.reset 0#4 []], draws := 3 }
    s.agenda = .step .samp :: [] ∧ s'.agenda = .step .samp :: [] ∧ agreeFor .samp s s' ∧ isNext (step s) = true ∧
    isNext (step s') = true := by
  refine ⟨rfl, rfl, ⟨rfl, rfl, rfl⟩, by decide +kernel, by decide +kernel⟩

theorem witness_W1cResult :
    (0xFFFFFF80#32 : Word).getLsbD 7 = true ∧ (0x7F#32 : Word).getLsbD 7 = false ∧
    (writing State.reset (baseOf .cpfx + 4#20) 0x7F#32).agenda = .bus (busWrite (baseOf .cpfx + 4#20) 0x7F#32) :: [] := by decide

theorem witness_HardwareResetResult :
    ({ placed 0x01 with agenda := [.hwReset] } : State).agenda = .hwReset :: [] := rfl

theorem witness_StepKeepsMemoryForm :
    let s := writing { State.reset with mem := [(0x1FFC, 1#8)] } 0x80000#20 7#32
    MemInv s ∧ isNext (step s) = true ∧ (after (step s)).mem.length = 5 := by
  refine ⟨?_, by decide +kernel, by decide +kernel⟩
  unfold MemInv
  decide +kernel

theorem witness_InternalFaultsAreUnreachable :
    let s := sampAt (s4 false 3#32) 0#2 0 0 30 0#32 [] [tag 3 3 (tv 7 0) 0x80]
    SampInv s ∧ FsyncInv s ∧ NoInternalFault s ∧ isNext (step s) = true ∧ (after (step s)).samp.ctl.faultCode = 1#8 := by
  refine ⟨?_, ?_, ?_, by decide +kernel, by decide +kernel⟩
  · unfold SampInv CtlOk
    decide +kernel
  · unfold FsyncInv CtlOk FsyncCfgOk
    refine ⟨?_, ?_, ?_, ?_, ?_, ?_, ?_, ?_, ?_⟩ <;> decide +kernel
  · unfold NoInternalFault
    decide +kernel

end Sys2Proof.Tests
end

/-! PROOFS. The family of 41_frame_sync.md: the slicer (R242) and FS.IDLE (R231). -/

namespace Sys2Proof.Proofs.FrameSync

open Sys2Proof Sys2Proof.Machine Sys2Proof.Claims Sys2Proof.Laws

/-! ## The slicer (41_frame_sync.md R242) -/

/-- `r` stands in the table at index `k`, and `k` is the smallest index of a nearest point to `z`. -/
structure LowestNearest (z : Cplx) (refs : List Cplx) (k : Nat) (r : Cplx) : Prop where
  at_index : refs[k]? = some r
  nearest : ∀ x ∈ refs, dist2 z r ≤ dist2 z x
  lower_farther : ∀ j < k, ∀ x, refs[j]? = some x → dist2 z r < dist2 z x

namespace LowestNearest

/-- The index is one of the table. -/
theorem index_lt {z r : Cplx} {refs : List Cplx} {k : Nat} (h : LowestNearest z refs k r) : k < refs.length :=
  (List.getElem?_eq_some_iff.mp h.at_index).1

theorem singleton (z r : Cplx) : LowestNearest z [r] 0 r where
  at_index := rfl
  nearest := by simp
  lower_farther := fun j hj => absurd hj (Nat.not_lt_zero j)

/-- A strictly nearer point at the end of the table takes over. -/
theorem append_nearer {z r y : Cplx} {refs : List Cplx} {k : Nat} (h : LowestNearest z refs k r)
    (hy : dist2 z y < dist2 z r) : LowestNearest z (refs ++ [y]) refs.length y where
  at_index := List.getElem?_concat_length
  nearest := by
    intro x hx
    rcases List.mem_append.mp hx with hx | hx
    · exact (hy.trans_le (h.nearest x hx)).le
    · rw [List.mem_singleton.mp hx]
  lower_farther := by
    intro j hj x hx
    rw [List.getElem?_append_left hj] at hx
    exact hy.trans_le (h.nearest x (List.mem_of_getElem? hx))

/-- A point at the end of the table that is not strictly nearer leaves the answer as it is. -/
theorem append_not_nearer {z r y : Cplx} {refs : List Cplx} {k : Nat} (h : LowestNearest z refs k r)
    (hy : ¬ dist2 z y < dist2 z r) : LowestNearest z (refs ++ [y]) k r where
  at_index := by rw [List.getElem?_append_left h.index_lt, h.at_index]
  nearest := by
    intro x hx
    rcases List.mem_append.mp hx with hx | hx
    · exact h.nearest x hx
    · rw [List.mem_singleton.mp hx]
      exact not_lt.mp hy
  lower_farther := by
    intro j hj x hx
    rw [List.getElem?_append_left (hj.trans h.index_lt)] at hx
    exact h.lower_farther j hj x hx

end LowestNearest

/-- The loop of `SLICE`: with the best point of the part `seen` in hand, it answers for the whole table. -/
theorem sliceFrom_lowestNearest {z : Cplx} (rest : List Cplx) {seen : List Cplx} {k : Nat} {r : Cplx}
    (h : LowestNearest z seen k r) :
    ∃ r', LowestNearest z (seen ++ rest) (sliceFrom z rest seen.length k (dist2 z r)) r' := by
  induction rest generalizing seen k r with
  | nil => exact ⟨r, by simpa [sliceFrom] using h⟩
  | cons y ys ih =>
    rw [sliceFrom, List.append_cons]
    split
    case isTrue hy => simpa using ih (h.append_nearer hy)
    case isFalse hy => simpa using ih (h.append_not_nearer hy)

/-- Settles O22: the loop of R242 keeps the lowest nearest point of the part of the table it has seen. -/
theorem sliceIsLowestNearest : Obligations.SliceIsLowestNearest := by
  intro refs z hne
  cases refs with
  | nil => exact absurd rfl hne
  | cons r rs =>
    obtain ⟨r', h⟩ := sliceFrom_lowestNearest rs (LowestNearest.singleton z r)
    exact ⟨r', h.at_index, h.nearest, h.lower_farther⟩

/-! ## FS.IDLE (41_frame_sync.md R231) -/

/-- The row of FS.IDLE in the operation table (30_encoding.md R162), over every byte. -/
theorem selRow_fsIdle_iff (b : Byte) : b &&& 0xFF#8 = 0x40#8 ↔ decodeSel b = .ok .fsIdle := by
  revert b; decide

/-- FSYNC selects FS.IDLE in SYNC_SEARCH on a symbol with `SIG = 0`, and only there. -/
theorem decodeSel_selector_fsIdle_iff (s : State) :
    decodeSel (selector s .fsync) = .ok .fsIdle ↔ s.fsync.work.state = 0#2 ∧ condSig s = false := by
  rw [selector, decodeSel_fsync]
  by_cases hst : s.fsync.work.state = 0#2
  · cases condSig s <;> simp [hst]
  · simp only [hst, if_false, false_and, iff_false]
    split_ifs <;> simp

theorem exec_fsIdle (s : State) : exec .fsIdle s = execFsIdle s := rfl

theorem sel_fsIdle : Instr.fsIdle.sel = 0x40#8 := by decide

/-- Settles O16: the row of the operation table from the decoder, the effect from the one way the step ends. -/
theorem fsIdleResult : Obligations.FsIdleResult := by
  refine ⟨⟨fun b => ?row, fun s => ?selected⟩, fun s => ?effect⟩
  case row => simpa using selRow_fsIdle_iff b
  case selected => exact (selRow_fsIdle_iff _).trans (decodeSel_selector_fsIdle_iff s)
  case effect =>
    rw [exec_fsIdle, execFsIdle, endStep_ok, sel_fsIdle]
    rfl

end Sys2Proof.Proofs.FrameSync

/-! PROOFS. The family of 42_preamble_inserter.md: PI.DETECT and PI.REDETECT (R282, R287), PI.PRE and PI.PREL (R283, R284, R289),
PI.FIRST and PI.COPY (R285, R286). -/

namespace Sys2Proof.Proofs.Pins

open Sys2Proof Sys2Proof.Machine Sys2Proof.Claims Sys2Proof.Laws

/-! ## The encodings (30_encoding.md R162) -/

/-- An encoding clause of PINS is two finite facts: which of the 256 bytes decode to the operation, its operands being `x`, and
which states and condition bits put the selector into its row. -/
theorem encodedBy_pins {α : Type} (f : α → Instr) {mtch mask : Byte} (formedIn : BitVec 2 → Bool → Bool → Prop)
    (decoded : ∀ b : Byte, b &&& mask = mtch ↔ ∃ x, decodeSel b = .ok (f x))
    (formed : ∀ st pl bs, selByte 2#2 st pl bs &&& mask = mtch ↔ formedIn st pl bs) :
    encodedBy .pins mtch mask (fun i => ∃ x, i = f x)
      (fun s => formedIn s.pins.work.state (condPl s) (condBs s)) := by
  refine ⟨fun b => (decoded b).trans ⟨?_, ?_⟩, fun s => formed _ _ _⟩
  · rintro ⟨x, hx⟩
    exact ⟨f x, hx, x, rfl⟩
  · rintro ⟨_, hx, x, rfl⟩
    exact ⟨x, hx⟩

theorem encodedBy_piDetect :
    encodedBy .pins 0x81#8 0xFD#8 (fun i => ∃ pl, i = .piDetect pl)
      (fun s => s.pins.work.state = 0#2 ∧ condBs s = true) :=
  encodedBy_pins Instr.piDetect (fun st _ bs => st = 0#2 ∧ bs = true) (by decide) (by decide)

theorem encodedBy_piRedetect :
    encodedBy .pins 0xB1#8 0xFD#8 (fun i => ∃ pl, i = .piRedetect pl)
      (fun s => s.pins.work.state = 3#2 ∧ condBs s = true) :=
  encodedBy_pins Instr.piRedetect (fun st _ bs => st = 3#2 ∧ bs = true) (by decide) (by decide)

theorem encodedBy_piPre :
    encodedBy .pins 0x90#8 0xFE#8 (fun i => ∃ bs, i = .piPre bs)
      (fun s => s.pins.work.state = 1#2 ∧ condPl s = false) :=
  encodedBy_pins Instr.piPre (fun st pl _ => st = 1#2 ∧ pl = false) (by decide) (by decide)

theorem encodedBy_piPrel :
    encodedBy .pins 0x92#8 0xFE#8 (fun i => ∃ bs, i = .piPrel bs)
      (fun s => s.pins.work.state = 1#2 ∧ condPl s = true) :=
  encodedBy_pins Instr.piPrel (fun st pl _ => st = 1#2 ∧ pl = true) (by decide) (by decide)

theorem encodedBy_piFirst :
    encodedBy .pins 0xA0#8 0xFC#8 (fun i => ∃ pl bs, i = .piFirst pl bs) (fun s => s.pins.work.state = 2#2) := by
  simpa only [Prod.exists] using
    encodedBy_pins (fun x : Bool × Bool => Instr.piFirst x.1 x.2) (fun st _ _ => st = 2#2) (by decide) (by decide)

theorem encodedBy_piCopy :
    encodedBy .pins 0xB0#8 0xFD#8 (fun i => ∃ pl, i = .piCopy pl)
      (fun s => s.pins.work.state = 3#2 ∧ condBs s = false) :=
  encodedBy_pins Instr.piCopy (fun st _ bs => st = 3#2 ∧ bs = false) (by decide) (by decide)

/-! ## How each operation ends: its state function, with the selector latched (60_exceptions.md R367) -/

theorem exec_piDetect (pl : Bool) (s : State) :
    exec (.piDetect pl) s = .next (latchSel (pinsDetect s) .pins (selByte 2#2 0#2 pl true)) := rfl

theorem exec_piRedetect (pl : Bool) (s : State) :
    exec (.piRedetect pl) s = .next (latchSel (pinsDetect s) .pins (selByte 2#2 3#2 pl true)) := rfl

theorem exec_piPre (bs : Bool) (s : State) :
    exec (.piPre bs) s = .next
      (latchSel (pinsPreambleStep s (s.pins.work.preIdx + 1#8) 1#2) .pins (selByte 2#2 1#2 false bs)) := rfl

theorem exec_piPrel (bs : Bool) (s : State) :
    exec (.piPrel bs) s = .next
      (latchSel (pinsPreambleStep s (s.pins.cfg.nPre.setWidth 8) 2#2) .pins (selByte 2#2 1#2 true bs)) := rfl

theorem exec_piFirst (pl bs : Bool) (s : State) :
    exec (.piFirst pl bs) s = .next (latchSel (pinsCopy s) .pins (selByte 2#2 2#2 pl bs)) := rfl

theorem exec_piCopy (pl : Bool) (s : State) :
    exec (.piCopy pl) s = .next (latchSel (pinsCopy s) .pins (selByte 2#2 3#2 pl false)) := rfl

/-- Latching changes the common registers of PINS and nothing else. -/
theorem latchSel_pins (s : State) (b : Byte) :
    latchSel s .pins b = { s with pins := { s.pins with ctl := latched s.pins.ctl b } } := rfl

/-! ## The pending symbol and the stamped tags (R289, 20_memory.md R105) -/

/-- The pending symbol is the first one offered. -/
theorem pinsItem_of_items {s : State} {x : BurstSymbol} {rest : List BurstSymbol} (h : s.pinsIn.items = x :: rest) :
    pinsItem s = x := by
  simp [pinsItem, h]

/-- Without an absolute-time tag on the pending symbol, only BURST_START is stamped. -/
theorem stampTags_of_none {s : State}
    (h : (tagQuery s.pinsIn.tags s.pins.work.rd (s.pins.work.rd + 1#64) 3#3).getLast? = none) :
    stampTags s = [{ src := 2#8, key := 1#3, index := s.pins.work.wr, value := 0#128 }] := by
  rw [stampTags, keyAbsTime, h]
  rfl

/-- With one, the most recent follows BURST_START, moved to the output index. -/
theorem stampTags_of_some {s : State} {t : Tag}
    (h : (tagQuery s.pinsIn.tags s.pins.work.rd (s.pins.work.rd + 1#64) 3#3).getLast? = some t) :
    stampTags s = [{ src := 2#8, key := 1#3, index := s.pins.work.wr, value := 0#128 },
      { src := t.src, key := 3#3, index := s.pins.work.wr, value := t.value }] := by
  rw [stampTags, keyAbsTime, h]
  rfl

/-! ## What the state functions do, for items and preamble symbols of the configured size -/

/-- A preamble step: the committed symbol with the pending symbol's `AUX`, the tags before it, nothing consumed. -/
theorem pinsPreambleStep_eq {s : State} {x : BurstSymbol} {rest : List BurstSymbol} {ys : List Cplx}
    (hx : s.pinsIn.items = x :: rest) (hys : s.pins.pre[s.pins.work.preIdx.toNat]? = some ys)
    (hlen : ys.length = s.pins.cfg.fftLen.toNat) (i : Byte) (st : BitVec 2) :
    pinsPreambleStep s i st = { s with
      pins := { s.pins with work := { s.pins.work with wr := s.pins.work.wr + 1#64, preIdx := i, state := st } }
      pinsOut := { s.pinsOut with
        tags := s.pinsOut.tags ++ (if s.pins.work.preIdx = 0#8 then stampTags s else [])
        items := s.pinsOut.items ++ [{ s := ys, aux := x.aux }]
        space := s.pinsOut.space.map (· - 1) } } := by
  rw [pinsPreambleStep, pinsItem_of_items hx, preambleSymbol_eq s _ ys hys hlen]
  rfl

/-- A copy: the symbol at `rd` with its own `AUX`, consumed, and no tag. -/
theorem pinsCopy_eq {s : State} {x : BurstSymbol} {rest : List BurstSymbol}
    (hx : s.pinsIn.items = x :: rest) (hlen : x.s.length = s.pins.cfg.fftLen.toNat) :
    pinsCopy s = { s with
      pins := { s.pins with work :=
        { s.pins.work with rd := s.pins.work.rd + 1#64, wr := s.pins.work.wr + 1#64, state := 3#2 } }
      pinsIn := { s.pinsIn with items := rest }
      pinsOut := { s.pinsOut with
        items := s.pinsOut.items ++ [{ s := x.s, aux := x.aux }]
        space := s.pinsOut.space.map (· - 1) } } := by
  rw [pinsCopy, pinsItem_of_items hx, itemSamples_eq _ _ _ _ hlen, InPort.consume, hx]
  rfl

/-! ## The statements -/

/-- Settles O30: the stamp the statement writes out is `stampTags`, and both operations end in the one preamble step. -/
theorem piPreambleResult : Obligations.PiPreambleResult := by
  refine ⟨encodedBy_piPre, encodedBy_piPrel, fun bs s x rest ys hx hys hlen => ?_⟩
  intro w stamp after
  have hstamp : stamp = if s.pins.work.preIdx = 0#8 then stampTags s else [] := by
    simp only [stamp, w]
    cases hq : (tagQuery s.pinsIn.tags s.pins.work.rd (s.pins.work.rd + 1#64) 3#3).getLast? with
    | none => rw [stampTags_of_none hq]
    | some t => rw [stampTags_of_some hq]
  rw [exec_piPre, exec_piPrel, pinsPreambleStep_eq hx hys hlen, pinsPreambleStep_eq hx hys hlen,
    latchSel_pins, latchSel_pins, ← hstamp]
  exact ⟨rfl, rfl⟩

/-- Settles O29: both operations end in `pinsDetect`, which sets `pre_idx` and the state only. -/
theorem piDetectResult : Obligations.PiDetectResult := by
  refine ⟨encodedBy_piDetect, encodedBy_piRedetect, fun pl s => ?_⟩
  rw [exec_piDetect, exec_piRedetect, latchSel_pins, latchSel_pins, pinsDetect]
  exact ⟨rfl, rfl⟩

/-- Settles O31: both operations end in the one copy. -/
theorem piCopyResult : Obligations.PiCopyResult := by
  refine ⟨encodedBy_piFirst, encodedBy_piCopy, fun pl bs s x rest hx hlen => ?_⟩
  rw [exec_piFirst, exec_piCopy, pinsCopy_eq hx hlen, latchSel_pins, latchSel_pins]
  exact ⟨rfl, rfl⟩

end Sys2Proof.Proofs.Pins

/-! PROOFS. The family of 43_cyclic_prefixer.md: CP.SYM and CP.EOB (R301, R302, R303). -/

namespace Sys2Proof.Proofs.Cpfx

open Sys2Proof Sys2Proof.Machine Sys2Proof.Claims Sys2Proof.Laws

/-! ## The encodings (30_encoding.md R162) -/

/-- An encoding clause of CPFX is two finite facts: which of the 256 bytes decode to the operation, and which value of the `EOB` bit
forms its selector. -/
theorem encodedBy_cpfx {i : Instr} {mtch : Byte} {eob : Bool}
    (decoded : ∀ b : Byte, b &&& 0xFF#8 = mtch ↔ decodeSel b = .ok i)
    (formed : ∀ c : Bool, selByte 3#2 0#2 false c &&& 0xFF#8 = mtch ↔ c = eob) :
    encodedBy .cpfx mtch 0xFF#8 (· = i) (fun s => condEob s = eob) :=
  ⟨fun b => (decoded b).trans (exists_eq_right (p := fun j => decodeSel b = .ok j)).symm, fun s => formed (condEob s)⟩

theorem encodedBy_cpSym : encodedBy .cpfx 0xC0#8 0xFF#8 (· = .cpSym) (fun s => condEob s = false) :=
  encodedBy_cpfx (by decide) (by decide)

theorem encodedBy_cpEob : encodedBy .cpfx 0xC1#8 0xFF#8 (· = .cpEob) (fun s => condEob s = true) :=
  encodedBy_cpfx (by decide) (by decide)

/-! ## How each operation ends: the one prefixer step, with the selector latched (60_exceptions.md R367) -/

theorem exec_cpSym (s : State) :
    exec .cpSym s = .next (latchSel (cpfxStep s []) .cpfx (selByte 3#2 0#2 false false)) := rfl

theorem exec_cpEob (s : State) :
    exec .cpEob s = .next (latchSel (cpfxStep s [burstEndTag s]) .cpfx (selByte 3#2 0#2 false true)) := rfl

/-- Latching changes the common registers of CPFX and nothing else. -/
theorem latchSel_cpfx (s : State) (b : Byte) :
    latchSel s .cpfx b = { s with cpfx := { s.cpfx with ctl := latched s.cpfx.ctl b } } := rfl

/-! ## Tags (43_cyclic_prefixer.md R302, R303) -/

/-- The query over the range of one item keeps that item's tags. -/
theorem tagQueryAll_one (tags : List Tag) (a : Dword) :
    tagQueryAll tags a (a + 1#64) = tags.filter fun t => t.index == a := by
  refine List.filter_congr fun t _ => Bool.eq_iff_iff.mpr ?_
  rw [inRange_one, beq_iff_eq]

theorem relayedTags_eq (s : State) :
    relayedTags s = (s.cpfxIn.tags.filter fun t => t.index == s.cpfx.work.rd).map fun t =>
      { t with index := s.cpfx.work.wr } := by
  rw [relayedTags, tagQueryAll_one]

theorem burstEndTag_eq (s : State) :
    burstEndTag s =
      { src := 3#8, key := 2#3, index := s.cpfx.work.wr + BitVec.ofNat 64 s.cpfx.cfg.outSize.toNat - 1#64, value := 0#128 } := by
  rw [BitVec.ofNat_toNat]
  rfl

/-! ## The output samples (43_cyclic_prefixer.md R301) -/

/-- Reading an item's samples from position `k` to its end gives the item without its first `k` samples. -/
theorem map_itemSample_add_eq_drop (p : Nat) (idx : Dword) (xs : List Cplx) {k n : Nat} (h : k + n = xs.length) :
    ((List.range n).map fun j => itemSample p idx xs (k + j)) = xs.drop k := by
  refine List.ext_getElem (by rw [List.length_map, List.length_range, List.length_drop]; omega) fun j hj _ => ?_
  have hlt : k + j < xs.length := by
    rw [List.length_map, List.length_range] at hj
    omega
  rw [List.getElem_map, List.getElem_range, List.getElem_drop, itemSample, List.getElem?_eq_getElem hlt,
    Option.getD_some]

/-- The pending symbol is the first one offered. -/
theorem cpfxItem_of_items {s : State} {x : EobSymbol} {rest : List EobSymbol} (h : s.cpfxIn.items = x :: rest) :
    cpfxItem s = x := by
  simp [cpfxItem, h]

section Symbol

variable {s : State} {x : EobSymbol} {rest : List EobSymbol}

/-- For a symbol of the configured size, the output is its last `OUT_SIZE - IN_SIZE` samples and then the symbol. -/
theorem prefixed_eq (hx : s.cpfxIn.items = x :: rest) (hlen : x.s.length = s.cpfx.cfg.inSize.toNat)
    (hle : s.cpfx.cfg.inSize.toNat ≤ s.cpfx.cfg.outSize.toNat)
    (hcp : s.cpfx.cfg.outSize.toNat ≤ 2 * s.cpfx.cfg.inSize.toNat) :
    prefixed s = x.s.drop (2 * x.s.length - s.cpfx.cfg.outSize.toNat) ++ x.s := by
  have hstart : cpfxSymLen s - cpfxCp s = 2 * x.s.length - s.cpfx.cfg.outSize.toNat := by
    rw [cpfxSymLen, cpfxCp]
    omega
  have hend : 2 * x.s.length - s.cpfx.cfg.outSize.toNat + cpfxCp s = x.s.length := by
    rw [cpfxCp]
    omega
  have hwhole : (List.range (cpfxSymLen s)).map (itemSample portCpfxIn s.cpfx.work.rd x.s) = x.s :=
    itemSamples_eq portCpfxIn s.cpfx.work.rd x.s (cpfxSymLen s) hlen
  simp only [prefixed, cpfxItem_of_items hx, hstart]
  rw [map_itemSample_add_eq_drop portCpfxIn s.cpfx.work.rd x.s hend, hwhole]

/-- `CP + IN_SIZE` samples are `OUT_SIZE`, whatever the size of the symbol (10_state.md R66). -/
theorem length_prefixed (s : State) (hle : s.cpfx.cfg.inSize.toNat ≤ s.cpfx.cfg.outSize.toNat) :
    (prefixed s).length = s.cpfx.cfg.outSize.toNat := by
  simp only [prefixed, List.length_append, List.length_map, List.length_range, cpfxCp, cpfxSymLen]
  omega

/-- What one prefixer step changes: both counters, the consumed symbol, and the tags and samples of the output. -/
theorem cpfxStep_eq (hx : s.cpfxIn.items = x :: rest) (hlen : x.s.length = s.cpfx.cfg.inSize.toNat)
    (hle : s.cpfx.cfg.inSize.toNat ≤ s.cpfx.cfg.outSize.toNat)
    (hcp : s.cpfx.cfg.outSize.toNat ≤ 2 * s.cpfx.cfg.inSize.toNat) (extra : List Tag) :
    cpfxStep s extra = { s with
      cpfx := { s.cpfx with work :=
        { rd := s.cpfx.work.rd + 1#64, wr := s.cpfx.work.wr + BitVec.ofNat 64 s.cpfx.cfg.outSize.toNat } }
      cpfxIn := { s.cpfxIn with items := rest }
      cpfxOut := { s.cpfxOut with
        tags := s.cpfxOut.tags ++ (relayedTags s ++ extra)
        items := s.cpfxOut.items ++ (x.s.drop (2 * x.s.length - s.cpfx.cfg.outSize.toNat) ++ x.s)
        space := s.cpfxOut.space.map (· - s.cpfx.cfg.outSize.toNat) } } := by
  rw [cpfxStep, InPort.consume, hx, OutPort.produce, length_prefixed s hle, prefixed_eq hx hlen hle hcp,
    BitVec.ofNat_toNat]
  rfl

end Symbol

/-! ## The statement -/

/-- Settles O34: both operations end in the one prefixer step, CP.EOB with the burst-end marker after the relayed tags. -/
theorem cpResult : Obligations.CpResult := by
  refine ⟨encodedBy_cpSym, encodedBy_cpEob, fun s x rest hx hlen hle hcp => ?_⟩
  rw [exec_cpSym, exec_cpEob, cpfxStep_eq hx hlen hle hcp, cpfxStep_eq hx hlen hle hcp, latchSel_cpfx, latchSel_cpfx,
    relayedTags_eq, burstEndTag_eq]
  exact ⟨rfl, rfl⟩

end Sys2Proof.Proofs.Cpfx

/-! PROOFS. The family of 45_system_ops.md: SYS.W1C (R338). -/

namespace Sys2Proof.Proofs.SystemOps

open Sys2Proof Sys2Proof.Machine Sys2Proof.Claims Sys2Proof.Laws

/-! ## A write to STATUS (10_state.md R56, 30_encoding.md R168) -/

@[simp] theorem aligned_statusAddr (e : Engine) : aligned (baseOf e + 4#20) = true := by cases e <;> rfl

@[simp] theorem ctrlAt_statusAddr (e : Engine) : ctrlAt (baseOf e + 4#20) = none := by cases e <;> rfl

@[simp] theorem statusAt_statusAddr (e : Engine) : statusAt (baseOf e + 4#20) = some e := by cases e <;> rfl

/-- Bit 7 of the word decides what a write to STATUS decodes to. -/
theorem decodeBus_statusWrite (e : Engine) (d : Word) :
    decodeBus (busWrite (baseOf e + 4#20) d) =
      if d.getLsbD 7 then .ok (.sysW1c e d) else .error .statusReadOnly := by
  simp [decodeBus, busWrite]

/-- A write access that decodes to no operation changes nothing. -/
theorem busStep_busWrite_of_error {a : BusAddr} {d : Word} {err : DecodeError} (s : State)
    (h : decodeBus (busWrite a d) = .error err) : busStep s (busWrite a d) = .next s := by
  rw [busStep, h]
  rfl

/-- A step whose first action is a bus access is that access. -/
theorem step_of_bus {s : State} {acc : BusAccess} {rest : List Action} (h : s.agenda = .bus acc :: rest) :
    step s = busStep { s with agenda := rest } acc := by
  rw [step, h]
  rfl

/-! ## What replacing the common registers of an engine leaves unchanged -/

theorem onlyEngine_setCtl (s : State) (e : Engine) (c : Ctl) : onlyEngine e s (s.setCtl e c) := by cases e <;> rfl

theorem sameWork_setCtl (s : State) (e : Engine) (c : Ctl) : sameWork e s (s.setCtl e c) := by cases e <;> rfl

theorem sameRegs_setCtl (s : State) (e : Engine) (c : Ctl) : sameRegs e s (s.setCtl e c) := by
  cases e with
  | samp => exact ⟨rfl, rfl⟩
  | fsync => exact ⟨rfl, rfl, rfl, rfl, rfl⟩
  | pins => exact ⟨rfl, rfl, rfl⟩
  | cpfx => exact ⟨rfl, rfl⟩

/-! ## SYS.W1C (45_system_ops.md R338) -/

theorem exec_sysW1c (e : Engine) (d : Word) (s : State) :
    exec (.sysW1c e d) s = .next (s.setCtl e { s.ctlOf e with cfgWrIgn := false }) := rfl

/-- Settles O47: bit 7 selects SYS.W1C, which replaces only the common registers; without it the write decodes to nothing. -/
theorem w1cResult : Obligations.W1cResult := by
  intro e d s
  refine ⟨fun hbit => ?_, ⟨_, exec_sysW1c e d s, onlyEngine_setCtl s e _, sameRegs_setCtl s e _, sameWork_setCtl s e _,
    ctlOf_setCtl_self s e _⟩, fun rest hagenda hbit => ?_⟩
  · rw [decodeBus_statusWrite, if_pos hbit]
  · have hnone : decodeBus (busWrite (baseOf e + 4#20) d) = .error .statusReadOnly := by
      rw [decodeBus_statusWrite, hbit]
      rfl
    rw [step_of_bus hagenda, busStep_busWrite_of_error _ hnone]

end Sys2Proof.Proofs.SystemOps

/-! PROOFS. The family of 60_exceptions.md: the interrupt line (R370). -/

namespace Sys2Proof.Proofs.Exceptions

open Sys2Proof Sys2Proof.Machine Sys2Proof.Claims Sys2Proof.Laws

/-! ## One bit per engine in the interrupt words (10_state.md R55) -/

/-- Every bit position of a four-bit word belongs to an engine. -/
theorem exists_engineNum_eq (i : Fin 4) : ∃ e : Engine, (engineNum e).toNat = i :=
  match i with
  | 0 => ⟨.samp, rfl⟩
  | 1 => ⟨.fsync, rfl⟩
  | 2 => ⟨.pins, rfl⟩
  | 3 => ⟨.cpfx, rfl⟩

theorem eq_zero_iff_engineBits (x : BitVec 4) : x = 0#4 ↔ ∀ e : Engine, x.getLsbD (engineNum e).toNat = false := by
  constructor
  · rintro rfl e
    exact BitVec.getLsbD_zero
  · intro h
    refine BitVec.eq_of_getLsbD_eq fun i hi => ?_
    obtain ⟨e, he⟩ := exists_engineNum_eq ⟨i, hi⟩
    rw [BitVec.getLsbD_zero, ← h e, he]

theorem ne_zero_iff_exists_engineBit (x : BitVec 4) : x ≠ 0#4 ↔ ∃ e : Engine, x.getLsbD (engineNum e).toNat = true := by
  simp [eq_zero_iff_engineBits]

/-! ## The status word and the line (R370) -/

theorem getLsbD_irqStatus (s : State) (e : Engine) :
    (irqStatus s).getLsbD (engineNum e).toNat = ((s.ctlOf e).fault || (s.ctlOf e).cfgErr) := by
  rw [irqStatus, BitVec.getLsbD_append, BitVec.getLsbD_append, BitVec.getLsbD_append]
  cases e <;> simp [engineNum, State.ctlOf]

theorem irqLine_iff (s : State) :
    irqLine s = true ↔ ∃ e : Engine, s.irqEnable.getLsbD (engineNum e).toNat = true ∧
      (irqStatus s).getLsbD (engineNum e).toNat = true := by
  rw [irqLine, bne_iff_ne, ne_zero_iff_exists_engineBit]
  simp only [BitVec.getLsbD_and, Bool.and_eq_true]

/-- With every source masked the line is low, whatever the engines report. -/
theorem irqLine_of_irqEnable_eq_zero {s : State} (h : s.irqEnable = 0#4) : irqLine s = false := by
  rw [irqLine, h, BitVec.zero_and, bne_self_eq_false]

/-- Settles O56: the line is a conjunction of two four-bit words, nonzero exactly when some engine's bit is set in both;
reset clears the enable word. -/
theorem interruptLine : Obligations.InterruptLine :=
  ⟨fun s => ⟨getLsbD_irqStatus s, irqLine_iff s⟩, rfl, irqLine_of_irqEnable_eq_zero rfl⟩

end Sys2Proof.Proofs.Exceptions

/-! PROOFS. What one action of one agent can do to one engine, said once for all four (20_memory.md R103, R130; 60_exceptions.md
R364, R367): the invariants and the frame statements of this text are read off it. -/

namespace Sys2Proof.Proofs.Step

open Sys2Proof Sys2Proof.Machine Sys2Proof.Claims Sys2Proof.Laws

/-! ## Updates that change nothing -/

@[simp] theorem emit_nil {α : Type} (p : OutPort α) : p.emit [] = p := by simp [OutPort.emit]

@[simp] theorem produce_nil {α : Type} (p : OutPort α) : p.produce [] = p := by simp [OutPort.produce]

/-! ## What latching and a fault entry do to the record of the engine -/

theorem latchSel_samp (s : State) (b : Byte) :
    latchSel s .samp b = { s with samp := { s.samp with ctl := latched s.samp.ctl b } } := rfl

theorem latchSel_fsync (s : State) (b : Byte) :
    latchSel s .fsync b = { s with fsync := { s.fsync with ctl := latched s.fsync.ctl b } } := rfl

theorem faultEntry_samp (s : State) (b : Byte) (f : HwFault) :
    faultEntry s .samp b f = { s with samp := { s.samp with ctl := faulted s.samp.ctl b f.code f.info } } := rfl

theorem faultEntry_fsync (s : State) (b : Byte) (f : HwFault) :
    faultEntry s .fsync b f = { s with fsync := { s.fsync with ctl := faulted s.fsync.ctl b f.code f.info } } := rfl

/-! ## How the operations of SAMP end (40_sampler.md R210 to R214) -/

section Sampler

variable {s : State} {w : SampWork} {f : HwFault}

theorem exec_saScan_of_ok (l : Bool) (h : sampIngest s (sampSym s) = .ok w) :
    exec (.saScan l) s = .next (latchSel { s with
      samp := { s.samp with work := { w with rd := w.rd + BitVec.ofNat 64 (sampSym s), state := 0#2 } }
      sampIn := s.sampIn.consume (sampSym s) } .samp (selByte 0#2 0#2 l false)) := by
  change endStep _ _ _ (match sampIngest s (sampSym s) with | .error f => .error f | .ok w => _) = _
  rw [h]
  rfl

theorem exec_saScan_of_error (l : Bool) (h : sampIngest s (sampSym s) = .error f) :
    exec (.saScan l) s = .next (faultEntry s .samp (selByte 0#2 0#2 l false) f) := by
  change endStep _ _ _ (match sampIngest s (sampSym s) with | .error f => .error f | .ok w => _) = _
  rw [h]
  rfl

theorem exec_saAcq (l : Bool) (s : State) :
    exec (.saAcq l) s = endStep s .samp (selByte 0#2 0#2 l true) (sampAcquire s) := rfl

theorem exec_saReacq (l : Bool) (s : State) :
    exec (.saReacq l) s = endStep s .samp (selByte 0#2 2#2 l true) (sampAcquire s) := rfl

theorem exec_saSym (s : State) :
    exec .saSym s = endStep s .samp 0x20#8
      (sampRegular s fun w => { w with countdown := w.countdown - 1#32, state := 2#2 }) := rfl

theorem exec_saLast (s : State) :
    exec .saLast s = endStep s .samp 0x22#8
      (sampRegular s fun w => { w with countdown := 0#32, timeoutCnt := w.timeoutCnt + 1#32, state := 0#2 }) := rfl

theorem sampAcquire_of_ok (h : sampIngest s (scanConsumed s) = .ok w) :
    sampAcquire s = .ok { s with
      samp := { s.samp with work := { w with
        wr := w.wr + 1#64
        rd := w.rd + BitVec.ofNat 64 (scanConsumed s)
        countdown := s.samp.cfg.timeout
        burstCnt := w.burstCnt + 1#32
        state := if s.samp.cfg.timeout = 0#32 then 0#2 else 2#2 } }
      sampIn := s.sampIn.consume (scanConsumed s)
      sampOut := (s.sampOut.emit
          (triggerTags s w (w.rd + BitVec.ofNat 64 (scanConsumed s + sampFft s) - 1#64))).produce
        [{ s := sampSymbol s (scanConsumed s), sig := true }] } := by
  rw [sampAcquire, h]
  rfl

theorem sampAcquire_of_error (h : sampIngest s (scanConsumed s) = .error f) : sampAcquire s = .error f := by
  rw [sampAcquire, h]

theorem sampRegular_of_ok (upd : SampWork → SampWork) (h : sampIngest s (sampSym s) = .ok w) :
    sampRegular s upd = .ok { s with
      samp := { s.samp with work := upd { w with wr := w.wr + 1#64, rd := w.rd + BitVec.ofNat 64 (sampSym s) } }
      sampIn := s.sampIn.consume (sampSym s)
      sampOut := s.sampOut.produce [{ s := sampSymbol s (sampSym s), sig := false }] } := by
  rw [sampRegular, h]

theorem sampRegular_of_error (upd : SampWork → SampWork) (h : sampIngest s (sampSym s) = .error f) :
    sampRegular s upd = .error f := by
  rw [sampRegular, h]

end Sampler

/-! ## How the operations of FSYNC and PI.DROP end (41_frame_sync.md R231, R232, R250, R258; 42_preamble_inserter.md R281) -/

theorem exec_fsIdle (s : State) :
    exec .fsIdle s = .next (latchSel { s with
      fsync := { s.fsync with work := { s.fsync.work with rd := s.fsync.work.rd + 1#64, state := 0#2 } }
      fsyncIn := s.fsyncIn.consume 1 } .fsync 0x40#8) := rfl

theorem exec_fsAcq_of_ok {s : State} {w : FsyncWork} (h : fsyncCapture s = .ok w) :
    exec .fsAcq s = .next (latchSel { s with
      fsync := { s.fsync with work :=
        { acquireReset (nAct s.fsync) w with rd := w.rd + 1#64, state := 1#2 } }
      fsyncIn := s.fsyncIn.consume 1 } .fsync 0x41#8) := by
  change endStep _ _ _ (match fsyncCapture s with | .error f => .error f | .ok w => _) = _
  rw [h]
  rfl

theorem exec_fsAcq_of_error {s : State} {f : HwFault} (h : fsyncCapture s = .error f) :
    exec .fsAcq s = .next (faultEntry s .fsync 0x41#8 f) := by
  change endStep _ _ _ (match fsyncCapture s with | .error f => .error f | .ok w => _) = _
  rw [h]
  rfl

theorem exec_fsHdr (sig : Bool) (s : State) :
    exec (.fsHdr sig) s = endStep s .fsync (selByte 1#2 1#2 false sig)
      (finishDemod s (collectHeader s.draws (demap s).2 { (demap s).1 with state := 1#2 })) := rfl

theorem exec_fsPay (sig : Bool) (s : State) :
    exec (.fsPay sig) s = endStep s .fsync (selByte 1#2 2#2 false sig)
      (finishDemod s (storePayload s.draws (demap s).2 { (demap s).1 with state := 2#2 })) := rfl

theorem exec_piDrop (pl : Bool) (s : State) :
    exec (.piDrop pl) s = .next (latchSel { s with
      pins := { s.pins with work := { s.pins.work with rd := s.pins.work.rd + 1#64, state := 0#2 } }
      pinsIn := s.pinsIn.consume 1 } .pins (selByte 2#2 0#2 pl false)) := rfl

/-! ## What a completed step does to the working state of its engine -/

/-- A completed step of SAMP: the working state it leaves and the symbols it produces. `w` are the latches after tag ingestion. -/
inductive SampDone (s : State) : SampWork → List SigSymbol → Prop
  | scan (c : Nat) (w : SampWork) (ingest : sampIngest s c = .ok w) (state : s.samp.work.state = 0#2) :
      SampDone s { w with rd := w.rd + BitVec.ofNat 64 c, state := 0#2 } []
  | acquire (c : Nat) (w : SampWork) (x : SigSymbol) (ingest : sampIngest s c = .ok w) :
      SampDone s { w with
        wr := w.wr + 1#64, rd := w.rd + BitVec.ofNat 64 c, countdown := s.samp.cfg.timeout, burstCnt := w.burstCnt + 1#32
        state := if s.samp.cfg.timeout = 0#32 then 0#2 else 2#2 } [x]
  | regular (c : Nat) (w : SampWork) (x : SigSymbol) (ingest : sampIngest s c = .ok w) (state : s.samp.work.state = 2#2)
      (more : s.samp.work.countdown ≠ 1#32) :
      SampDone s { w with
        wr := w.wr + 1#64, rd := w.rd + BitVec.ofNat 64 c, countdown := w.countdown - 1#32, state := 2#2 } [x]
  | last (c : Nat) (w : SampWork) (x : SigSymbol) (ingest : sampIngest s c = .ok w) :
      SampDone s { w with
        wr := w.wr + 1#64, rd := w.rd + BitVec.ofNat 64 c, countdown := 0#32, timeoutCnt := w.timeoutCnt + 1#32
        state := 0#2 } [x]

/-- A completed step of FSYNC: the working state it leaves and the frame it emits, if it emits one. -/
inductive FsyncDone (s : State) : FsyncWork → Option Frame → Prop
  | idle : FsyncDone s { s.fsync.work with rd := s.fsync.work.rd + 1#64, state := 0#2 } none
  | acquire (w : FsyncWork) (capture : fsyncCapture s = .ok w) :
      FsyncDone s { acquireReset (nAct s.fsync) w with rd := w.rd + 1#64, state := 1#2 } none
  | header (c : Collect) (state : s.fsync.work.state = 1#2)
      (collect : collectHeader s.draws (demap s).2 { (demap s).1 with state := 1#2 } = .ok c) :
      FsyncDone s { c.work with rd := c.work.rd + 1#64 } c.frame
  | payload (c : Collect) (state : s.fsync.work.state = 2#2)
      (collect : storePayload s.draws (demap s).2 { (demap s).1 with state := 2#2 } = .ok c) :
      FsyncDone s { c.work with rd := c.work.rd + 1#64 } c.frame

/-- A completed step of PINS: the working state it leaves, the number of symbols it consumes and the symbols it produces. -/
inductive PinsDone (s : State) : PinsWork → Nat → List AuxSymbol → Prop
  | drop : PinsDone s { s.pins.work with rd := s.pins.work.rd + 1#64, state := 0#2 } 1 []
  | detect (flag : condBs s = true) : PinsDone s { s.pins.work with preIdx := 0#8, state := 1#2 } 0 []
  | preamble (x : AuxSymbol) (state : s.pins.work.state = 1#2) (more : condPl s = false) :
      PinsDone s { s.pins.work with wr := s.pins.work.wr + 1#64, preIdx := s.pins.work.preIdx + 1#8, state := 1#2 } 0 [x]
  | lastPreamble (x : AuxSymbol) :
      PinsDone s { s.pins.work with
        wr := s.pins.work.wr + 1#64, preIdx := s.pins.cfg.nPre.setWidth 8, state := 2#2 } 0 [x]
  | copy (x : AuxSymbol) :
      PinsDone s { s.pins.work with rd := s.pins.work.rd + 1#64, wr := s.pins.work.wr + 1#64, state := 3#2 } 1 [x]

/-- What a completed step of engine `e` does to its working state, its ports and the queue. -/
def done (e : Engine) (s t : State) : Prop :=
  match e with
  | .samp => ∃ n ts xs, SampDone s t.samp.work xs ∧ t.sampIn = s.sampIn.consume n ∧
      t.sampOut = (s.sampOut.emit ts).produce xs
  | .fsync => ∃ f : Option Frame, FsyncDone s t.fsync.work f ∧ t.fsyncIn = s.fsyncIn.consume 1 ∧
      t.msgq = s.msgq ++ f.toList
  | .pins => ∃ n ts xs, PinsDone s t.pins.work n xs ∧ t.pinsIn = s.pinsIn.consume n ∧
      t.pinsOut = (s.pinsOut.emit ts).produce xs
  | .cpfx => ∃ ts,
      t.cpfx.work = { rd := s.cpfx.work.rd + 1#64, wr := s.cpfx.work.wr + s.cpfx.cfg.outSize.setWidth 64 } ∧
      t.cpfxIn = s.cpfxIn.consume 1 ∧ t.cpfxOut = (s.cpfxOut.emit ts).produce (prefixed s)

/-- The faults a step of engine `e` can raise (60_exceptions.md R361). -/
def mayFault (e : Engine) (s : State) (f : HwFault) : Prop :=
  match e with
  | .samp => f.code = 0x01#8 ∨ (s.samp.work.state ≠ 0#2 ∧ s.samp.work.state ≠ 2#2)
  | .fsync => f.code = 0x05#8 ∨ s.fsync.work.state = 3#2 ∨
      (s.fsync.work.state = 1#2 ∧ collectHeader s.draws (demap s).2 { (demap s).1 with state := 1#2 } = .error f) ∨
      (s.fsync.work.state = 2#2 ∧ storePayload s.draws (demap s).2 { (demap s).1 with state := 2#2 } = .error f)
  | .pins => False
  | .cpfx => False

/-- Everything but engine `e`, its ports and, for FSYNC, the queue is the same. -/
def ownOnly (e : Engine) (s t : State) : Prop :=
  match e with
  | .samp => ∃ x i o, t = { s with samp := x, sampIn := i, sampOut := o }
  | .fsync => ∃ x i q r, t = { s with fsync := x, fsyncIn := i, msgq := q, qroom := r }
  | .pins => ∃ x i o, t = { s with pins := x, pinsIn := i, pinsOut := o }
  | .cpfx => ∃ x i o, t = { s with cpfx := x, cpfxIn := i, cpfxOut := o }

theorem ownOnly_refl (e : Engine) (s : State) : ownOnly e s s := by
  cases e
  case fsync => exact ⟨_, _, _, _, rfl⟩
  all_goals exact ⟨_, _, _, rfl⟩

theorem ownOnly_setCtl (s : State) (e : Engine) (c : Ctl) : ownOnly e s (s.setCtl e c) := by
  cases e
  case fsync => exact ⟨_, _, _, _, rfl⟩
  all_goals exact ⟨_, _, _, rfl⟩

theorem ownOnly_faultEntry (s : State) (e : Engine) (b : Byte) (f : HwFault) : ownOnly e s (faultEntry s e b f) :=
  ownOnly_setCtl s e _

/-- An operation that completes: it latches its selector over the state `u`, which has the common registers and the configuration of
`s`. -/
structure Completes (e : Engine) (s t : State) : Prop where
  own : ownOnly e s t
  ctl : ∃ b, t.ctlOf e = latched (s.ctlOf e) b
  regs : sameRegs e s t
  done : done e s t

/-- An operation ends by completing or by a fault entry. -/
def Ends (e : Engine) (s t : State) : Prop :=
  Completes e s t ∨ ∃ b f, mayFault e s f ∧ t = faultEntry s e b f

theorem sampCompletes {s u : State} {w : SampWork} {n : Nat} {ts : List Tag} {xs : List SigSymbol} (b : Byte)
    (hu : u = { s with
      samp := { s.samp with work := w }, sampIn := s.sampIn.consume n, sampOut := (s.sampOut.emit ts).produce xs })
    (hw : SampDone s w xs) : Completes .samp s (latchSel u .samp b) := by
  subst hu
  exact ⟨⟨_, _, _, rfl⟩, ⟨b, rfl⟩, ⟨rfl, rfl⟩, n, ts, xs, hw, rfl, rfl⟩

theorem fsyncCompletes {s u : State} {w : FsyncWork} {f : Option Frame} {r : Option Nat} (b : Byte)
    (hu : u = { s with
      fsync := { s.fsync with work := w }, fsyncIn := s.fsyncIn.consume 1, msgq := s.msgq ++ f.toList, qroom := r })
    (hw : FsyncDone s w f) : Completes .fsync s (latchSel u .fsync b) := by
  subst hu
  exact ⟨⟨_, _, _, _, rfl⟩, ⟨b, rfl⟩, ⟨rfl, rfl, rfl, rfl, rfl⟩, f, hw, rfl, rfl⟩

theorem pinsCompletes {s u : State} {w : PinsWork} {n : Nat} {ts : List Tag} {xs : List AuxSymbol} (b : Byte)
    (hu : u = { s with
      pins := { s.pins with work := w }, pinsIn := s.pinsIn.consume n, pinsOut := (s.pinsOut.emit ts).produce xs })
    (hw : PinsDone s w n xs) : Completes .pins s (latchSel u .pins b) := by
  subst hu
  exact ⟨⟨_, _, _, rfl⟩, ⟨b, rfl⟩, ⟨rfl, rfl, rfl⟩, n, ts, xs, hw, rfl, rfl⟩

theorem cpfxCompletes (s : State) (b : Byte) (extra : List Tag) :
    Completes .cpfx s (latchSel (cpfxStep s extra) .cpfx b) :=
  ⟨⟨_, _, _, rfl⟩, ⟨b, rfl⟩, ⟨rfl, rfl⟩, _, rfl, rfl, rfl⟩

/-! ## How each selected operation ends -/

section Ends

variable {s t : State}

theorem ends_saScan {l : Bool} (state : s.samp.work.state = 0#2) (h : exec (.saScan l) s = .next t) : Ends .samp s t := by
  cases hi : sampIngest s (sampSym s) with
  | ok w =>
    rw [exec_saScan_of_ok l hi, Host.Outcome.next.injEq] at h
    subst h
    exact .inl (sampCompletes (n := sampSym s) (ts := []) (xs := []) _ (by rw [emit_nil, produce_nil]) (.scan _ w hi state))
  | error f =>
    rw [exec_saScan_of_error l hi, Host.Outcome.next.injEq] at h
    exact .inr ⟨_, f, .inl (sampIngest_error hi), h.symm⟩

theorem ends_sampAcquire {b : Byte} (h : endStep s .samp b (sampAcquire s) = .next t) : Ends .samp s t := by
  cases hi : sampIngest s (scanConsumed s) with
  | ok w =>
    rw [sampAcquire_of_ok hi, endStep_ok, Host.Outcome.next.injEq] at h
    subst h
    exact .inl (sampCompletes _ rfl (.acquire _ w _ hi))
  | error f =>
    rw [sampAcquire_of_error hi, endStep_error, Host.Outcome.next.injEq] at h
    exact .inr ⟨_, f, .inl (sampIngest_error hi), h.symm⟩

theorem ends_sampRegular {b : Byte} {upd : SampWork → SampWork}
    (done : ∀ w x, sampIngest s (sampSym s) = .ok w →
      SampDone s (upd { w with wr := w.wr + 1#64, rd := w.rd + BitVec.ofNat 64 (sampSym s) }) [x])
    (h : endStep s .samp b (sampRegular s upd) = .next t) : Ends .samp s t := by
  cases hi : sampIngest s (sampSym s) with
  | ok w =>
    rw [sampRegular_of_ok upd hi, endStep_ok, Host.Outcome.next.injEq] at h
    subst h
    exact .inl (sampCompletes (ts := []) _ (by rw [emit_nil]) (done w _ hi))
  | error f =>
    rw [sampRegular_of_error upd hi, endStep_error, Host.Outcome.next.injEq] at h
    exact .inr ⟨_, f, .inl (sampIngest_error hi), h.symm⟩

/-- The operation SAMP selects ends so. -/
theorem ends_samp {i : Instr} (hi : decodeSel (selector s .samp) = .ok i) (h : exec i s = .next t) : Ends .samp s t := by
  rw [selector, decodeSel_samp] at hi
  split_ifs at hi with h0 ht h2 ht hl <;> cases hi
  · rw [exec_saAcq] at h
    exact ends_sampAcquire h
  · exact ends_saScan h0 h
  · rw [exec_saReacq] at h
    exact ends_sampAcquire h
  · rw [exec_saLast] at h
    exact ends_sampRegular (fun w x hw => .last _ w x hw) h
  · rw [exec_saSym] at h
    have more : s.samp.work.countdown ≠ 1#32 := by simpa [condL] using hl
    exact ends_sampRegular (fun w x hw => .regular _ w x hw h2 more) h

theorem ends_fsAcq (h : exec .fsAcq s = .next t) : Ends .fsync s t := by
  cases hc : fsyncCapture s with
  | ok w =>
    rw [exec_fsAcq_of_ok hc, Host.Outcome.next.injEq] at h
    subst h
    exact .inl (fsyncCompletes (f := none) _ (by rw [Option.toList_none, List.append_nil]) (.acquire w hc))
  | error f =>
    rw [exec_fsAcq_of_error hc, Host.Outcome.next.injEq] at h
    refine .inr ⟨_, f, .inl ?_, h.symm⟩
    unfold fsyncCapture at hc
    simp only at hc
    split at hc <;> cases hc
    rfl

theorem ends_finishDemod {b : Byte} {r : Except HwFault Collect} (ok : ∀ c, r = .ok c →
      FsyncDone s { c.work with rd := c.work.rd + 1#64 } c.frame) (error : ∀ f, r = .error f → mayFault .fsync s f)
    (h : endStep s .fsync b (finishDemod s r) = .next t) : Ends .fsync s t := by
  cases r with
  | ok c =>
    rw [finishDemod_ok, endStep_ok, Host.Outcome.next.injEq] at h
    subst h
    exact .inl (fsyncCompletes _ rfl (ok c rfl))
  | error f =>
    rw [finishDemod, endStep_error, Host.Outcome.next.injEq] at h
    exact .inr ⟨_, f, error f rfl, h.symm⟩

/-- The operation FSYNC selects ends so. -/
theorem ends_fsync {i : Instr} (hi : decodeSel (selector s .fsync) = .ok i) (h : exec i s = .next t) : Ends .fsync s t := by
  rw [selector, decodeSel_fsync] at hi
  split_ifs at hi with h0 hsig h1 h2 <;> cases hi
  · exact ends_fsAcq h
  · rw [exec_fsIdle, Host.Outcome.next.injEq] at h
    subst h
    exact .inl (fsyncCompletes (f := none) _ (by rw [Option.toList_none, List.append_nil]) .idle)
  · rw [exec_fsHdr] at h
    exact ends_finishDemod (fun c hc => .header c h1 hc) (fun f hf => .inr (.inr (.inl ⟨h1, hf⟩))) h
  · rw [exec_fsPay] at h
    exact ends_finishDemod (fun c hc => .payload c h2 hc) (fun f hf => .inr (.inr (.inr ⟨h2, hf⟩))) h

theorem completes_pinsDetect (b : Byte) (flag : condBs s = true) : Completes .pins s (latchSel (pinsDetect s) .pins b) :=
  pinsCompletes (ts := []) (xs := []) (n := 0) b (by rw [emit_nil, produce_nil]; rfl) (.detect flag)

theorem completes_pinsCopy (s : State) (b : Byte) : Completes .pins s (latchSel (pinsCopy s) .pins b) :=
  pinsCompletes (ts := []) b (by rw [emit_nil]; rfl) (.copy _)

/-- The operation PINS selects completes: PINS raises no fault. -/
theorem ends_pins {i : Instr} (hi : decodeSel (selector s .pins) = .ok i) (h : exec i s = .next t) : Ends .pins s t := by
  rw [selector, decodeSel_pins] at hi
  split_ifs at hi with h0 hbs h1 hpl h2 hbs <;> cases hi
  · rw [Pins.exec_piDetect, Host.Outcome.next.injEq] at h
    exact .inl (h ▸ completes_pinsDetect _ hbs)
  · rw [exec_piDrop, Host.Outcome.next.injEq] at h
    subst h
    exact .inl (pinsCompletes (ts := []) (xs := []) _ (by rw [emit_nil, produce_nil]) .drop)
  · rw [Pins.exec_piPrel, Host.Outcome.next.injEq] at h
    exact .inl (h ▸ pinsCompletes (n := 0) _ rfl (.lastPreamble _))
  · rw [Pins.exec_piPre, Host.Outcome.next.injEq] at h
    exact .inl (h ▸ pinsCompletes (n := 0) _ rfl (.preamble _ h1 (by simpa using hpl)))
  · rw [Pins.exec_piFirst, Host.Outcome.next.injEq] at h
    exact .inl (h ▸ completes_pinsCopy s _)
  · rw [Pins.exec_piRedetect, Host.Outcome.next.injEq] at h
    exact .inl (h ▸ completes_pinsDetect _ hbs)
  · rw [Pins.exec_piCopy, Host.Outcome.next.injEq] at h
    exact .inl (h ▸ completes_pinsCopy s _)

/-- The operation CPFX selects completes: CPFX raises no fault. -/
theorem ends_cpfx {i : Instr} (hi : decodeSel (selector s .cpfx) = .ok i) (h : exec i s = .next t) : Ends .cpfx s t := by
  rw [selector, decodeSel_cpfx] at hi
  split_ifs at hi <;> cases hi
  · rw [Cpfx.exec_cpEob, Host.Outcome.next.injEq] at h
    exact .inl (h ▸ cpfxCompletes s _ _)
  · rw [Cpfx.exec_cpSym, Host.Outcome.next.injEq] at h
    exact .inl (h ▸ cpfxCompletes s _ _)

theorem ends_of_selected {e : Engine} {i : Instr} (hi : decodeSel (selector s e) = .ok i) (h : exec i s = .next t) :
    Ends e s t := by
  cases e with
  | samp => exact ends_samp hi h
  | fsync => exact ends_fsync hi h
  | pins => exact ends_pins hi h
  | cpfx => exact ends_cpfx hi h

/-- A reserved selector is one of SAMP with state 1 or 3, or of FSYNC with state 3 (30_encoding.md R165). -/
theorem mayFault_of_reserved {e : Engine} {st : BitVec 2} (hi : decodeSel (selector s e) = .error (.illegalState st))
    (f : HwFault) : mayFault e s f := by
  cases e with
  | samp =>
    rw [selector, decodeSel_samp] at hi
    split_ifs at hi with h0 h2
    exact .inr ⟨h0, h2⟩
  | fsync =>
    rw [selector, decodeSel_fsync] at hi
    split_ifs at hi with h0 h1 h2
    have hst : ∀ x : BitVec 2, x ≠ 0#2 → x ≠ 1#2 → x ≠ 2#2 → x = 3#2 := by decide
    exact .inr (.inl (hst _ h0 h1 h2))
  | pins => rw [selector, decodeSel_pins] at hi; cases hi
  | cpfx => rw [selector, decodeSel_cpfx] at hi; cases hi

/-- What an engine step can be (20_memory.md R103): nothing, where the engine is held; else it ends in one of the two ways. -/
theorem engineStep_ends {e : Engine} (h : engineStep s e = .next t) :
    t = s ∨ ((s.ctlOf e).en = true ∧ (s.ctlOf e).fault = false ∧ Ends e s t) := by
  obtain ⟨-, rfl⟩ | ⟨hen, i, hi, hx⟩ | ⟨hen, st, hi, rfl⟩ := engineStep_cases h
  · exact .inl rfl
  · obtain ⟨en, fault⟩ := running_of_enabled hen
    exact .inr ⟨en, fault, ends_of_selected hi hx⟩
  · obtain ⟨en, fault⟩ := running_of_enabled hen
    exact .inr ⟨en, fault, .inr ⟨_, _, mayFault_of_reserved hi _, rfl⟩⟩

/-- An engine step touches its own engine, ports and queue only. -/
theorem engineStep_ownOnly {e : Engine} (h : engineStep s e = .next t) : ownOnly e s t := by
  obtain rfl | ⟨-, -, hc | ⟨b, f, -, rfl⟩⟩ := engineStep_ends h
  · exact ownOnly_refl e t
  · exact hc.own
  · exact ownOnly_faultEntry s e b f

end Ends

end Sys2Proof.Proofs.Step

/-! PROOFS. One action of one agent, seen from one engine: the record of the engine and its ports before and after it. -/

namespace Sys2Proof.Proofs.Step

open Sys2Proof Sys2Proof.Machine Sys2Proof.Safety Sys2Proof.Claims Sys2Proof.Laws

/-! ## Ports of an engine that the environment only adds to -/

/-- Items and tags of an input port are only appended to. -/
def inGrows {α : Type} (p q : InPort α) : Prop := p.items <+: q.items ∧ p.tags <+: q.tags

/-- Items and tags of an output port are the same; room and relayed count may differ. -/
def outKept {α : Type} (p q : OutPort α) : Prop := q.items = p.items ∧ q.tags = p.tags

theorem inGrows_refl {α : Type} (p : InPort α) : inGrows p p := ⟨List.prefix_rfl, List.prefix_rfl⟩

theorem inGrows_offer {α : Type} (p : InPort α) (en : Bool) (x : α) : inGrows p (p.offer en x) := by
  cases en
  · exact inGrows_refl p
  · exact ⟨List.prefix_append _ _, List.prefix_rfl⟩

theorem inGrows_addTags {α : Type} (p : InPort α) (en : Bool) (ts : List Tag) : inGrows p (p.addTags en ts) := by
  cases en
  · exact inGrows_refl p
  · exact ⟨List.prefix_rfl, List.prefix_append _ _⟩

theorem inGrows_trans {α : Type} {p q r : InPort α} (h : inGrows p q) (h' : inGrows q r) : inGrows p r :=
  ⟨h.1.trans h'.1, h.2.trans h'.2⟩

theorem outKept_refl {α : Type} (p : OutPort α) : outKept p p := ⟨rfl, rfl⟩

/-- The environment only adds to the ports of engine `e`. -/
def portsGrow (e : Engine) (s t : State) : Prop :=
  match e with
  | .samp => inGrows s.sampIn t.sampIn ∧ outKept s.sampOut t.sampOut
  | .fsync => inGrows s.fsyncIn t.fsyncIn
  | .pins => inGrows s.pinsIn t.pinsIn ∧ outKept s.pinsOut t.pinsOut
  | .cpfx => inGrows s.cpfxIn t.cpfxIn ∧ outKept s.cpfxOut t.cpfxOut

/-- The record of engine `e` is the same. -/
def sameRecord (e : Engine) (s t : State) : Prop :=
  match e with
  | .samp => t.samp = s.samp
  | .fsync => t.fsync = s.fsync
  | .pins => t.pins = s.pins
  | .cpfx => t.cpfx = s.cpfx

/-- The committed configuration of engine `e`, with what was derived from it, is the same. -/
def sameCommitted (e : Engine) (s t : State) : Prop :=
  match e with
  | .samp => t.samp.cfg = s.samp.cfg
  | .fsync => t.fsync.cfg = s.fsync.cfg ∧ t.fsync.map = s.fsync.map ∧ t.fsync.refs = s.fsync.refs ∧
      t.fsync.vals = s.fsync.vals
  | .pins => t.pins.cfg = s.pins.cfg ∧ t.pins.pre = s.pins.pre
  | .cpfx => t.cpfx.cfg = s.cpfx.cfg

/-- What an accepted commit of engine `e` freezes, and its ports, which start anew (45_system_ops.md R331, R342, R343). -/
def frozen (e : Engine) (s t : State) : Prop :=
  match e with
  | .samp => t.samp.reg = s.samp.reg ∧ t.samp.cfg = s.samp.reg ∧ t.sampIn = s.sampIn.restart ∧
      t.sampOut = s.sampOut.restart
  | .fsync => t.fsync.reg = s.fsync.reg ∧ t.fsync.cfg = s.fsync.reg ∧
      t.fsync.map = mapOf s s.fsync.reg.fftLen.toNat ∧
      t.fsync.refs = (List.range s.fsync.reg.constNpoints.toNat).map (tableRef s) ∧
      t.fsync.vals = (List.range s.fsync.reg.constNpoints.toNat).map (tableVal s) ∧ t.fsyncIn = s.fsyncIn.restart
  | .pins => t.pins.reg = s.pins.reg ∧ t.pins.cfg = s.pins.reg ∧ t.pins.pre = preOf s s.pins.reg ∧
      t.pinsIn = s.pinsIn.restart ∧ t.pinsOut = s.pinsOut.restart
  | .cpfx => t.cpfx.reg = s.cpfx.reg ∧ t.cpfx.cfg = s.cpfx.reg ∧ t.cpfxIn = s.cpfxIn.restart ∧
      t.cpfxOut = s.cpfxOut.restart

/-- Nothing of engine `e` changes but what the environment adds to its ports. -/
def quiet (e : Engine) (s t : State) : Prop := sameRecord e s t ∧ portsGrow e s t

section Refl

variable (e : Engine) (s : State)

theorem sameRegs_refl : sameRegs e s s := by
  cases e with
  | samp => exact ⟨rfl, rfl⟩
  | fsync => exact ⟨rfl, rfl, rfl, rfl, rfl⟩
  | pins => exact ⟨rfl, rfl, rfl⟩
  | cpfx => exact ⟨rfl, rfl⟩

theorem sameWork_refl : sameWork e s s := by cases e <;> rfl

theorem sameRecord_refl : sameRecord e s s := by cases e <;> rfl

theorem portsGrow_refl : portsGrow e s s := by
  cases e with
  | fsync => exact inGrows_refl _
  | _ => exact ⟨inGrows_refl _, outKept_refl _⟩

theorem quiet_refl : quiet e s s := ⟨sameRecord_refl e s, portsGrow_refl e s⟩

end Refl

section Quiet

variable {e e' : Engine} {s t : State}

theorem ctlOf_of_sameRecord (h : sameRecord e s t) : t.ctlOf e = s.ctlOf e := by
  cases e with
  | samp => exact congrArg Samp.ctl h
  | fsync => exact congrArg Fsync.ctl h
  | pins => exact congrArg Pins.ctl h
  | cpfx => exact congrArg Cpfx.ctl h

theorem sameRegs_of_sameRecord (h : sameRecord e s t) : sameRegs e s t := by
  cases e with
  | samp => exact ⟨congrArg Samp.reg h.symm, congrArg Samp.cfg h.symm⟩
  | fsync =>
    have h : s.fsync = t.fsync := h.symm
    simp only [sameRegs, h, and_self]
  | pins =>
    have h : s.pins = t.pins := h.symm
    simp only [sameRegs, h, and_self]
  | cpfx => exact ⟨congrArg Cpfx.reg h.symm, congrArg Cpfx.cfg h.symm⟩

theorem sameWork_of_sameRecord (h : sameRecord e s t) : sameWork e s t := by
  cases e with
  | samp => exact congrArg Samp.work h.symm
  | fsync => exact congrArg Fsync.work h.symm
  | pins => exact congrArg Pins.work h.symm
  | cpfx => exact congrArg Cpfx.work h.symm

theorem portsGrow_setCtl (s : State) (e : Engine) (c : Ctl) : portsGrow e s (s.setCtl e c) := by
  cases e with
  | fsync => exact inGrows_refl _
  | _ => exact ⟨inGrows_refl _, outKept_refl _⟩

/-- What touches another engine only leaves this one alone. -/
theorem quiet_of_ownOnly (h : ownOnly e' s t) (hne : e' ≠ e) : quiet e s t := by
  cases e' with
  | samp =>
    obtain ⟨x, i, o, rfl⟩ := h
    cases e with
    | samp => exact absurd rfl hne
    | fsync => exact quiet_refl .fsync s
    | pins => exact quiet_refl .pins s
    | cpfx => exact quiet_refl .cpfx s
  | fsync =>
    obtain ⟨x, i, q, r, rfl⟩ := h
    cases e with
    | samp => exact quiet_refl .samp s
    | fsync => exact absurd rfl hne
    | pins => exact quiet_refl .pins s
    | cpfx => exact quiet_refl .cpfx s
  | pins =>
    obtain ⟨x, i, o, rfl⟩ := h
    cases e with
    | samp => exact quiet_refl .samp s
    | fsync => exact quiet_refl .fsync s
    | pins => exact absurd rfl hne
    | cpfx => exact quiet_refl .cpfx s
  | cpfx =>
    obtain ⟨x, i, o, rfl⟩ := h
    cases e with
    | samp => exact quiet_refl .samp s
    | fsync => exact quiet_refl .fsync s
    | pins => exact quiet_refl .pins s
    | cpfx => exact absurd rfl hne

/-- What the engine sees does not include the words HOST reads, the draws, the tables and the interrupt enable. -/
theorem quiet_outside (s : State) (e : Engine) (m : List Host.Cell) (i : BitVec 4) (r : Word) (n : Nat) (q : List Frame)
    (k : Option Nat) : quiet e s { s with mem := m, irqEnable := i, rdata := r, draws := n, msgq := q, qroom := k } := by
  cases e
  · exact quiet_refl .samp s
  · exact quiet_refl .fsync s
  · exact quiet_refl .pins s
  · exact quiet_refl .cpfx s

end Quiet

/-! ## What one action does to engine `e` -/

/-- The event one action `a` is for engine `e`. -/
inductive Event (e : Engine) (a : Action) (s t : State) : Prop
  /-- Nothing, but that `EN` may be cleared, `CFG_WR_IGN` set or cleared, and the ports added to. -/
  | kept (en ign : Bool) (stays : en = true → (s.ctlOf e).en = true)
      (ctl : t.ctlOf e = { s.ctlOf e with en := en, cfgWrIgn := ign })
      (regs : sameRegs e s t) (work : sameWork e s t) (ports : portsGrow e s t)
  /-- A configuration register is written while the engine is disabled. -/
  | configured (off : (s.ctlOf e).en = false) (ctl : t.ctlOf e = s.ctlOf e) (committed : sameCommitted e s t)
      (work : sameWork e s t) (ports : portsGrow e s t)
  /-- A step of the engine completes. -/
  | stepped (on : (s.ctlOf e).en = true) (healthy : (s.ctlOf e).fault = false) (completes : Completes e s t)
  /-- A step of the engine faults. -/
  | faulted (on : (s.ctlOf e).en = true) (healthy : (s.ctlOf e).fault = false) (b : Byte) (f : HwFault)
      (may : mayFault e s f) (eq : t = faultEntry s e b f)
  /-- A soft or hardware reset. -/
  | cleared (ctl : t.ctlOf e = Ctl.reset) (work : sameWork e State.reset t) (ports : portsGrow e s t)
  /-- A commit of the engine is refused. -/
  | refused (off : (s.ctlOf e).en = false) (illegal : validate s e ≠ 0#8)
      (ctl : t.ctlOf e = { s.ctlOf e with cfgErr := true, cfgErrCode := validate s e })
      (regs : sameRegs e s t) (work : sameWork e s t) (ports : portsGrow e s t)
  /-- A commit of the engine is accepted. -/
  | committed (off : (s.ctlOf e).en = false) (legal : validate s e = 0#8)
      (access : ∃ d, a = .bus (busWrite (baseOf e) d) ∧ d.getLsbD 0 = true ∧ d.getLsbD 1 = false)
      (ctl : t.ctlOf e =
        { s.ctlOf e with cfgErr := false, cfgErrCode := 0#8, lastSel := 0#8, lastValid := false, en := true })
      (work : sameWork e State.reset t) (frozen : frozen e s t)

section Events

variable {e e' : Engine} {a : Action} {s t : State}

theorem Event.of_quiet (h : quiet e s t) : Event e a s t :=
  .kept (s.ctlOf e).en (s.ctlOf e).cfgWrIgn id (ctlOf_of_sameRecord h.1) (sameRegs_of_sameRecord h.1)
    (sameWork_of_sameRecord h.1) h.2

/-- An action on engine `e'` is an event for `e'`, and nothing for every other engine. -/
theorem Event.of_own (own : ownOnly e' s t) (self : Event e' a s t) (e : Engine) : Event e a s t := by
  by_cases hne : e' = e
  · exact hne ▸ self
  · exact .of_quiet (quiet_of_ownOnly own hne)

theorem event_setCtl (s : State) (e' : Engine) (en ign : Bool) (stays : en = true → (s.ctlOf e').en = true)
    (e : Engine) : Event e a s (s.setCtl e' { s.ctlOf e' with en := en, cfgWrIgn := ign }) :=
  .of_own (ownOnly_setCtl s e' _)
    (.kept en ign stays (ctlOf_setCtl_self s e' _) (SystemOps.sameRegs_setCtl s e' _) (SystemOps.sameWork_setCtl s e' _)
      (portsGrow_setCtl s e' _)) e

theorem ownOnly_softReset (s : State) (e : Engine) : ownOnly e s (softReset s e) := by
  cases e
  case fsync => exact ⟨_, _, _, _, rfl⟩
  all_goals exact ⟨_, _, _, rfl⟩

theorem sameWork_softReset (s : State) (e : Engine) : sameWork e State.reset (softReset s e) := by cases e <;> rfl

theorem portsGrow_softReset (s : State) (e : Engine) : portsGrow e s (softReset s e) := by
  cases e with
  | fsync => exact inGrows_refl _
  | _ => exact ⟨inGrows_refl _, outKept_refl _⟩

theorem event_softReset (s : State) (e' e : Engine) : Event e a s (softReset s e') :=
  .of_own (ownOnly_softReset s e')
    (.cleared (ctlOf_setCtl_self _ e' _) (sameWork_softReset s e') (portsGrow_softReset s e')) e

/-! ### Commit -/

theorem ownOnly_commitAccepted (s : State) (e : Engine) : ownOnly e s (commitAccepted s e) := by
  cases e
  case fsync => exact ⟨_, _, _, _, rfl⟩
  all_goals exact ⟨_, _, _, rfl⟩

/-- No engine sees the draw counter. -/
theorem quiet_with_draws (h : quiet e s t) (n : Nat) : quiet e s { t with draws := n } := by
  cases e <;> exact h

theorem ctlOf_commitAccepted (s : State) (e : Engine) (n : Nat) : State.ctlOf { commitAccepted s e with draws := n } e =
    { s.ctlOf e with cfgErr := false, cfgErrCode := 0#8, lastSel := 0#8, lastValid := false, en := true } := by
  cases e <;> rfl

theorem sameWork_commitAccepted (s : State) (e : Engine) (n : Nat) :
    sameWork e State.reset { commitAccepted s e with draws := n } := by
  cases e <;> rfl

theorem frozen_commitAccepted (s : State) (e : Engine) (n : Nat) :
    frozen e s { commitAccepted s e with draws := n } := by
  cases e with
  | samp => exact ⟨rfl, rfl, rfl, rfl⟩
  | fsync => exact ⟨rfl, rfl, rfl, rfl, rfl, rfl⟩
  | pins => exact ⟨rfl, rfl, rfl, rfl, rfl⟩
  | cpfx => exact ⟨rfl, rfl, rfl, rfl⟩

theorem quiet_commit (s : State) (h : e' ≠ e) : quiet e s (commit s e') := by
  by_cases legal : validate s e' = 0#8
  · rw [commit_of_legal legal]
    exact quiet_with_draws (quiet_of_ownOnly (ownOnly_commitAccepted s e') h) _
  · rw [commit_of_illegal legal]
    exact quiet_with_draws (quiet_of_ownOnly (ownOnly_setCtl s e' _) h) _

theorem event_commit_self (off : (s.ctlOf e).en = false)
    (access : ∃ d, a = .bus (busWrite (baseOf e) d) ∧ d.getLsbD 0 = true ∧ d.getLsbD 1 = false) :
    Event e a s (commit s e) := by
  by_cases legal : validate s e = 0#8
  · rw [commit_of_legal legal]
    exact .committed off legal access (ctlOf_commitAccepted s e _) (sameWork_commitAccepted s e _)
      (frozen_commitAccepted s e _)
  · rw [commit_of_illegal legal, commitRefused]
    have ctl := ctlOf_setCtl_self s e { s.ctlOf e with cfgErr := true, cfgErrCode := validate s e }
    have regs := SystemOps.sameRegs_setCtl s e { s.ctlOf e with cfgErr := true, cfgErrCode := validate s e }
    have work := SystemOps.sameWork_setCtl s e { s.ctlOf e with cfgErr := true, cfgErrCode := validate s e }
    have ports := portsGrow_setCtl s e { s.ctlOf e with cfgErr := true, cfgErrCode := validate s e }
    cases e <;> exact .refused off legal ctl regs work ports

/-- An access that commits `e'`, or finds it enabled. -/
theorem event_commit (s : State) {e' : Engine} {d : Word} (ha : a = .bus (busWrite (baseOf e') d))
    (h1 : d.getLsbD 1 = false) (h0 : d.getLsbD 0 = true) (e : Engine) :
    Event e a s (if (s.ctlOf e').en then s else commit s e') := by
  split
  case isTrue => exact .of_quiet (quiet_refl e s)
  case isFalse off =>
    by_cases hne : e' = e
    · subst hne
      exact event_commit_self (by simpa using off) ⟨d, ha, h0, h1⟩
    · exact .of_quiet (quiet_commit s hne)

/-! ### Configuration writes -/

theorem ownOnly_setCfgReg (s : State) (c : CfgReg) (d : Word) : ownOnly c.owner s (setCfgReg s c d) := by
  unfold setCfgReg
  cases c.owner
  case fsync => exact ⟨_, _, _, _, rfl⟩
  all_goals exact ⟨_, _, _, rfl⟩

theorem event_setCfgReg (s : State) (c : CfgReg) (d : Word) (off : (s.ctlOf c.owner).en = false) (e : Engine) :
    Event e a s (setCfgReg s c d) := by
  refine .of_own (ownOnly_setCfgReg s c d) ?_ e
  unfold setCfgReg
  revert off
  cases c.owner with
  | samp => exact fun off => .configured off rfl rfl rfl (portsGrow_refl .samp s)
  | fsync => exact fun off => .configured off rfl ⟨rfl, rfl, rfl, rfl⟩ rfl (portsGrow_refl .fsync s)
  | pins => exact fun off => .configured off rfl ⟨rfl, rfl⟩ rfl (portsGrow_refl .pins s)
  | cpfx => exact fun off => .configured off rfl rfl rfl (portsGrow_refl .cpfx s)

/-! ### The actions -/

theorem event_busStep {acc : BusAccess} (h : busStep s acc = .next t) (e : Engine) : Event e (.bus acc) s t := by
  obtain rfl | ⟨e', d, -, -, rfl⟩ | ⟨e', d, rfl, h1, h0, rfl⟩ | ⟨e', rfl⟩ | ⟨e', rfl⟩ | ⟨v, n, rfl⟩ | ⟨e', on, rfl⟩ |
    ⟨c, d, off, rfl⟩ | ⟨k, b, d, -, -, -, rfl⟩ | ⟨v, rfl⟩ := busStep_cases h
  case inl =>
    unfold idleAccess
    split
    · exact .of_quiet (quiet_outside s e _ _ _ _ _ _)
    · exact .of_quiet (quiet_refl e s)
  · exact event_softReset s e' e
  · exact event_commit s rfl h1 h0 e
  · exact event_setCtl s e' false (s.ctlOf e').cfgWrIgn (fun h => by cases h) e
  · exact event_setCtl s e' (s.ctlOf e').en false id e
  · exact .of_quiet (quiet_outside s e _ _ _ _ _ _)
  · exact event_setCtl s e' (s.ctlOf e').en true id e
  · exact event_setCfgReg s c d off e
  · exact .of_quiet (quiet_outside s e _ _ _ _ _ _)
  · exact .of_quiet (quiet_outside s e _ _ _ _ _ _)

theorem event_engineStep (h : engineStep s e' = .next t) (e : Engine) : Event e a s t := by
  refine .of_own (engineStep_ownOnly h) ?_ e
  obtain rfl | ⟨on, healthy, completes | ⟨b, f, may, eq⟩⟩ := engineStep_ends h
  · exact .of_quiet (quiet_refl _ _)
  · exact .stepped on healthy completes
  · exact .faulted on healthy b f may eq

/-- Whatever is added to the ports, every engine stays as it is. -/
theorem quiet_ports (e : Engine) (s : State) {si : InPort SampleItem} {so : OutPort SigSymbol} {fi : InPort SigSymbol}
    {pi : InPort BurstSymbol} {po : OutPort AuxSymbol} {ci : InPort EobSymbol} {co : OutPort Cplx}
    (sampIn : inGrows s.sampIn si := by exact inGrows_refl _) (sampOut : outKept s.sampOut so := by exact outKept_refl _)
    (fsyncIn : inGrows s.fsyncIn fi := by exact inGrows_refl _) (pinsIn : inGrows s.pinsIn pi := by exact inGrows_refl _)
    (pinsOut : outKept s.pinsOut po := by exact outKept_refl _) (cpfxIn : inGrows s.cpfxIn ci := by exact inGrows_refl _)
    (cpfxOut : outKept s.cpfxOut co := by exact outKept_refl _) :
    quiet e s { s with
      sampIn := si, sampOut := so, fsyncIn := fi, pinsIn := pi, pinsOut := po, cpfxIn := ci, cpfxOut := co } := by
  cases e with
  | samp => exact ⟨rfl, sampIn, sampOut⟩
  | fsync => exact ⟨rfl, fsyncIn⟩
  | pins => exact ⟨rfl, pinsIn, pinsOut⟩
  | cpfx => exact ⟨rfl, cpfxIn, cpfxOut⟩

theorem quiet_appendTag (e : Engine) (s : State) (p : InPortId) (x : Tag) : quiet e s (appendTag s p x) := by
  cases p with
  | sampIn => exact quiet_ports e s (sampIn := inGrows_addTags _ _ _)
  | fsyncIn => exact quiet_ports e s (fsyncIn := inGrows_addTags _ _ _)
  | pinsIn => exact quiet_ports e s (pinsIn := inGrows_addTags _ _ _)
  | cpfxIn => exact quiet_ports e s (cpfxIn := inGrows_addTags _ _ _)

theorem quiet_grantRoom (e : Engine) (s : State) (p : OutPortId) (n : Nat) : quiet e s (grantRoom s p n) := by
  cases p with
  | sampOut => exact quiet_ports e s (sampOut := ⟨rfl, rfl⟩)
  | pinsOut => exact quiet_ports e s (pinsOut := ⟨rfl, rfl⟩)
  | cpfxOut => exact quiet_ports e s (cpfxOut := ⟨rfl, rfl⟩)

theorem quiet_dequeueFrame (e : Engine) (s : State) : quiet e s (dequeueFrame s) := by
  unfold dequeueFrame
  split
  · exact quiet_refl e s
  · exact quiet_outside s e _ _ _ _ _ _

theorem quiet_relayRxItem (e : Engine) (s : State) (ys : List Cplx) : quiet e s (relayRxItem s ys) := by
  unfold relayRxItem
  split
  · exact quiet_refl e s
  · exact quiet_ports e s (fsyncIn := inGrows_trans (inGrows_addTags _ _ _) (inGrows_offer _ _ _)) (sampOut := ⟨rfl, rfl⟩)

theorem quiet_relayTxItem (e : Engine) (s : State) (ys : List Cplx) : quiet e s (relayTxItem s ys) := by
  unfold relayTxItem
  split
  · exact quiet_refl e s
  · exact quiet_ports e s (cpfxIn := inGrows_trans (inGrows_addTags _ _ _) (inGrows_offer _ _ _)) (pinsOut := ⟨rfl, rfl⟩)

theorem event_hardwareReset (s : State) (e : Engine) : Event e a s (hardwareReset s) := by
  cases e with
  | samp => exact .cleared rfl rfl (portsGrow_refl .samp s)
  | fsync => exact .cleared rfl rfl (portsGrow_refl .fsync s)
  | pins => exact .cleared rfl rfl (portsGrow_refl .pins s)
  | cpfx => exact .cleared rfl rfl (portsGrow_refl .cpfx s)

/-- Every action is one of the events, for every engine. -/
theorem event_of_perform (h : perform s a = .next t) (e : Engine) : Event e a s t := by
  cases a
  case bus acc => exact event_busStep h e
  case step e' => exact event_engineStep h e
  all_goals cases h
  case pushSamp x => exact .of_quiet (quiet_ports e s (sampIn := inGrows_offer _ _ _))
  case pushFsync x => exact .of_quiet (quiet_ports e s (fsyncIn := inGrows_offer _ _ _))
  case pushPins x => exact .of_quiet (quiet_ports e s (pinsIn := inGrows_offer _ _ _))
  case pushCpfx x => exact .of_quiet (quiet_ports e s (cpfxIn := inGrows_offer _ _ _))
  case tag p x => exact .of_quiet (quiet_appendTag e s p x)
  case room p n => exact .of_quiet (quiet_grantRoom e s p n)
  case qroom n => exact .of_quiet (quiet_outside s e _ _ _ _ _ _)
  case dequeue => exact .of_quiet (quiet_dequeueFrame e s)
  case relayRx ys => exact .of_quiet (quiet_relayRxItem e s ys)
  case relayTx ys => exact .of_quiet (quiet_relayTxItem e s ys)
  case hwReset => exact event_hardwareReset s e

end Events

/-! ## From one action to one step -/

/-- A property that does not see the agenda and that every action keeps is kept by every step. -/
theorem step_keeps {P : State → Prop} {s t : State} (agenda : ∀ l, P s → P { s with agenda := l })
    (action : ∀ u a, P u → perform u a = .next t → P t) (hs : P s) (h : step s = .next t) : P t := by
  obtain ⟨-, rfl⟩ | ⟨a, rest, -, hp⟩ := step_cases h
  · exact hs
  · exact action _ a (agenda rest hs) hp

end Sys2Proof.Proofs.Step

/-! PROOFS. Legal configurations (45_system_ops.md R332, R340). -/

namespace Sys2Proof.Proofs.Legal

open Sys2Proof Sys2Proof.Machine Sys2Proof.Claims Sys2Proof.Laws

/-! ## The order of the checks -/

/-- One check of a validation: its code where it fails, what the later checks say where it passes. -/
theorem firstFailing_ite {p q : Prop} [Decidable q] {c code : Byte} {rest : List (Prop × Byte)} (hpq : p ↔ q)
    (later : ¬p → firstFailing rest code) : firstFailing ((p, c) :: rest) (if q then c else code) := by
  by_cases hp : p
  · exact .inl ⟨hp, if_pos (hpq.mp hp)⟩
  · rw [if_neg (mt hpq.mpr hp)]
    exact .inr ⟨hp, later hp⟩

/-- With codes other than 0, the code is 0 exactly where no check fails. -/
theorem eq_zero_iff_of_firstFailing {checks : List (Prop × Byte)} {code : Byte} (h : firstFailing checks code)
    (nonzero : ∀ x ∈ checks, x.2 ≠ 0#8) : code = 0#8 ↔ ∀ x ∈ checks, ¬x.1 := by
  induction checks with
  | nil => simpa [firstFailing] using h
  | cons x rest ih =>
    obtain ⟨p, c⟩ := x
    rw [List.forall_mem_cons] at nonzero ⊢
    obtain ⟨hp, rfl⟩ | ⟨hp, hrest⟩ := h
    · exact ⟨fun h0 => absurd h0 nonzero.1, fun hall => absurd hp hall.1⟩
    · simp only [ih hrest nonzero.2, hp, not_false_eq_true, true_and]

/-! ## The four validations as ordered checks -/

theorem validateSamp_firstFailing (r : SampRegs) : firstFailing
    [ (r.fftLen.toNat = 0 ∨ 4096 < r.fftLen.toNat, 0x13#8),
      (r.symLen.toNat < r.fftLen.toNat ∨ 8192 < r.symLen.toNat, 0x14#8),
      (r.bandwidth.toNat = 0, 0x15#8) ] (validateSamp r) :=
  firstFailing_ite .rfl fun _ => firstFailing_ite .rfl fun _ => firstFailing_ite .rfl fun _ => rfl

theorem validatePins_firstFailing (r : PinsRegs) : firstFailing
    [ (r.fftLen.toNat = 0 ∨ 4096 < r.fftLen.toNat, 0x13#8),
      (r.nPre.toNat = 0 ∨ 16 < r.nPre.toNat, 0x1B#8),
      (r.preSymLen ≠ r.fftLen, 0x10#8) ] (validatePins r) :=
  firstFailing_ite .rfl fun _ => firstFailing_ite .rfl fun _ => firstFailing_ite .rfl fun _ => rfl

theorem validateCpfx_firstFailing (r : CpfxRegs) : firstFailing
    [ (r.inSize.toNat = 0 ∨ 4096 < r.inSize.toNat ∨ r.outSize.toNat < r.inSize.toNat ∨
        2 * r.inSize.toNat < r.outSize.toNat, 0x1C#8) ] (validateCpfx r) :=
  firstFailing_ite .rfl fun _ => rfl

/-! ### What the FSYNC checks compute -/

theorem legalNpoints_iff_mem (n : Nat) : legalNpoints n = true ↔ n ∈ [2, 4, 8, 16, 32, 64, 128, 256] := by
  simp [legalNpoints, or_assoc]

/-- A legal constellation size is a power of two from 2 to 256, and `NBITS` is its exponent. -/
theorem legalNpoints_iff (n : Nat) : legalNpoints n = true ↔ ∃ k, 1 ≤ k ∧ k ≤ 8 ∧ n = 2 ^ k := by
  rw [legalNpoints_iff_mem]
  constructor
  · intro h
    simp only [List.mem_cons, List.not_mem_nil, or_false] at h
    obtain rfl | rfl | rfl | rfl | rfl | rfl | rfl | rfl := h
    exacts [⟨1, by decide⟩, ⟨2, by decide⟩, ⟨3, by decide⟩, ⟨4, by decide⟩, ⟨5, by decide⟩, ⟨6, by decide⟩,
      ⟨7, by decide⟩, ⟨8, by decide⟩]
  · rintro ⟨k, h1, h8, rfl⟩
    interval_cases k <;> decide

theorem two_pow_log2_of_legal {n : Nat} (h : legalNpoints n = true) : 2 ^ Nat.log2 n = n := by
  obtain ⟨k, -, -, rfl⟩ := (legalNpoints_iff n).mp h
  rw [Nat.log2_two_pow]

theorem log2_le_of_legal {n : Nat} (h : legalNpoints n = true) : Nat.log2 n ≤ 8 := by
  obtain ⟨k, -, h8, rfl⟩ := (legalNpoints_iff n).mp h
  rwa [Nat.log2_two_pow]

theorem tableVal_eq (s : State) (k : Nat) : tableVal s k = (tableWord s (0x1C00 + 4 * k)).extractLsb' 0 8 :=
  BitVec.setWidth_eq_extractLsb' (by decide)

theorem maskSet_eq_maskBit (s : State) : maskSet s = maskBit s := rfl

/-- `N_ACT` is the number of set mask bits (R342). -/
theorem length_mapOf (s : State) (fft : Nat) : (mapOf s fft).length = ((List.range fft).filter (maskBit s)).length :=
  List.length_map _

theorem patterns_iff (s : State) {n : Nat} (h : legalNpoints n = true) :
    (∃ k < n, n ≤ ((tableWord s (0x1C00 + 4 * k)).extractLsb' 0 8).toNat) ↔
      (List.range n).any (fun k => decide (2 ^ Nat.log2 n ≤ (tableVal s k).toNat)) = true := by
  simp [two_pow_log2_of_legal h, tableVal_eq]

/-- The check of the last mask word looks at every bit from the symbol's length to the word's end. -/
theorem maskOutOfRange_iff (s : State) (fft : Nat) :
    maskOutOfRange s fft = true ↔ ∃ i, fft ≤ i ∧ i < 32 * ((fft + 31) / 32) ∧ maskBit s i = true := by
  simp only [maskOutOfRange, List.any_eq_true, List.mem_range]
  constructor
  · rintro ⟨k, hk, hbit⟩
    exact ⟨fft + k, by omega, by omega, hbit⟩
  · rintro ⟨i, hle, hlt, hbit⟩
    exact ⟨i - fft, by omega, by rwa [Nat.add_sub_cancel' hle]⟩

theorem validateFsync_firstFailing (s : State) (r : FsyncRegs) : firstFailing
    [ (r.fftLen.toNat = 0 ∨ 4096 < r.fftLen.toNat, 0x13#8),
      (r.occCarriers.toNat = 0 ∨ r.fftLen.toNat < r.occCarriers.toNat, 0x1A#8),
      (r.constNpoints.toNat ∉ [2, 4, 8, 16, 32, 64, 128, 256], 0x16#8),
      (r.constNvalues ≠ r.constNpoints, 0x11#8),
      (∃ k < r.constNpoints.toNat, r.constNpoints.toNat ≤ ((tableWord s (0x1C00 + 4 * k)).extractLsb' 0 8).toNat, 0x17#8),
      (∃ i, r.fftLen.toNat ≤ i ∧ i < 32 * ((r.fftLen.toNat + 31) / 32) ∧ maskSet s i = true, 0x19#8),
      (((List.range r.fftLen.toNat).filter (maskSet s)).length = 0, 0x18#8),
      (r.occCarriers.toNat < ((List.range r.fftLen.toNat).filter (maskSet s)).length, 0x12#8) ] (validateFsync s r) := by
  refine firstFailing_ite .rfl fun _ => firstFailing_ite .rfl fun _ => firstFailing_ite ?_ fun hn =>
    firstFailing_ite .rfl fun _ => firstFailing_ite (patterns_iff s ?_) fun _ =>
    firstFailing_ite (maskOutOfRange_iff s _).symm fun _ => firstFailing_ite ?_ fun _ => firstFailing_ite ?_ fun _ => rfl
  · rw [← legalNpoints_iff_mem, Bool.not_eq_true]
  · exact (legalNpoints_iff_mem _).mpr (not_not.mp hn)
  · rw [length_mapOf, maskSet_eq_maskBit]
  · rw [length_mapOf, maskSet_eq_maskBit]

/-! ## Legal configurations -/

theorem validateSamp_eq_zero_iff (r : SampRegs) : validateSamp r = 0#8 ↔
    1 ≤ r.fftLen.toNat ∧ r.fftLen.toNat ≤ 4096 ∧ r.fftLen.toNat ≤ r.symLen.toNat ∧ r.symLen.toNat ≤ 8192 ∧
    1 ≤ r.bandwidth.toNat := by
  rw [eq_zero_iff_of_firstFailing (validateSamp_firstFailing r) (by simp)]
  simp only [List.forall_mem_cons, List.not_mem_nil, false_implies, implies_true, and_true]
  omega

theorem validatePins_eq_zero_iff (r : PinsRegs) : validatePins r = 0#8 ↔
    1 ≤ r.fftLen.toNat ∧ r.fftLen.toNat ≤ 4096 ∧ 1 ≤ r.nPre.toNat ∧ r.nPre.toNat ≤ 16 ∧ r.preSymLen = r.fftLen := by
  rw [eq_zero_iff_of_firstFailing (validatePins_firstFailing r) (by simp)]
  simp only [List.forall_mem_cons, List.not_mem_nil, false_implies, implies_true, and_true, ne_eq, not_not, not_or, not_lt,
    Nat.one_le_iff_ne_zero, and_assoc]

theorem validateCpfx_eq_zero_iff (r : CpfxRegs) : validateCpfx r = 0#8 ↔
    1 ≤ r.inSize.toNat ∧ r.inSize.toNat ≤ 4096 ∧ r.inSize.toNat ≤ r.outSize.toNat ∧
    r.outSize.toNat ≤ 2 * r.inSize.toNat := by
  rw [eq_zero_iff_of_firstFailing (validateCpfx_firstFailing r) (by simp)]
  simp only [List.forall_mem_cons, List.not_mem_nil, false_implies, implies_true, and_true]
  omega

/-- The size and pattern conditions of the table, as one condition on the exponent. -/
theorem points_and_patterns_iff (s : State) (n : Nat) :
    (n ∈ [2, 4, 8, 16, 32, 64, 128, 256] ∧ ∀ k < n, ((tableWord s (0x1C00 + 4 * k)).extractLsb' 0 8).toNat < n) ↔
      ∃ b, 1 ≤ b ∧ b ≤ 8 ∧ n = 2 ^ b ∧ ∀ k < 2 ^ b, (tableVal s k).toNat < 2 ^ b := by
  simp only [← legalNpoints_iff_mem, legalNpoints_iff, tableVal_eq]
  constructor
  · rintro ⟨⟨b, h1, h8, rfl⟩, hv⟩
    exact ⟨b, h1, h8, rfl, hv⟩
  · rintro ⟨b, h1, h8, rfl, hv⟩
    exact ⟨⟨b, h1, h8, rfl⟩, hv⟩

theorem validateFsync_eq_zero_iff (s : State) (r : FsyncRegs) : validateFsync s r = 0#8 ↔
    1 ≤ r.fftLen.toNat ∧ r.fftLen.toNat ≤ 4096 ∧ 1 ≤ r.occCarriers.toNat ∧ r.occCarriers.toNat ≤ r.fftLen.toNat ∧
    (∃ n, 1 ≤ n ∧ n ≤ 8 ∧ r.constNpoints.toNat = 2 ^ n ∧ ∀ k < 2 ^ n, (tableVal s k).toNat < 2 ^ n) ∧
    r.constNvalues = r.constNpoints ∧
    (∀ i, r.fftLen.toNat ≤ i → i < 32 * ((r.fftLen.toNat + 31) / 32) → maskBit s i = false) ∧
    1 ≤ ((List.range r.fftLen.toNat).filter (maskBit s)).length ∧
    ((List.range r.fftLen.toNat).filter (maskBit s)).length ≤ r.occCarriers.toNat := by
  rw [eq_zero_iff_of_firstFailing (validateFsync_firstFailing s r) (by simp), ← points_and_patterns_iff]
  simp only [List.forall_mem_cons, List.not_mem_nil, false_implies, implies_true, and_true, maskSet_eq_maskBit, not_or,
    not_lt, not_not, not_exists, not_and, not_le, ne_eq, Bool.not_eq_true, Nat.one_le_iff_ne_zero, and_assoc]
  constructor
  · rintro ⟨h1, h2, h3, h4, h5, h6, h7, h8, h9, h10⟩
    exact ⟨h1, h2, h3, h4, h5, h7, h6, h8, h9, h10⟩
  · rintro ⟨h1, h2, h3, h4, h5, h7, h6, h8, h9, h10⟩
    exact ⟨h1, h2, h3, h4, h5, h6, h7, h8, h9, h10⟩

/-- Settles O43: each validation is an ordered list of checks, and its code is 0 where none fails. -/
theorem legalConfigurations : Obligations.LegalConfigurations :=
  ⟨validateSamp_eq_zero_iff, validateFsync_eq_zero_iff, validatePins_eq_zero_iff, validateCpfx_eq_zero_iff, fun s =>
    ⟨validateSamp_firstFailing s.samp.reg, validateFsync_firstFailing s s.fsync.reg, validatePins_firstFailing s.pins.reg,
      validateCpfx_firstFailing s.cpfx.reg⟩⟩

end Sys2Proof.Proofs.Legal

/-! PROOFS. What every step keeps: the invariants of SAMP, PINS and CPFX, the stream counters, and the frame statements of an
enabled engine (40_sampler.md R217; 42_preamble_inserter.md R291; 43_cyclic_prefixer.md R300; 20_memory.md R101, R134). -/

namespace Sys2Proof.Proofs.Kept

open Sys2Proof Sys2Proof.Machine Sys2Proof.Safety Sys2Proof.Claims Sys2Proof.Laws Sys2Proof.Proofs.Step
  Sys2Proof.Proofs.Legal

/-! ## The common registers (10_state.md R56) -/

theorem ctlOk_reset : CtlOk Ctl.reset := by simp [CtlOk, Ctl.reset]

/-- Clearing `EN` and moving `CFG_WR_IGN` keep the common registers consistent. -/
theorem ctlOk_kept {c : Ctl} (h : CtlOk c) {en : Bool} (stays : en = true → c.en = true) (ign : Bool) :
    CtlOk { c with en := en, cfgWrIgn := ign } := by
  obtain ⟨herr, hok, hfault⟩ := h
  refine ⟨fun hc => ⟨?_, (herr hc).2⟩, hok, hfault⟩
  cases en
  · rfl
  · exact absurd (stays rfl) (by simp [(herr hc).1])

/-- Whatever happens to an engine, its common registers stay consistent. -/
theorem ctlOk_of_event {e : Engine} {a : Action} {s t : State} (h : CtlOk (s.ctlOf e)) (ev : Event e a s t) :
    CtlOk (t.ctlOf e) := by
  obtain ⟨herr, hok, hfault⟩ := h
  cases ev with
  | kept en ign stays ctl => exact ctl ▸ ctlOk_kept ⟨herr, hok, hfault⟩ stays ign
  | configured off ctl => exact ctl ▸ ⟨herr, hok, hfault⟩
  | stepped on healthy completes =>
    obtain ⟨b, ctl⟩ := completes.ctl
    exact ctl ▸ ⟨herr, hok, hfault⟩
  | faulted on healthy b f may eq =>
    rw [eq, faultEntry_ctlOf]
    exact ⟨herr, hok, nofun⟩
  | cleared ctl => exact ctl ▸ ctlOk_reset
  | refused off illegal ctl => exact ctl ▸ ⟨fun _ => ⟨off, illegal⟩, nofun, hfault⟩
  | committed off legal access ctl => exact ctl ▸ ⟨nofun, fun _ => rfl, hfault⟩

/-! ## SAMP (40_sampler.md R217) -/

/-- The working state of SAMP between steps: a steady state, its countdown in range, an accepted time tag from index 0. -/
def SampWorkOk (timeout : Word) (w : SampWork) : Prop :=
  (w.state = 0#2 ∨ w.state = 2#2) ∧ (w.state = 2#2 → 1 ≤ w.countdown.toNat ∧ w.countdown.toNat ≤ timeout.toNat) ∧
  (w.state = 0#2 → w.countdown = 0#32) ∧ (w.atValid = true → w.atIdx = 0#64)

theorem sampInv_iff (s : State) : SampInv s ↔ CtlOk s.samp.ctl ∧ (s.samp.ctl.en = true → validateSamp s.samp.cfg = 0#8) ∧
    SampWorkOk s.samp.cfg.timeout s.samp.work := .rfl

theorem sampWorkOk_reset (timeout : Word) : SampWorkOk timeout SampWork.reset := by
  simp [SampWorkOk, SampWork.reset]

theorem noSignal_ne_frame : (0#2 : BitVec 2) ≠ 2#2 := by decide

/-- A completed step leaves a steady state with its countdown in range. -/
theorem sampWorkOk_of_done {s : State} {w : SampWork} {xs : List SigSymbol} (h : SampWorkOk s.samp.cfg.timeout s.samp.work)
    (hd : SampDone s w xs) : SampWorkOk s.samp.cfg.timeout w := by
  obtain ⟨hsteady, hframe, hidle, htime⟩ := h
  cases hd with
  | scan c w ingest state =>
    obtain ⟨⟨v, a, b, i, d, cv, cn, cs, rfl⟩, hat⟩ := sampIngest_frame ingest
    exact ⟨.inl rfl, fun h => absurd h noSignal_ne_frame, fun _ => hidle state, hat htime⟩
  | acquire c w x ingest =>
    obtain ⟨-, hat⟩ := sampIngest_frame ingest
    by_cases h0 : s.samp.cfg.timeout = 0#32
    · simp only [h0, if_true]
      exact ⟨.inl rfl, fun h => absurd h noSignal_ne_frame, fun _ => rfl, hat htime⟩
    · have hpos : 1 ≤ s.samp.cfg.timeout.toNat := Nat.one_le_iff_ne_zero.mpr (by simpa [← BitVec.toNat_inj] using h0)
      simp only [h0, if_false]
      exact ⟨.inr rfl, fun _ => ⟨hpos, le_rfl⟩, fun h => absurd h noSignal_ne_frame.symm, hat htime⟩
  | regular c w x ingest state more =>
    obtain ⟨⟨v, a, b, i, d, cv, cn, cs, rfl⟩, hat⟩ := sampIngest_frame ingest
    obtain ⟨hpos, hle⟩ := hframe state
    refine ⟨.inr rfl, fun _ => ?_, fun h => absurd h noSignal_ne_frame.symm, hat htime⟩
    have hne : s.samp.work.countdown.toNat ≠ 1 := by simpa [← BitVec.toNat_inj] using more
    have hsub : (s.samp.work.countdown - 1#32).toNat = s.samp.work.countdown.toNat - 1 := by
      simp only [BitVec.toNat_sub, BitVec.toNat_ofNat]
      omega
    simp only [hsub]
    omega
  | last c w x ingest =>
    obtain ⟨-, hat⟩ := sampIngest_frame ingest
    exact ⟨.inl rfl, fun h => absurd h noSignal_ne_frame, fun _ => rfl, hat htime⟩

theorem sampInv_of_event {a : Action} {s t : State} (h : SampInv s) (ev : Event .samp a s t) : SampInv t := by
  have hctl : CtlOk t.samp.ctl := ctlOk_of_event (e := .samp) ((sampInv_iff s).mp h).1 ev
  obtain ⟨-, hcfg, hwork⟩ := (sampInv_iff s).mp h
  refine (sampInv_iff t).mpr ⟨hctl, ?_⟩
  cases ev with
  | kept en ign stays ctl regs work =>
    have ctl : t.samp.ctl = _ := ctl
    have work : s.samp.work = t.samp.work := work
    rw [ctl, ← work, ← regs.2]
    exact ⟨fun h => hcfg (stays h), hwork⟩
  | configured off ctl committed work =>
    have ctl : t.samp.ctl = s.samp.ctl := ctl
    have committed : t.samp.cfg = s.samp.cfg := committed
    have work : s.samp.work = t.samp.work := work
    rw [ctl, ← work, committed]
    exact ⟨hcfg, hwork⟩
  | stepped on healthy completes =>
    obtain ⟨n, ts, xs, hdone, -⟩ := completes.done
    rw [← completes.regs.2]
    exact ⟨fun _ => hcfg on, sampWorkOk_of_done hwork hdone⟩
  | faulted on healthy b f may eq =>
    subst eq
    exact ⟨fun _ => hcfg on, hwork⟩
  | cleared ctl work =>
    have ctl : t.samp.ctl = Ctl.reset := ctl
    have work : SampWork.reset = t.samp.work := work
    rw [ctl, ← work]
    exact ⟨nofun, sampWorkOk_reset _⟩
  | refused off illegal ctl regs work =>
    have ctl : t.samp.ctl = _ := ctl
    have work : s.samp.work = t.samp.work := work
    rw [ctl, ← work, ← regs.2]
    exact ⟨hcfg, hwork⟩
  | committed off legal access ctl work frozen =>
    have work : SampWork.reset = t.samp.work := work
    rw [← work, frozen.2.1]
    exact ⟨fun _ => legal, sampWorkOk_reset _⟩

/-- Settles O15: every event of SAMP keeps the invariant; a completed step by the cases of its five operations. -/
theorem stepKeepsSampInvariant : Obligations.StepKeepsSampInvariant := fun _ _ hs h =>
  step_keeps (P := SampInv) (fun _ h => h) (fun _ _ hu hp => sampInv_of_event hu (event_of_perform hp .samp)) hs h

/-! ## PINS (42_preamble_inserter.md R291) -/

/-- The committed configuration of PINS is legal, with a complete preamble memory. -/
def PinsCfgOk (cfg : PinsRegs) (pre : List (List Cplx)) : Prop :=
  validatePins cfg = 0#8 ∧ pre.length = cfg.nPre.toNat ∧ ∀ x ∈ pre, x.length = cfg.fftLen.toNat

/-- PINS in PREAMBLE has a symbol to send and the flagged symbol pending; in FIRST_PAYLOAD it has sent all of them. -/
def PinsWorkOk (nPre : Word) (w : PinsWork) (items : List BurstSymbol) : Prop :=
  (w.state = 1#2 → w.preIdx.toNat < nPre.toNat ∧ ∃ x rest, items = x :: rest ∧ x.bs = true) ∧
  (w.state = 2#2 → w.preIdx.toNat = nPre.toNat)

theorem pinsInv_iff (s : State) : PinsInv s ↔ CtlOk s.pins.ctl ∧ (s.pins.ctl.en = true → PinsCfgOk s.pins.cfg s.pins.pre) ∧
    PinsWorkOk s.pins.cfg.nPre s.pins.work s.pinsIn.items := .rfl

theorem pinsWorkOk_reset (nPre : Word) (items : List BurstSymbol) : PinsWorkOk nPre PinsWork.reset items := by
  simp [PinsWorkOk, PinsWork.reset]

/-- A state that is neither PREAMBLE nor FIRST_PAYLOAD asks for nothing. -/
theorem pinsWorkOk_of_state {nPre : Word} {w : PinsWork} {items : List BurstSymbol} (h1 : w.state ≠ 1#2)
    (h2 : w.state ≠ 2#2) : PinsWorkOk nPre w items :=
  ⟨fun h => absurd h h1, fun h => absurd h h2⟩

/-- The pending symbol stays pending while more are offered. -/
theorem pinsWorkOk_of_grows {nPre : Word} {w : PinsWork} {items items' : List BurstSymbol} (h : PinsWorkOk nPre w items)
    (hg : items <+: items') : PinsWorkOk nPre w items' := by
  obtain ⟨more, rfl⟩ := hg
  refine ⟨fun hst => ?_, h.2⟩
  obtain ⟨hidx, x, rest, rfl, hx⟩ := h.1 hst
  exact ⟨hidx, x, rest ++ more, rfl, hx⟩

/-- The pending symbol carries the flag `BS`. -/
theorem condBs_iff (s : State) : condBs s = true ↔ ∃ x rest, s.pinsIn.items = x :: rest ∧ x.bs = true := by
  unfold condBs
  cases s.pinsIn.items <;> simp

/-- A completed step of an enabled PINS keeps its place in the preamble. -/
theorem pinsWorkOk_of_done {s : State} {w : PinsWork} {n : Nat} {xs : List AuxSymbol}
    (hcfg : PinsCfgOk s.pins.cfg s.pins.pre) (h : PinsWorkOk s.pins.cfg.nPre s.pins.work s.pinsIn.items)
    (hd : PinsDone s w n xs) : PinsWorkOk s.pins.cfg.nPre w (s.pinsIn.consume n).items := by
  obtain ⟨-, -, hpre, hpre16, -⟩ := (validatePins_eq_zero_iff _).mp hcfg.1
  cases hd with
  | drop => exact pinsWorkOk_of_state (by simp) (by simp)
  | detect flag => exact ⟨fun _ => ⟨hpre, (condBs_iff s).mp flag⟩, fun h => by simp at h⟩
  | preamble x state more =>
    obtain ⟨hidx, hitems⟩ := h.1 state
    have hne : s.pins.work.preIdx.toNat + 1 ≠ s.pins.cfg.nPre.toNat := by simpa [condPl] using more
    have hsucc : (s.pins.work.preIdx + 1#8).toNat = s.pins.work.preIdx.toNat + 1 := by
      simp only [BitVec.toNat_add, BitVec.toNat_ofNat]
      omega
    refine ⟨fun _ => ⟨?_, hitems⟩, fun h => by simp at h⟩
    simp only [hsucc]
    omega
  | lastPreamble x =>
    refine ⟨fun h => by simp at h, fun _ => ?_⟩
    simp only [BitVec.toNat_setWidth]
    omega
  | copy x => exact pinsWorkOk_of_state (by simp) (by simp)

theorem pinsInv_of_event {a : Action} {s t : State} (h : PinsInv s) (ev : Event .pins a s t) : PinsInv t := by
  have hctl : CtlOk t.pins.ctl := ctlOk_of_event (e := .pins) ((pinsInv_iff s).mp h).1 ev
  obtain ⟨-, hcfg, hwork⟩ := (pinsInv_iff s).mp h
  refine (pinsInv_iff t).mpr ⟨hctl, ?_⟩
  cases ev with
  | kept en ign stays ctl regs work ports =>
    have ctl : t.pins.ctl = _ := ctl
    have work : s.pins.work = t.pins.work := work
    rw [ctl, ← work, ← regs.2.1, ← regs.2.2]
    exact ⟨fun h => hcfg (stays h), pinsWorkOk_of_grows hwork ports.1.1⟩
  | configured off ctl committed work ports =>
    have ctl : t.pins.ctl = s.pins.ctl := ctl
    have work : s.pins.work = t.pins.work := work
    rw [ctl, ← work, committed.1, committed.2]
    exact ⟨hcfg, pinsWorkOk_of_grows hwork ports.1.1⟩
  | stepped on healthy completes =>
    obtain ⟨n, ts, xs, hdone, hin, -⟩ := completes.done
    rw [← completes.regs.2.1, ← completes.regs.2.2, hin]
    exact ⟨fun _ => hcfg on, pinsWorkOk_of_done (hcfg on) hwork hdone⟩
  | faulted on healthy b f may => exact may.elim
  | cleared ctl work =>
    have ctl : t.pins.ctl = Ctl.reset := ctl
    have work : PinsWork.reset = t.pins.work := work
    rw [ctl, ← work]
    exact ⟨nofun, pinsWorkOk_reset _ _⟩
  | refused off illegal ctl regs work ports =>
    have ctl : t.pins.ctl = _ := ctl
    have work : s.pins.work = t.pins.work := work
    rw [ctl, ← work, ← regs.2.1, ← regs.2.2]
    exact ⟨hcfg, pinsWorkOk_of_grows hwork ports.1.1⟩
  | committed off legal access ctl work frozen =>
    have work : PinsWork.reset = t.pins.work := work
    rw [← work, frozen.2.1, frozen.2.2.1]
    exact ⟨fun _ => ⟨legal, by simp [preOf], by simp [preOf]⟩, pinsWorkOk_reset _ _⟩

/-- Settles O32: every event of PINS keeps the invariant; what is offered leaves the pending symbol in place. -/
theorem stepKeepsPinsInvariant : Obligations.StepKeepsPinsInvariant := fun _ _ hs h =>
  step_keeps (P := PinsInv) (fun _ h => h) (fun _ _ hu hp => pinsInv_of_event hu (event_of_perform hp .pins)) hs h

/-! ## CPFX (43_cyclic_prefixer.md R300) -/

theorem cpfxInv_of_event {a : Action} {s t : State} (h : CpfxInv s) (ev : Event .cpfx a s t) : CpfxInv t := by
  obtain ⟨hctl, hcfg, hwr⟩ := h
  refine ⟨ctlOk_of_event (e := .cpfx) hctl ev, ?_⟩
  cases ev with
  | kept en ign stays ctl regs work =>
    have ctl : t.cpfx.ctl = _ := ctl
    have work : s.cpfx.work = t.cpfx.work := work
    rw [ctl, ← work, ← regs.2]
    exact ⟨fun h => hcfg (stays h), hwr⟩
  | configured off ctl committed work =>
    have ctl : t.cpfx.ctl = s.cpfx.ctl := ctl
    have committed : t.cpfx.cfg = s.cpfx.cfg := committed
    have work : s.cpfx.work = t.cpfx.work := work
    rw [ctl, ← work, committed]
    exact ⟨hcfg, hwr⟩
  | stepped on healthy completes =>
    obtain ⟨ts, hdone, -⟩ := completes.done
    rw [← completes.regs.2, hdone]
    refine ⟨fun _ => hcfg on, ?_⟩
    simp only [hwr, BitVec.add_mul, BitVec.one_mul]
  | faulted on healthy b f may => exact may.elim
  | cleared ctl work =>
    have ctl : t.cpfx.ctl = Ctl.reset := ctl
    have work : CpfxWork.reset = t.cpfx.work := work
    rw [ctl, ← work]
    exact ⟨nofun, (BitVec.zero_mul).symm⟩
  | refused off illegal ctl regs work =>
    have ctl : t.cpfx.ctl = _ := ctl
    have work : s.cpfx.work = t.cpfx.work := work
    rw [ctl, ← work, ← regs.2]
    exact ⟨hcfg, hwr⟩
  | committed off legal access ctl work frozen =>
    have work : CpfxWork.reset = t.cpfx.work := work
    rw [← work, frozen.2.1]
    exact ⟨fun _ => legal, (BitVec.zero_mul).symm⟩

/-- Settles O35: a completed step adds `OUT_SIZE` to `wr` and one to `rd`; every other event keeps or resets both. -/
theorem stepKeepsCpfxInvariant : Obligations.StepKeepsCpfxInvariant := fun _ _ hs h =>
  step_keeps (P := CpfxInv) (fun _ h => h) (fun _ _ hu hp => cpfxInv_of_event hu (event_of_perform hp .cpfx)) hs h

/-! ## Output counters (20_memory.md R101, R102) -/

/-- While SAMP is enabled its `wr` is the number of symbols it produced. -/
def SampCounts (s : State) : Prop := s.samp.ctl.en = true → s.samp.work.wr = BitVec.ofNat 64 s.sampOut.items.length

/-- While PINS is enabled its `wr` is the number of symbols it produced. -/
def PinsCounts (s : State) : Prop := s.pins.ctl.en = true → s.pins.work.wr = BitVec.ofNat 64 s.pinsOut.items.length

/-- While CPFX is enabled its configuration is legal and its `wr` is the number of samples it produced. -/
def CpfxCounts (s : State) : Prop := s.cpfx.ctl.en = true →
  validateCpfx s.cpfx.cfg = 0#8 ∧ s.cpfx.work.wr = BitVec.ofNat 64 s.cpfxOut.items.length

theorem streamInv_iff (s : State) : StreamInv s ↔ SampCounts s ∧ PinsCounts s ∧ CpfxCounts s := by
  unfold StreamInv SampCounts PinsCounts CpfxCounts
  tauto

/-- A completed step of SAMP advances `wr` by what it produces. -/
theorem wr_of_sampDone {s : State} {w : SampWork} {xs : List SigSymbol} (h : SampDone s w xs) :
    w.wr = s.samp.work.wr + BitVec.ofNat 64 xs.length := by
  cases h with
  | scan c w ingest =>
    obtain ⟨⟨v, a, b, i, d, cv, cn, cs, rfl⟩, -⟩ := sampIngest_frame ingest
    simp
  | _ c w x ingest =>
    obtain ⟨⟨v, a, b, i, d, cv, cn, cs, rfl⟩, -⟩ := sampIngest_frame ingest
    rfl

/-- So does one of PINS. -/
theorem wr_of_pinsDone {s : State} {w : PinsWork} {n : Nat} {xs : List AuxSymbol} (h : PinsDone s w n xs) :
    w.wr = s.pins.work.wr + BitVec.ofNat 64 xs.length := by
  cases h <;> simp

/-- Advancing the count with the list. -/
theorem ofNat_length_append {α : Type} {wr : Dword} {xs : List α} (h : wr = BitVec.ofNat 64 xs.length) (ys : List α) :
    wr + BitVec.ofNat 64 ys.length = BitVec.ofNat 64 (xs ++ ys).length := by
  rw [h, List.length_append, BitVec.ofNat_add]

/-- The events that leave an engine enabled: it is left as it was, steps, faults, or is committed anew. -/
theorem event_of_enabled {e : Engine} {a : Action} {s t : State} (ev : Event e a s t) (ht : (t.ctlOf e).en = true) :
    ((s.ctlOf e).en = true ∧ sameRegs e s t ∧ sameWork e s t ∧ portsGrow e s t) ∨
    ((s.ctlOf e).en = true ∧ Completes e s t) ∨
    ((s.ctlOf e).en = false ∧ validate s e = 0#8 ∧
      (∃ d, a = .bus (busWrite (baseOf e) d) ∧ d.getLsbD 0 = true ∧ d.getLsbD 1 = false) ∧
      sameWork e State.reset t ∧ frozen e s t) := by
  cases ev with
  | kept en ign stays ctl regs work ports =>
    rw [ctl] at ht
    exact .inl ⟨stays ht, regs, work, ports⟩
  | configured off ctl =>
    rw [ctl, off] at ht
    cases ht
  | stepped on healthy completes => exact .inr (.inl ⟨on, completes⟩)
  | faulted on healthy b f may eq =>
    subst eq
    exact .inl ⟨on, SystemOps.sameRegs_setCtl s e _, SystemOps.sameWork_setCtl s e _, portsGrow_setCtl s e _⟩
  | cleared ctl =>
    rw [ctl] at ht
    cases ht
  | refused off illegal ctl =>
    rw [ctl] at ht
    rw [off] at ht
    cases ht
  | committed off legal access ctl work frozen => exact .inr (.inr ⟨off, legal, access, work, frozen⟩)

theorem sampCounts_of_event {a : Action} {s t : State} (h : SampCounts s) (ev : Event .samp a s t) : SampCounts t := by
  intro ht
  obtain ⟨on, -, work, -, hout, -⟩ | ⟨on, completes⟩ | ⟨-, -, -, work, -, -, -, hout⟩ := event_of_enabled ev ht
  · have work : s.samp.work = t.samp.work := work
    rw [← work, hout, h on]
  · obtain ⟨n, ts, xs, hdone, -, hout⟩ := completes.done
    rw [wr_of_sampDone hdone, hout, produce_items, emit_items, ofNat_length_append (h on)]
  · have work : SampWork.reset = t.samp.work := work
    rw [← work, hout]
    rfl

theorem pinsCounts_of_event {a : Action} {s t : State} (h : PinsCounts s) (ev : Event .pins a s t) : PinsCounts t := by
  intro ht
  obtain ⟨on, -, work, -, hout, -⟩ | ⟨on, completes⟩ | ⟨-, -, -, work, -, -, -, -, hout⟩ := event_of_enabled ev ht
  · have work : s.pins.work = t.pins.work := work
    rw [← work, hout, h on]
  · obtain ⟨n, ts, xs, hdone, -, hout⟩ := completes.done
    rw [wr_of_pinsDone hdone, hout, produce_items, emit_items, ofNat_length_append (h on)]
  · have work : PinsWork.reset = t.pins.work := work
    rw [← work, hout]
    rfl

theorem cpfxCounts_of_event {a : Action} {s t : State} (h : CpfxCounts s) (ev : Event .cpfx a s t) : CpfxCounts t := by
  intro ht
  obtain ⟨on, regs, work, -, hout, -⟩ | ⟨on, completes⟩ | ⟨-, legal, -, work, -, hcfg, -, hout⟩ := event_of_enabled ev ht
  · have work : s.cpfx.work = t.cpfx.work := work
    rw [← work, hout, ← regs.2]
    exact h on
  · obtain ⟨legal, hwr⟩ := h on
    obtain ⟨ts, hdone, -, hout⟩ := completes.done
    refine ⟨completes.regs.2 ▸ legal, ?_⟩
    rw [hdone, hout, produce_items, emit_items, ← ofNat_length_append hwr, prefixed_length legal, BitVec.ofNat_toNat]
  · have work : CpfxWork.reset = t.cpfx.work := work
    rw [← work, hout, hcfg]
    exact ⟨legal, rfl⟩

/-- Settles O38: a completed step produces as many items as it adds to `wr`; an accepted commit starts both at 0. -/
theorem stepKeepsStreamCounters : Obligations.StepKeepsStreamCounters := by
  intro s t hs h
  rw [streamInv_iff] at hs ⊢
  obtain ⟨hsamp, hpins, hcpfx⟩ := hs
  exact ⟨
    step_keeps (P := SampCounts) (fun _ h => h) (fun _ _ hu hp => sampCounts_of_event hu (event_of_perform hp .samp)) hsamp h,
    step_keeps (P := PinsCounts) (fun _ h => h) (fun _ _ hu hp => pinsCounts_of_event hu (event_of_perform hp .pins)) hpins h,
    step_keeps (P := CpfxCounts) (fun _ h => h) (fun _ _ hu hp => cpfxCounts_of_event hu (event_of_perform hp .cpfx)) hcpfx h⟩

/-! ## Tags and outputs of an enabled engine (20_memory.md R102, R106) -/

/-- The tag lists of the ports of engine `e` and its produced items are only appended to. -/
def streamsGrow (e : Engine) (s t : State) : Prop :=
  match e with
  | .samp => s.sampIn.tags <+: t.sampIn.tags ∧ outGrows s.sampOut t.sampOut
  | .fsync => s.fsyncIn.tags <+: t.fsyncIn.tags
  | .pins => s.pinsIn.tags <+: t.pinsIn.tags ∧ outGrows s.pinsOut t.pinsOut
  | .cpfx => s.cpfxIn.tags <+: t.cpfxIn.tags ∧ outGrows s.cpfxOut t.cpfxOut

theorem outGrows_of_outKept {α : Type} {p q : OutPort α} (h : outKept p q) : outGrows p q := by
  rw [outGrows, h.1, h.2]
  exact ⟨List.prefix_rfl, List.prefix_rfl⟩

theorem outGrows_produce {α : Type} (p : OutPort α) (ts : List Tag) (xs : List α) : outGrows p ((p.emit ts).produce xs) :=
  ⟨List.prefix_append _ _, List.prefix_append _ _⟩

theorem streamsGrow_of_portsGrow {e : Engine} {s t : State} (h : portsGrow e s t) : streamsGrow e s t := by
  cases e with
  | fsync => exact h.2
  | _ => exact ⟨h.1.2, outGrows_of_outKept h.2⟩

theorem streamsGrow_of_done {e : Engine} {s t : State} (h : done e s t) : streamsGrow e s t := by
  cases e with
  | samp =>
    obtain ⟨n, ts, xs, -, hin, hout⟩ := h
    rw [streamsGrow, hin, hout]
    exact ⟨List.prefix_rfl, outGrows_produce _ _ _⟩
  | fsync =>
    obtain ⟨f, -, hin, -⟩ := h
    rw [streamsGrow, hin]
    exact List.prefix_rfl
  | pins =>
    obtain ⟨n, ts, xs, -, hin, hout⟩ := h
    rw [streamsGrow, hin, hout]
    exact ⟨List.prefix_rfl, outGrows_produce _ _ _⟩
  | cpfx =>
    obtain ⟨ts, -, hin, hout⟩ := h
    rw [streamsGrow, hin, hout]
    exact ⟨List.prefix_rfl, outGrows_produce _ _ _⟩

/-- Only a commit, which finds the engine disabled, starts its streams anew. -/
theorem streamsGrow_of_event {e : Engine} {a : Action} {s t : State} (ev : Event e a s t) (on : (s.ctlOf e).en = true) :
    streamsGrow e s t := by
  cases ev with
  | kept en ign stays ctl regs work ports => exact streamsGrow_of_portsGrow ports
  | configured off ctl committed work ports => exact streamsGrow_of_portsGrow ports
  | stepped on healthy completes => exact streamsGrow_of_done completes.done
  | faulted on healthy b f may eq => exact streamsGrow_of_portsGrow (eq ▸ portsGrow_setCtl s e _)
  | cleared ctl work ports => exact streamsGrow_of_portsGrow ports
  | refused off illegal ctl regs work ports => exact streamsGrow_of_portsGrow ports
  | committed off => exact absurd on (by simp [off])

/-- Every step is one event for every engine, from the state with the action taken off the agenda; or nothing happens. -/
theorem event_of_step {s t : State} (h : step s = .next t) (e : Engine) :
    t = s ∨ ∃ a rest, s.agenda = a :: rest ∧ Event e a { s with agenda := rest } t := by
  obtain ⟨-, rfl⟩ | ⟨a, rest, ha, hp⟩ := step_cases h
  · exact .inl rfl
  · exact .inr ⟨a, rest, ha, event_of_perform hp e⟩

theorem streamsGrow_of_step {s t : State} (h : step s = .next t) {e : Engine} (on : (s.ctlOf e).en = true) :
    streamsGrow e s t := by
  obtain rfl | ⟨a, rest, -, ev⟩ := event_of_step h e
  · exact streamsGrow_of_portsGrow (portsGrow_refl e t)
  · have on' : (State.ctlOf { s with agenda := rest } e).en = true := by cases e <;> exact on
    have grows := streamsGrow_of_event ev on'
    cases e <;> exact grows

/-- Settles O37, engine by engine. -/
theorem tagsAndOutputsOnlyGrow : Obligations.TagsAndOutputsOnlyGrow := fun _ _ h =>
  ⟨streamsGrow_of_step (e := .samp) h, streamsGrow_of_step (e := .fsync) h, streamsGrow_of_step (e := .pins) h,
    streamsGrow_of_step (e := .cpfx) h⟩

/-! ## What only a commit does (45_system_ops.md R331, R335) -/

/-- Settles O53: of the events that leave an engine enabled, only an accepted commit finds it disabled. -/
theorem onlyCommitEnables : Obligations.OnlyCommitEnables := by
  intro e s t h off on
  obtain rfl | ⟨a, rest, ha, ev⟩ := event_of_step h e
  · rw [off] at on
    cases on
  · have off' : (State.ctlOf { s with agenda := rest } e).en = false := by cases e <;> exact off
    obtain ⟨on', -⟩ | ⟨on', -⟩ | ⟨-, legal, ⟨d, rfl, h0, h1⟩, work, -⟩ := event_of_enabled ev on
    · exact absurd on' (by simp [off'])
    · exact absurd on' (by simp [off'])
    · refine ⟨?_, work, d, rest, ha, h0, h1⟩
      cases e <;> exact legal

/-! ## A faulted engine (60_exceptions.md R365, R366, R372) -/

/-- Settles O52: a faulted engine has no step, and an enabled one no commit; what remains keeps the record or resets it. -/
theorem faultedEngineIsFrozen : Obligations.FaultedEngineIsFrozen := by
  intro e s t h on faulty still
  obtain rfl | ⟨a, rest, -, ev⟩ := event_of_step h e
  · exact ⟨sameWork_refl e t, rfl, rfl, rfl⟩
  have hctl : State.ctlOf { s with agenda := rest } e = s.ctlOf e := by cases e <;> rfl
  have hwork : sameWork e { s with agenda := rest } t → sameWork e s t := by cases e <;> exact id
  cases ev with
  | kept en ign stays ctl regs work =>
    rw [ctl, hctl]
    exact ⟨hwork work, rfl, rfl, rfl⟩
  | configured off => exact absurd on (by simp [← hctl, off])
  | stepped on healthy => exact absurd faulty (by simp [← hctl, healthy])
  | faulted on healthy => exact absurd faulty (by simp [← hctl, healthy])
  | cleared ctl => exact absurd still (by simp [ctl, Ctl.reset])
  | refused off => exact absurd on (by simp [← hctl, off])
  | committed off => exact absurd on (by simp [← hctl, off])

end Sys2Proof.Proofs.Kept

/-! PROOFS. Encoding (30_encoding.md R160 to R168) and the step that runs what was decoded (20_memory.md R103, R122). -/

namespace Sys2Proof.Proofs.Encoding

open Sys2Proof Sys2Proof.Machine Sys2Proof.Claims Sys2Proof.Laws Sys2Proof.Proofs.Step

/-! ## The round trip (R160, R162, R168) -/

theorem aligned_ctrlAddr (e : Engine) : aligned (baseOf e) = true := by cases e <;> rfl

theorem ctrlAt_ctrlAddr (e : Engine) : ctrlAt (baseOf e) = some e := by cases e <;> rfl

/-- Bits 1 and 0 of the word decide what a write to CTRL decodes to. -/
theorem decodeBus_ctrlWrite (e : Engine) (d : Word) :
    decodeBus (busWrite (baseOf e) d) =
      if d.getLsbD 1 then .ok (.sysSrst e d) else if d.getLsbD 0 then .ok (.sysCommit e d) else .ok (.sysStop e d) := by
  simp [decodeBus, busWrite, aligned_ctrlAddr, ctrlAt_ctrlAddr]

theorem decodeBus_read {a : BusAddr} (ha : aligned a = true) : decodeBus (busRead a) = .ok (.sysRead a) := by
  simp [decodeBus, busRead, ha]

/-- No address is both a CTRL or STATUS register and a configuration word. -/
theorem ctrlAt_eq_none_of_isCfgWord {a : BusAddr} (h : isCfgWord a = true) : ctrlAt a = none := by
  unfold ctrlAt
  split_ifs <;> subst_vars
  all_goals first | rfl | exact absurd h (by decide)

theorem statusAt_eq_none_of_isCfgWord {a : BusAddr} (h : isCfgWord a = true) : statusAt a = none := by
  unfold statusAt
  split_ifs <;> subst_vars
  all_goals first | rfl | exact absurd h (by decide)

theorem decodeBus_cfgWrite {a : BusAddr} (ha : aligned a = true) (hc : isCfgWord a = true) (d : Word) :
    decodeBus (busWrite a d) = .ok (.sysCfgwr a d) := by
  simp [decodeBus, busWrite, ha, hc, ctrlAt_eq_none_of_isCfgWord hc, statusAt_eq_none_of_isCfgWord hc]

/-- Settles O1: selectors by their finite rows, bus accesses by the register their address names. -/
theorem decodeEncodeRoundTrip : Obligations.DecodeEncodeRoundTrip := by
  intro i hwf
  cases i
  case sysSrst e d =>
    have h1 : d.getLsbD 1 = true := hwf
    exact (decodeBus_ctrlWrite e d).trans (by rw [h1]; rfl)
  case sysCommit e d =>
    obtain ⟨h0, h1⟩ : d.getLsbD 0 = true ∧ d.getLsbD 1 = false := by simpa [Instr.wf] using hwf
    exact (decodeBus_ctrlWrite e d).trans (by rw [h1, h0]; rfl)
  case sysStop e d =>
    obtain ⟨h0, h1⟩ : d.getLsbD 0 = false ∧ d.getLsbD 1 = false := by simpa [Instr.wf] using hwf
    exact (decodeBus_ctrlWrite e d).trans (by rw [h1, h0]; rfl)
  case sysCfgwr a d =>
    obtain ⟨ha, hc⟩ : aligned a = true ∧ isCfgWord a = true := by simpa [Instr.wf] using hwf
    exact decodeBus_cfgWrite ha hc d
  case sysW1c e d =>
    have h7 : d.getLsbD 7 = true := hwf
    exact (SystemOps.decodeBus_statusWrite e d).trans (by rw [h7]; rfl)
  case sysRead a => exact decodeBus_read hwf
  case piFirst pl bs => revert pl bs; decide
  case saScan l => revert l; decide
  case saAcq l => revert l; decide
  case saReacq l => revert l; decide
  case fsHdr sig => revert sig; decide
  case fsPay sig => revert sig; decide
  case piDrop pl => revert pl; decide
  case piDetect pl => revert pl; decide
  case piPre bs => revert bs; decide
  case piPrel bs => revert bs; decide
  case piCopy pl => revert pl; decide
  case piRedetect pl => revert pl; decide
  all_goals decide

/-- What the selector decoder answers for a byte is an operation with that selector, or no operation. -/
def rightlyDecoded (b : Byte) : Bool :=
  match decodeSel b with
  | .ok i => i.wf && decide (encode i = .sel b)
  | .error _ => true

theorem rightlyDecoded_all : ∀ b : Byte, rightlyDecoded b = true := by decide

theorem wf_and_encode_of_decodeSel {b : Byte} {i : Instr} (h : decodeSel b = .ok i) : i.wf = true ∧ encode i = .sel b := by
  have hb := rightlyDecoded_all b
  simpa [rightlyDecoded, h] using hb

theorem wf_and_encode_of_decodeBus {acc : BusAccess} {i : Instr} (h : decodeBus acc = .ok i) :
    i.wf = true ∧ encode i = .bus acc := by
  obtain ⟨hw, ha, ⟨hop, rfl⟩ | ⟨e, d, rfl, h1, rfl⟩ | ⟨e, d, rfl, h1, h0, rfl⟩ | ⟨e, d, rfl, h1, h0, rfl⟩ |
    ⟨e, d, rfl, h7, rfl⟩ | ⟨d, hop, hc, rfl⟩⟩ := decodeBus_cases h
  · obtain ⟨op, addr, width⟩ := acc
    subst hop hw
    exact ⟨ha, rfl⟩
  · exact ⟨h1, rfl⟩
  · exact ⟨by rw [Instr.wf, h0, h1]; rfl, rfl⟩
  · exact ⟨by rw [Instr.wf, h0, h1]; rfl, rfl⟩
  · exact ⟨h7, rfl⟩
  · obtain ⟨op, addr, width⟩ := acc
    subst hop hw
    exact ⟨by simp [Instr.wf, ha, hc], rfl⟩

/-- Settles O2: selectors over the 256 bytes, bus accesses by the cases of the bus decoder. -/
theorem decodedCodeIsItsEncoding : Obligations.DecodedCodeIsItsEncoding := by
  intro c i h
  cases c with
  | sel b => exact wf_and_encode_of_decodeSel h
  | bus acc => exact wf_and_encode_of_decodeBus h

/-- Settles O3: ten words, decoded. -/
theorem writtenWordsDecode : Obligations.WrittenWordsDecode := by
  unfold Obligations.WrittenWordsDecode
  decide

/-! ## Every selector an engine forms (R162, R165) -/

/-- At most one row of the table matches a byte. -/
theorem selRows_disjoint : ∀ b : Byte, (selRows.filter fun r => (b &&& r.2) == r.1).length ≤ 1 := by decide

/-- A two-bit state is one of four. -/
theorem state_cases : ∀ st : BitVec 2, st = 0#2 ∨ st = 1#2 ∨ st = 2#2 ∨ st = 3#2 := by decide

/-- An engine's selector is that of an operation, or the reserved one of SAMP in state 1 or 3 or of FSYNC in state 3. -/
theorem decodeSel_selector (s : State) (e : Engine) :
    (∃ i, decodeSel (selector s e) = .ok i) ∨
    (e = .samp ∧ (s.samp.work.state = 1#2 ∨ s.samp.work.state = 3#2) ∧
      decodeSel (selector s e) = .error (.illegalState s.samp.work.state)) ∨
    (e = .fsync ∧ s.fsync.work.state = 3#2 ∧ decodeSel (selector s e) = .error (.illegalState 3#2)) := by
  cases e with
  | samp =>
    rw [selector, decodeSel_samp]
    obtain h | h | h | h := state_cases s.samp.work.state <;> simp [h]
  | fsync =>
    rw [selector, decodeSel_fsync]
    obtain h | h | h | h := state_cases s.fsync.work.state <;> simp [h]
  | pins => exact .inl ⟨_, decodeSel_pins _ _ _⟩
  | cpfx => exact .inl ⟨_, decodeSel_cpfx _⟩

/-- Settles O4: the rows over the 256 bytes; the selectors of each engine by its state. -/
theorem selectorsAreCovered : Obligations.SelectorsAreCovered :=
  ⟨selRows_disjoint, fun s e => (decodeSel_selector s e).imp_left fun ⟨i, hi⟩ => ⟨i, hi, (wf_and_encode_of_decodeSel hi).2⟩⟩

/-! ## The step runs what was decoded (20_memory.md R103, R120) -/

theorem step_of_turn {s : State} {e : Engine} {rest : List Action} (h : s.agenda = .step e :: rest) :
    step s = engineStep { s with agenda := rest } e := by
  rw [step, h]
  rfl

/-- Settles O5. -/
theorem stepRunsDecodedOperation : Obligations.StepRunsDecodedOperation := by
  refine ⟨fun s e rest i ha hen hi => ?_, fun s acc rest i ha hi => ?_⟩
  · rw [step_of_turn ha, engineStep, enabled_agenda, selector_agenda, hen, hi]
    rfl
  · rw [SystemOps.step_of_bus ha, busStep, hi]

/-! ## Held engines (20_memory.md R103, 41_frame_sync.md R264) -/

theorem hasSpace_eq_false_iff {α : Type} (p : OutPort α) (n : Nat) :
    p.hasSpace n = false ↔ ∃ k, p.space = some k ∧ k < n := by
  unfold OutPort.hasSpace
  cases p.space <;> simp

theorem hasSpace_one_eq_false_iff {α : Type} (p : OutPort α) : p.hasSpace 1 = false ↔ p.space = some 0 := by
  rw [hasSpace_eq_false_iff]
  constructor
  · rintro ⟨k, hk, hlt⟩
    rw [hk, Nat.lt_one_iff.mp hlt]
  · exact fun h => ⟨0, h, Nat.one_pos⟩

theorem avail_lt_one_iff {α : Type} (p : InPort α) : p.avail < 1 ↔ p.items = [] := by
  rw [Nat.lt_one_iff, InPort.avail, List.length_eq_zero_iff]

theorem queueHasRoom_eq_false_iff (s : State) : queueHasRoom s = false ↔ s.qroom = some 0 := by
  simp [queueHasRoom]

theorem running_eq_false_iff (c : Ctl) : c.running = false ↔ c.en = false ∨ c.fault = true := by
  rw [Ctl.running, Bool.and_eq_false_iff, Bool.not_eq_false']

/-- What each engine needs is what `held` says is missing. -/
theorem held_iff (s : State) (e : Engine) : held s e ↔ enabled s e = false := by
  unfold held enabled
  rw [Bool.and_eq_false_iff, running_eq_false_iff, or_assoc]
  cases e with
  | samp =>
    simp only [Bool.and_eq_false_iff, decide_eq_false_iff_not, not_le, hasSpace_one_eq_false_iff]
    rfl
  | fsync =>
    simp only [Bool.and_eq_false_iff, Bool.or_eq_false_iff, decide_eq_false_iff_not, not_le, avail_lt_one_iff,
      queueHasRoom_eq_false_iff, Bool.not_eq_false', Bool.or_eq_true, beq_iff_eq]
  | pins =>
    simp only [Bool.and_eq_false_iff, decide_eq_false_iff_not, not_le, avail_lt_one_iff, hasSpace_one_eq_false_iff]
  | cpfx =>
    simp only [Bool.and_eq_false_iff, decide_eq_false_iff_not, not_le, avail_lt_one_iff, hasSpace_eq_false_iff]

/-- Settles O6. -/
theorem heldEngineDoesNothing : Obligations.HeldEngineDoesNothing := by
  refine fun s e => ⟨held_iff s e, fun rest ha hheld => ?_⟩
  rw [step_of_turn ha, engineStep, enabled_agenda, (held_iff s e).mp hheld]
  rfl

/-! ## Reserved states (30_encoding.md R165, 60_exceptions.md R364) -/

theorem engineStep_of_reserved {s : State} {e : Engine} {st : BitVec 2} (hen : enabled s e = true)
    (h : decodeSel (selector s e) = .error (.illegalState st)) :
    engineStep s e = .next (faultEntry s e (selector s e) (faultIllegalState st)) := by
  rw [engineStep, hen, h]
  rfl

/-- Settles O7: the selector of a reserved state decodes to the fault. -/
theorem reservedStateTakesFault : Obligations.ReservedStateTakesFault := by
  refine ⟨fun s rest ha hen hst => ?_, fun s rest ha hen hst => ?_⟩
  · have hsel : decodeSel (selector s .samp) = .error (.illegalState s.samp.work.state) := by
      rw [selector, decodeSel_samp]
      obtain h | h := hst <;> rw [h] <;> rfl
    rw [step_of_turn ha, engineStep_of_reserved (by rwa [enabled_agenda]) (by rwa [selector_agenda]), selector_agenda]
    rfl
  · have hsel : decodeSel (selector s .fsync) = .error (.illegalState 3#2) := by
      rw [selector, decodeSel_fsync, hst]
      rfl
    rw [step_of_turn ha, engineStep_of_reserved (by rwa [enabled_agenda]) (by rwa [selector_agenda]), selector_agenda]
    rfl

/-! ## Every step answers a next state (60_exceptions.md R364) -/

theorem endStep_answers (s : State) (e : Engine) (b : Byte) (r : Except HwFault State) : ∃ t, endStep s e b r = .next t := by
  cases r with
  | ok u => exact ⟨_, endStep_ok s e b u⟩
  | error f => exact ⟨_, endStep_error s e b f⟩

/-- An operation that can fault ends its step either way; every other one is a next state as it stands. -/
theorem exec_answers (i : Instr) (s : State) : ∃ t, exec i s = .next t := by
  cases i
  case saScan | saAcq | saSym | saLast | saReacq | fsAcq | fsHdr | fsPay => exact endStep_answers s _ _ _
  all_goals exact ⟨_, rfl⟩

theorem engineStep_answers (s : State) (e : Engine) : ∃ t, engineStep s e = .next t := by
  cases hen : enabled s e with
  | false => exact ⟨s, by rw [engineStep, hen]; rfl⟩
  | true =>
    obtain ⟨i, hi⟩ | ⟨-, -, hi⟩ | ⟨-, -, hi⟩ := decodeSel_selector s e
    · obtain ⟨t, ht⟩ := exec_answers i s
      exact ⟨t, by rw [engineStep, hen, hi]; exact ht⟩
    · exact ⟨_, engineStep_of_reserved hen hi⟩
    · exact ⟨_, engineStep_of_reserved hen hi⟩

theorem busStep_answers (s : State) (acc : BusAccess) : ∃ t, busStep s acc = .next t := by
  cases h : decodeBus acc with
  | ok i => simpa only [busStep, h] using exec_answers i s
  | error err => exact ⟨idleAccess s acc, by rw [busStep, h]⟩

/-- Settles O8: engine steps and bus accesses by what they run, the environment's actions as they stand. -/
theorem everyStepAnswersNextState : Obligations.EveryStepAnswersNextState := by
  intro s
  cases ha : s.agenda with
  | nil => exact ⟨s, by rw [step, ha]⟩
  | cons a rest =>
    have hstep : step s = perform { s with agenda := rest } a := by rw [step, ha]
    rw [hstep]
    cases a
    case bus acc => exact busStep_answers _ acc
    case step e => exact engineStep_answers _ e
    all_goals exact ⟨_, rfl⟩

/-! ## Refused accesses (20_memory.md R122, R123) -/

theorem not_aligned_iff {a : BusAddr} : aligned a = false ↔ a.toNat % 4 ≠ 0 := by
  rw [Ne, ← aligned_iff, Bool.not_eq_true]

theorem busStep_of_error {acc : BusAccess} {err : DecodeError} (s : State) (h : decodeBus acc = .error err) :
    busStep s acc = .next (idleAccess s acc) := by
  rw [busStep, h]

theorem decodeBus_of_unaligned_or_narrow {acc : BusAccess} (h : acc.width ≠ .word ∨ acc.addr.toNat % 4 ≠ 0) :
    decodeBus acc = .error .notAlignedWord := by
  rw [← not_aligned_iff] at h
  rw [decodeBus, if_pos h]

/-- A write no register takes decodes to nothing. -/
theorem decodeBus_unowned {a : BusAddr} {d : Word} (hctrl : ctrlAt a = none) (hcfg : isCfgWord a = false)
    (hstatus : statusAt a ≠ none → d.getLsbD 7 = false) : ∃ err, decodeBus (busWrite a d) = .error err := by
  cases ha : aligned a with
  | false => exact ⟨_, decodeBus_of_unaligned_or_narrow (.inr (not_aligned_iff.mp ha))⟩
  | true =>
    cases hst : statusAt a with
    | none => exact ⟨.ignoredWrite, by simp [decodeBus, busWrite, ha, hctrl, hst, hcfg]⟩
    | some e =>
      have h7 : d[7] = false := hstatus (by rw [hst]; exact Option.some_ne_none e)
      exact ⟨.statusReadOnly, by simp [decodeBus, busWrite, ha, hctrl, hst, h7]⟩

/-- Settles O9: such an access decodes to nothing, and what decodes to nothing changes nothing. -/
theorem refusedBusAccessChangesNothing : Obligations.RefusedBusAccessChangesNothing := by
  refine ⟨fun s acc rest ha h => ?_, fun s a d rest ha hctrl hcfg hstatus => ?_⟩
  · rw [SystemOps.step_of_bus ha, busStep_of_error _ (decodeBus_of_unaligned_or_narrow h)]
    obtain ⟨op, addr, width⟩ := acc
    cases op <;> rfl
  · obtain ⟨err, herr⟩ := decodeBus_unowned hctrl hcfg hstatus
    rw [SystemOps.step_of_bus ha, SystemOps.busStep_busWrite_of_error _ herr]

end Sys2Proof.Proofs.Encoding

/-! PROOFS. Tables, queue and the boundary between the engines (10_state.md R40, R68 to R72; 20_memory.md R110, R123, R134). -/

namespace Sys2Proof.Proofs.Apart

open Sys2Proof Sys2Proof.Machine Sys2Proof.Safety Sys2Proof.Claims Sys2Proof.Laws Sys2Proof.Proofs.Step
  Sys2Proof.Proofs.Kept

/-! ## The windows of the tables (20_memory.md R123) -/

/-- The first address of a table's window, and the first one beyond it. -/
def window : Table → Nat × Nat
  | .carrierMask => (0x1000, 0x1200)
  | .constRe => (0x1400, 0x1800)
  | .constIm => (0x1800, 0x1C00)
  | .constVal => (0x1C00, 0x2000)
  | .pre => (0x80000, 0x100000)

theorem tableAt_eq_some_iff (a : BusAddr) (k : Table) :
    tableAt a = some k ↔ (window k).1 ≤ a.toNat ∧ a.toNat < (window k).2 := by
  have := a.isLt
  unfold tableAt
  cases k <;> simp only [window] <;> split_ifs <;> simp <;> omega

/-- The four bytes of an aligned table word lie in the table's window. -/
theorem tableAt_byte {a : BusAddr} {k : Table} (hk : tableAt a = some k) (ha : aligned a = true) {n : Nat}
    (hle : a.toNat ≤ n) (hlt : n ≤ a.toNat + 3) : n < 2 ^ 20 ∧ tableAt (BitVec.ofNat 20 n) = some k := by
  rw [aligned_iff] at ha
  rw [tableAt_eq_some_iff] at hk ⊢
  have hn : n < 2 ^ 20 := by cases k <;> simp only [window] at hk <;> omega
  rw [BitVec.toNat_ofNat, Nat.mod_eq_of_lt hn]
  refine ⟨hn, ?_⟩
  cases k <;> simp only [window] at hk ⊢ <;> omega

/-- A byte outside the written word is as before. -/
theorem read_writeWord_ne (m : List Host.Cell) (d : Word) {a n : Nat} (h : n < a ∨ a + 3 < n) :
    Memory.read (Memory.writeWord m a d) n = Memory.read m n := by
  unfold Memory.writeWord
  rw [read_write_ne _ _ (by omega), read_write_ne _ _ (by omega), read_write_ne _ _ (by omega),
    read_write_ne _ _ (by omega)]

/-! ## What one action does to the tables -/

/-- What is own to an engine leaves the rest of the state alone. -/
theorem outside_of_ownOnly {e : Engine} {s t : State} (h : ownOnly e s t) :
    t.mem = s.mem ∧ t.irqEnable = s.irqEnable ∧ t.agenda = s.agenda ∧ t.rdata = s.rdata ∧ t.draws = s.draws := by
  cases e with
  | fsync =>
    obtain ⟨x, i, q, r, rfl⟩ := h
    exact ⟨rfl, rfl, rfl, rfl, rfl⟩
  | _ =>
    obtain ⟨x, i, o, rfl⟩ := h
    exact ⟨rfl, rfl, rfl, rfl, rfl⟩

theorem mem_commit (s : State) (e : Engine) : (commit s e).mem = s.mem := by
  by_cases legal : validate s e = 0#8
  · rw [commit_of_legal legal]
    exact (outside_of_ownOnly (ownOnly_commitAccepted s e)).1
  · rw [commit_of_illegal legal]
    exact setCtl_mem _ _ _

/-- A bus access writes at most one aligned word, into a table of a disabled engine. -/
theorem mem_of_busStep {s t : State} {acc : BusAccess} (h : busStep s acc = .next t) :
    t.mem = s.mem ∨ ∃ (k : Table) (a : BusAddr) (d : Word), tableAt a = some k ∧ aligned a = true ∧
      (s.ctlOf k.owner).en = false ∧ t.mem = Memory.writeWord s.mem a.toNat d := by
  obtain rfl | ⟨e, d, -, -, rfl⟩ | ⟨e, d, -, -, -, rfl⟩ | ⟨e, rfl⟩ | ⟨e, rfl⟩ | ⟨v, n, rfl⟩ | ⟨e, -, rfl⟩ |
    ⟨c, d, -, rfl⟩ | ⟨k, a, d, hk, ha, off, rfl⟩ | ⟨v, rfl⟩ := busStep_cases h
  · refine .inl ?_
    unfold idleAccess
    split <;> rfl
  · exact .inl (outside_of_ownOnly (ownOnly_softReset s e)).1
  · refine .inl ?_
    split
    · rfl
    · exact mem_commit s e
  · exact .inl (setCtl_mem _ _ _)
  · exact .inl (setCtl_mem _ _ _)
  · exact .inl rfl
  · exact .inl (setCtl_mem _ _ _)
  · exact .inl (outside_of_ownOnly (ownOnly_setCfgReg s c d)).1
  · exact .inr ⟨k, a, d, hk, ha, off, rfl⟩
  · exact .inl rfl

theorem mem_appendTag (s : State) (p : InPortId) (x : Tag) : (appendTag s p x).mem = s.mem := by cases p <;> rfl

theorem mem_grantRoom (s : State) (p : OutPortId) (n : Nat) : (grantRoom s p n).mem = s.mem := by cases p <;> rfl

theorem mem_dequeueFrame (s : State) : (dequeueFrame s).mem = s.mem := by
  unfold dequeueFrame
  split <;> rfl

theorem mem_relayRxItem (s : State) (ys : List Cplx) : (relayRxItem s ys).mem = s.mem := by
  unfold relayRxItem
  split <;> rfl

theorem mem_relayTxItem (s : State) (ys : List Cplx) : (relayTxItem s ys).mem = s.mem := by
  unfold relayTxItem
  split <;> rfl

/-- What one action can do to the tables: nothing, clear them with every engine disabled, or write one word of a disabled engine. -/
theorem mem_of_perform {s t : State} {a : Action} (h : perform s a = .next t) :
    t.mem = s.mem ∨ (t.mem = [] ∧ ∀ e, (t.ctlOf e).en = false) ∨
    ∃ (k : Table) (b : BusAddr) (d : Word), tableAt b = some k ∧ aligned b = true ∧ (s.ctlOf k.owner).en = false ∧
      t.mem = Memory.writeWord s.mem b.toNat d := by
  cases a
  case bus acc => exact (mem_of_busStep h).imp_right .inr
  case step e => exact .inl (outside_of_ownOnly (engineStep_ownOnly h)).1
  all_goals cases h
  case hwReset => exact .inr (.inl ⟨rfl, fun e => by cases e <;> rfl⟩)
  case tag p x => exact .inl (mem_appendTag s p x)
  case room p n => exact .inl (mem_grantRoom s p n)
  case dequeue => exact .inl (mem_dequeueFrame s)
  case relayRx ys => exact .inl (mem_relayRxItem s ys)
  case relayTx ys => exact .inl (mem_relayTxItem s ys)
  all_goals exact .inl rfl

theorem memInv_writeWord {s : State} (hs : MemInv s) {k : Table} {b : BusAddr} (hk : tableAt b = some k)
    (hb : aligned b = true) (d : Word) : Memory.wf (Memory.writeWord s.mem b.toNat d) = true ∧
      ∀ c ∈ Memory.writeWord s.mem b.toNat d, c.1 < 2 ^ 20 ∧ (tableAt (BitVec.ofNat 20 c.1)).isSome = true := by
  refine ⟨wf_writeWord _ _ _ hs.1, fun c hc => ?_⟩
  obtain ⟨hle, hlt⟩ | hold := mem_writeWord _ _ _ _ hc
  · obtain ⟨hn, htab⟩ := tableAt_byte hk hb hle hlt
    exact ⟨hn, by rw [htab]; rfl⟩
  · exact hs.2 c hold

theorem memInv_of_perform {s t : State} {a : Action} (hs : MemInv s) (h : perform s a = .next t) : MemInv t := by
  obtain hm | ⟨hm, -⟩ | ⟨k, b, d, hk, hb, -, hm⟩ := mem_of_perform h
  · rwa [MemInv, hm]
  · rw [MemInv, hm]
    exact ⟨rfl, fun c hc => absurd hc List.not_mem_nil⟩
  · rw [MemInv, hm]
    exact memInv_writeWord hs hk hb d

/-- Settles O58: the one write of a step keeps the form, and its four bytes lie in the window of the written table. -/
theorem stepKeepsMemoryForm : Obligations.StepKeepsMemoryForm := fun _ _ hs h =>
  step_keeps (P := MemInv) (fun _ h => h) (fun _ _ => memInv_of_perform) hs h

/-! ## The configuration of an enabled engine (20_memory.md R134) -/

theorem sameConfig_iff (e : Engine) (s t : State) : sameConfig e s t ↔ sameRegs e s t ∧
    ∀ (a : BusAddr) (k : Table), tableAt a = some k → k.owner = e → Memory.read s.mem a.toNat = Memory.read t.mem a.toNat := by
  cases e <;> rfl

/-- The tables of an engine that is enabled before and after an action are not written by it. -/
theorem tables_kept {s t : State} {a : Action} (h : perform s a = .next t) {e : Engine} (on : (s.ctlOf e).en = true)
    (still : (t.ctlOf e).en = true) {b : BusAddr} {k : Table} (hk : tableAt b = some k) (howner : k.owner = e) :
    Memory.read s.mem b.toNat = Memory.read t.mem b.toNat := by
  obtain hm | ⟨-, off⟩ | ⟨k', b', d, hk', hb', off, hm⟩ := mem_of_perform h
  · rw [hm]
  · exact absurd still (by simp [off e])
  · rw [hm, read_writeWord_ne]
    by_contra hin
    have htab := (tableAt_byte hk' hb' (n := b.toNat) (by omega) (by omega)).2
    rw [BitVec.ofNat_toNat, BitVec.setWidth_eq, hk, Option.some.injEq] at htab
    subst htab howner
    exact absurd on (by simp [off])

theorem sameConfig_of_perform {s t : State} {a : Action} (h : perform s a = .next t) {e : Engine}
    (on : (s.ctlOf e).en = true) (still : (t.ctlOf e).en = true) : sameConfig e s t := by
  rw [sameConfig_iff]
  refine ⟨?_, fun b k hk howner => tables_kept h on still hk howner⟩
  obtain ⟨-, regs, -⟩ | ⟨-, completes⟩ | ⟨off, -⟩ := event_of_enabled (event_of_perform h e) still
  · exact regs
  · exact completes.regs
  · exact absurd on (by simp [off])

/-- Settles O51: registers and derived tables by the events that leave an engine enabled, table words by what is written. -/
theorem configurationFrozenWhileEnabled : Obligations.ConfigurationFrozenWhileEnabled := by
  intro e s t h on still
  obtain ⟨-, rfl⟩ | ⟨a, rest, -, hp⟩ := step_cases h
  · exact (sameConfig_iff e t t).mpr ⟨sameRegs_refl e t, fun _ _ _ _ => rfl⟩
  · have on' : (State.ctlOf { s with agenda := rest } e).en = true := by cases e <;> exact on
    have config := sameConfig_of_perform hp on' still
    cases e <;> exact config

/-! ## The message queue (20_memory.md R110) -/

/-- The queue as a step leaves it: unchanged, with one frame more at its end, or without its first. -/
def queueMoves (s t : State) : Prop :=
  t.msgq = s.msgq ∨ (∃ f, t.msgq = s.msgq ++ [f]) ∨ ∃ f, s.msgq = f :: t.msgq

theorem msgq_of_ownOnly {e : Engine} {s t : State} (h : ownOnly e s t) (hne : e ≠ .fsync) : t.msgq = s.msgq := by
  cases e with
  | fsync => exact absurd rfl hne
  | _ =>
    obtain ⟨x, i, o, rfl⟩ := h
    rfl

theorem queueMoves_of_engineStep {s t : State} {e : Engine} (h : engineStep s e = .next t) : queueMoves s t := by
  by_cases he : e = .fsync
  · subst he
    obtain rfl | ⟨-, -, hc | ⟨b, f, -, rfl⟩⟩ := engineStep_ends h
    · exact .inl rfl
    · obtain ⟨f, -, -, hq⟩ := hc.done
      cases f with
      | none => exact .inl (by rw [hq, Option.toList_none, List.append_nil])
      | some f => exact .inr (.inl ⟨f, hq⟩)
    · exact .inl (faultEntry_msgq _ _ _ _)
  · exact .inl (msgq_of_ownOnly (engineStep_ownOnly h) he)

theorem msgq_commit (s : State) (e : Engine) : (commit s e).msgq = s.msgq := by
  by_cases legal : validate s e = 0#8
  · rw [commit_of_legal legal]
    cases e <;> rfl
  · rw [commit_of_illegal legal]
    exact setCtl_msgq _ _ _

theorem msgq_setCfgReg (s : State) (c : CfgReg) (d : Word) : (setCfgReg s c d).msgq = s.msgq := by
  unfold setCfgReg
  cases c.owner <;> rfl

theorem msgq_of_busStep {s t : State} {acc : BusAccess} (h : busStep s acc = .next t) : t.msgq = s.msgq := by
  obtain rfl | ⟨e, d, -, -, rfl⟩ | ⟨e, d, -, -, -, rfl⟩ | ⟨e, rfl⟩ | ⟨e, rfl⟩ | ⟨v, n, rfl⟩ | ⟨e, -, rfl⟩ |
    ⟨c, d, -, rfl⟩ | ⟨k, a, d, -, -, -, rfl⟩ | ⟨v, rfl⟩ := busStep_cases h
  · unfold idleAccess
    split <;> rfl
  · rw [softReset, setCtl_msgq, resetWork_msgq]
  · split
    · rfl
    · exact msgq_commit s e
  · exact setCtl_msgq _ _ _
  · exact setCtl_msgq _ _ _
  · rfl
  · exact setCtl_msgq _ _ _
  · exact msgq_setCfgReg s c d
  · rfl
  · rfl

theorem queueMoves_dequeueFrame (s : State) : queueMoves s (dequeueFrame s) := by
  unfold dequeueFrame
  split
  case h_1 => exact .inl rfl
  case h_2 f rest hq => exact .inr (.inr ⟨f, hq⟩)

theorem queueMoves_of_perform {s t : State} {a : Action} (h : perform s a = .next t) : queueMoves s t := by
  cases a
  case bus acc => exact .inl (msgq_of_busStep h)
  case step e => exact queueMoves_of_engineStep h
  all_goals cases h
  case dequeue => exact queueMoves_dequeueFrame s
  all_goals left
  case tag p x => cases p <;> rfl
  case room p n => cases p <;> rfl
  case relayRx ys =>
    unfold relayRxItem
    split <;> rfl
  case relayTx ys =>
    unfold relayTxItem
    split <;> rfl
  all_goals rfl

/-- Settles O39: only FSYNC appends, at most one frame a step, and only the consumer takes. -/
theorem messageQueueIsFifo : Obligations.MessageQueueIsFifo := by
  intro s t h
  obtain ⟨-, rfl⟩ | ⟨a, rest, -, hp⟩ := step_cases h
  · exact .inl rfl
  · have moves := queueMoves_of_perform hp
    exact moves

/-! ## A step of one engine and the others (10_state.md R40, 60_exceptions.md R378) -/

/-- Ports and queue that are not the engine's own. -/
theorem ports_of_ownOnly {e : Engine} {s t : State} (h : ownOnly e s t) :
    (e ≠ .samp → t.sampIn = s.sampIn ∧ t.sampOut = s.sampOut) ∧
    (e ≠ .fsync → t.fsyncIn = s.fsyncIn ∧ t.msgq = s.msgq ∧ t.qroom = s.qroom) ∧
    (e ≠ .pins → t.pinsIn = s.pinsIn ∧ t.pinsOut = s.pinsOut) ∧
    (e ≠ .cpfx → t.cpfxIn = s.cpfxIn ∧ t.cpfxOut = s.cpfxOut) := by
  cases e with
  | samp =>
    obtain ⟨x, i, o, rfl⟩ := h
    exact ⟨fun h => absurd rfl h, fun _ => ⟨rfl, rfl, rfl⟩, fun _ => ⟨rfl, rfl⟩, fun _ => ⟨rfl, rfl⟩⟩
  | fsync =>
    obtain ⟨x, i, q, r, rfl⟩ := h
    exact ⟨fun _ => ⟨rfl, rfl⟩, fun h => absurd rfl h, fun _ => ⟨rfl, rfl⟩, fun _ => ⟨rfl, rfl⟩⟩
  | pins =>
    obtain ⟨x, i, o, rfl⟩ := h
    exact ⟨fun _ => ⟨rfl, rfl⟩, fun _ => ⟨rfl, rfl, rfl⟩, fun h => absurd rfl h, fun _ => ⟨rfl, rfl⟩⟩
  | cpfx =>
    obtain ⟨x, i, o, rfl⟩ := h
    exact ⟨fun _ => ⟨rfl, rfl⟩, fun _ => ⟨rfl, rfl, rfl⟩, fun _ => ⟨rfl, rfl⟩, fun h => absurd rfl h⟩

/-- Settles O54: an engine step replaces the engine's own part of the state. -/
theorem engineStepTouchesOwnStateOnly : Obligations.EngineStepTouchesOwnStateOnly := by
  intro e s t rest ha h
  rw [Encoding.step_of_turn ha] at h
  have own := engineStep_ownOnly h
  obtain ⟨mem, irq, agenda, rdata, draws⟩ := outside_of_ownOnly own
  have ports := ports_of_ownOnly own
  refine ⟨mem, irq, agenda, rdata, draws, fun e' hne => ?_, ports⟩
  have record := (quiet_of_ownOnly own (Ne.symm hne)).1
  have ctl := ctlOf_of_sameRecord record
  have regs := sameRegs_of_sameRecord record
  have work := sameWork_of_sameRecord record
  cases e' <;> exact ⟨ctl, regs, work⟩

end Sys2Proof.Proofs.Apart

/-! PROOFS. An engine step depends on the engine's own state and ports alone (10_state.md R40). -/

namespace Sys2Proof.Proofs.Interference

open Sys2Proof Sys2Proof.Machine Sys2Proof.Claims Sys2Proof.Laws Sys2Proof.Proofs.Step

/-! ## SAMP -/

/-- The state `u` with everything a step of SAMP reads or writes as in `s`. -/
def withSamp (u s : State) : State := { u with samp := s.samp, sampIn := s.sampIn, sampOut := s.sampOut }

section Samp

variable {s t : State} (u : State)

theorem withSamp_acquire {b : Byte} (h : endStep s .samp b (sampAcquire s) = .next t) :
    endStep (withSamp u s) .samp b (sampAcquire (withSamp u s)) = .next (withSamp u t) := by
  cases hi : sampIngest s (scanConsumed s) with
  | ok w =>
    have hi' : sampIngest (withSamp u s) (scanConsumed (withSamp u s)) = .ok w := hi
    rw [sampAcquire_of_ok hi, endStep_ok, Host.Outcome.next.injEq] at h
    rw [sampAcquire_of_ok hi', ← h]
    rfl
  | error f =>
    have hi' : sampIngest (withSamp u s) (scanConsumed (withSamp u s)) = .error f := hi
    rw [sampAcquire_of_error hi, endStep_error, Host.Outcome.next.injEq] at h
    rw [sampAcquire_of_error hi', ← h]
    rfl

theorem withSamp_regular {b : Byte} {upd : SampWork → SampWork} (h : endStep s .samp b (sampRegular s upd) = .next t) :
    endStep (withSamp u s) .samp b (sampRegular (withSamp u s) upd) = .next (withSamp u t) := by
  cases hi : sampIngest s (sampSym s) with
  | ok w =>
    have hi' : sampIngest (withSamp u s) (sampSym (withSamp u s)) = .ok w := hi
    rw [sampRegular_of_ok upd hi, endStep_ok, Host.Outcome.next.injEq] at h
    rw [sampRegular_of_ok upd hi', ← h]
    rfl
  | error f =>
    have hi' : sampIngest (withSamp u s) (sampSym (withSamp u s)) = .error f := hi
    rw [sampRegular_of_error upd hi, endStep_error, Host.Outcome.next.injEq] at h
    rw [sampRegular_of_error upd hi', ← h]
    rfl

theorem withSamp_scan {l : Bool} (h : exec (.saScan l) s = .next t) :
    exec (.saScan l) (withSamp u s) = .next (withSamp u t) := by
  cases hi : sampIngest s (sampSym s) with
  | ok w =>
    have hi' : sampIngest (withSamp u s) (sampSym (withSamp u s)) = .ok w := hi
    rw [exec_saScan_of_ok l hi, Host.Outcome.next.injEq] at h
    rw [exec_saScan_of_ok l hi', ← h]
    rfl
  | error f =>
    have hi' : sampIngest (withSamp u s) (sampSym (withSamp u s)) = .error f := hi
    rw [exec_saScan_of_error l hi, Host.Outcome.next.injEq] at h
    rw [exec_saScan_of_error l hi', ← h]
    rfl

/-- The operation SAMP selects does the same in both states. -/
theorem withSamp_selected {i : Instr} (hi : decodeSel (selector s .samp) = .ok i) (h : exec i s = .next t) :
    exec i (withSamp u s) = .next (withSamp u t) := by
  rw [selector, decodeSel_samp] at hi
  split_ifs at hi <;> cases hi
  · exact withSamp_acquire u h
  · exact withSamp_scan u h
  · exact withSamp_acquire u h
  · exact withSamp_regular u h
  · exact withSamp_regular u h

end Samp

/-! ## PINS and CPFX -/

/-- The state `u` with everything a step of PINS reads or writes as in `s`. -/
def withPins (u s : State) : State := { u with pins := s.pins, pinsIn := s.pinsIn, pinsOut := s.pinsOut }

/-- The state `u` with everything a step of CPFX reads or writes as in `s`. -/
def withCpfx (u s : State) : State := { u with cpfx := s.cpfx, cpfxIn := s.cpfxIn, cpfxOut := s.cpfxOut }

/-- Every operation of PINS is a next state as it stands. -/
theorem withPins_selected {s t : State} (u : State) {i : Instr} (hi : decodeSel (selector s .pins) = .ok i)
    (h : exec i s = .next t) : exec i (withPins u s) = .next (withPins u t) := by
  rw [selector, decodeSel_pins] at hi
  split_ifs at hi <;> cases hi <;> cases h <;> rfl

/-- So is every operation of CPFX. -/
theorem withCpfx_selected {s t : State} (u : State) {i : Instr} (hi : decodeSel (selector s .cpfx) = .ok i)
    (h : exec i s = .next t) : exec i (withCpfx u s) = .next (withCpfx u t) := by
  rw [selector, decodeSel_cpfx] at hi
  split_ifs at hi <;> cases hi <;> cases h <;> rfl

/-! ## FSYNC -/

/-- The state `u` with everything a step of FSYNC reads or writes as in `s`, and the frames `fs` enqueued. -/
def withFsync (u s : State) (fs : List Frame) : State :=
  { u with fsync := s.fsync, fsyncIn := s.fsyncIn, qroom := s.qroom, draws := s.draws, msgq := u.msgq ++ fs }

section Fsync

variable {s t : State} (u : State)

theorem withFsync_acquire (h : exec .fsAcq s = .next t) :
    t.msgq = s.msgq ++ [] ∧ exec .fsAcq (withFsync u s []) = .next (withFsync u t []) := by
  rw [List.append_nil]
  cases hc : fsyncCapture s with
  | ok w =>
    have hc' : fsyncCapture (withFsync u s []) = .ok w := hc
    rw [exec_fsAcq_of_ok hc, Host.Outcome.next.injEq] at h
    rw [exec_fsAcq_of_ok hc', ← h]
    exact ⟨rfl, rfl⟩
  | error f =>
    have hc' : fsyncCapture (withFsync u s []) = .error f := hc
    rw [exec_fsAcq_of_error hc, Host.Outcome.next.injEq] at h
    rw [exec_fsAcq_of_error hc', ← h]
    exact ⟨rfl, rfl⟩

theorem withFsync_finishDemod {b : Byte} {r : Except HwFault Collect} (h : endStep s .fsync b (finishDemod s r) = .next t) :
    ∃ fs, t.msgq = s.msgq ++ fs ∧
      endStep (withFsync u s []) .fsync b (finishDemod (withFsync u s []) r) = .next (withFsync u t fs) := by
  cases r with
  | ok c =>
    rw [finishDemod_ok, endStep_ok, Host.Outcome.next.injEq] at h
    refine ⟨c.frame.toList, by rw [← h]; rfl, ?_⟩
    rw [finishDemod_ok, endStep_ok, ← h, withFsync, List.append_nil]
    rfl
  | error f =>
    rw [finishDemod, endStep_error, Host.Outcome.next.injEq] at h
    refine ⟨[], by rw [← h, List.append_nil]; rfl, ?_⟩
    rw [finishDemod, endStep_error, ← h]
    rfl

/-- The operation FSYNC selects does the same in both states, and enqueues the same frames. -/
theorem withFsync_selected {i : Instr} (hi : decodeSel (selector s .fsync) = .ok i) (h : exec i s = .next t) :
    ∃ fs, t.msgq = s.msgq ++ fs ∧ exec i (withFsync u s []) = .next (withFsync u t fs) := by
  rw [selector, decodeSel_fsync] at hi
  split_ifs at hi <;> cases hi
  · exact ⟨[], withFsync_acquire u h⟩
  · cases h
    exact ⟨[], (List.append_nil _).symm, rfl⟩
  · exact withFsync_finishDemod u h
  · exact withFsync_finishDemod u h

end Fsync

/-! ## The statement -/

/-- After a step of engine `e` from `s` to `t` and from `s'` to `t'`: the two states agree, and FSYNC enqueued the same frames. -/
def agreesAfter (e : Engine) (s s' t t' : State) : Prop :=
  agreeFor e t t' ∧ (e = .fsync → ∃ fs, t.msgq = s.msgq ++ fs ∧ t'.msgq = s'.msgq ++ fs)

/-! ### A state that agrees with `s` is itself, with what the engine sees taken from `s` -/

theorem withSamp_of_agree {s s' : State} (h : agreeFor .samp s s') : withSamp s' s = s' := by
  obtain ⟨h1, h2, h3⟩ := h
  rw [withSamp, h1, h2, h3]

theorem withFsync_of_agree {s s' : State} (h : agreeFor .fsync s s') : withFsync s' s [] = s' := by
  obtain ⟨h1, h2, h3, h4⟩ := h
  rw [withFsync, h1, h2, h3, h4, List.append_nil]

theorem withPins_of_agree {s s' : State} (h : agreeFor .pins s s') : withPins s' s = s' := by
  obtain ⟨h1, h2, h3⟩ := h
  rw [withPins, h1, h2, h3]

theorem withCpfx_of_agree {s s' : State} (h : agreeFor .cpfx s s') : withCpfx s' s = s' := by
  obtain ⟨h1, h2, h3⟩ := h
  rw [withCpfx, h1, h2, h3]

/-- States that agree on an engine agree on whether it is enabled and on its selector. -/
theorem enabled_and_selector_of_agree {e : Engine} {s s' : State} (h : agreeFor e s s') :
    enabled s' e = enabled s e ∧ selector s' e = selector s e := by
  cases e with
  | samp =>
    rw [← withSamp_of_agree h]
    exact ⟨rfl, rfl⟩
  | fsync =>
    rw [← withFsync_of_agree h]
    exact ⟨rfl, rfl⟩
  | pins =>
    rw [← withPins_of_agree h]
    exact ⟨rfl, rfl⟩
  | cpfx =>
    rw [← withCpfx_of_agree h]
    exact ⟨rfl, rfl⟩

theorem agreesAfter_held {e : Engine} {s s' : State} (h : agreeFor e s s') : agreesAfter e s s' s s' :=
  ⟨h, fun _ => ⟨[], (List.append_nil _).symm, (List.append_nil _).symm⟩⟩

theorem agreesAfter_faultEntry {e : Engine} {s s' : State} (h : agreeFor e s s') (b : Byte) (f : HwFault) :
    agreesAfter e s s' (faultEntry s e b f) (faultEntry s' e b f) := by
  refine ⟨?_, fun _ => ⟨[], by simp, by simp⟩⟩
  cases e with
  | samp =>
    obtain ⟨h1, h2, h3⟩ := h
    exact ⟨by rw [faultEntry_samp, faultEntry_samp, h1], h2, h3⟩
  | fsync =>
    obtain ⟨h1, h2, h3, h4⟩ := h
    exact ⟨by rw [faultEntry_fsync, faultEntry_fsync, h1], h2, h3, h4⟩
  | pins =>
    obtain ⟨h1, h2, h3⟩ := h
    exact ⟨by simp only [faultEntry, State.setCtl, State.ctlOf, h1], h2, h3⟩
  | cpfx =>
    obtain ⟨h1, h2, h3⟩ := h
    exact ⟨by simp only [faultEntry, State.setCtl, State.ctlOf, h1], h2, h3⟩

theorem agreesAfter_selected {e : Engine} {s s' t t' : State} {i : Instr} (h : agreeFor e s s')
    (hi : decodeSel (selector s e) = .ok i) (ht : exec i s = .next t) (ht' : exec i s' = .next t') :
    agreesAfter e s s' t t' := by
  cases e with
  | samp =>
    have hx := withSamp_selected s' hi ht
    rw [withSamp_of_agree h, ht', Host.Outcome.next.injEq] at hx
    exact ⟨by rw [hx]; exact ⟨rfl, rfl, rfl⟩, nofun⟩
  | fsync =>
    obtain ⟨fs, hq, hx⟩ := withFsync_selected s' hi ht
    rw [withFsync_of_agree h, ht', Host.Outcome.next.injEq] at hx
    exact ⟨by rw [hx]; exact ⟨rfl, rfl, rfl, rfl⟩, fun _ => ⟨fs, hq, by rw [hx]; rfl⟩⟩
  | pins =>
    have hx := withPins_selected s' hi ht
    rw [withPins_of_agree h, ht', Host.Outcome.next.injEq] at hx
    exact ⟨by rw [hx]; exact ⟨rfl, rfl, rfl⟩, nofun⟩
  | cpfx =>
    have hx := withCpfx_selected s' hi ht
    rw [withCpfx_of_agree h, ht', Host.Outcome.next.injEq] at hx
    exact ⟨by rw [hx]; exact ⟨rfl, rfl, rfl⟩, nofun⟩

theorem agreesAfter_engineStep {e : Engine} {s s' t t' : State} (h : agreeFor e s s') (ht : engineStep s e = .next t)
    (ht' : engineStep s' e = .next t') : agreesAfter e s s' t t' := by
  obtain ⟨hen, hsel⟩ := enabled_and_selector_of_agree h
  rw [engineStep, hen, hsel] at ht'
  obtain ⟨off, rfl⟩ | ⟨on, i, hi, hx⟩ | ⟨on, st, hi, rfl⟩ := engineStep_cases ht
  · rw [off] at ht'
    cases ht'
    exact agreesAfter_held h
  · rw [on, hi] at ht'
    exact agreesAfter_selected h hi hx ht'
  · rw [on, hi] at ht'
    cases ht'
    exact agreesAfter_faultEntry h _ _

/-- Settles O55: held, faulting or completing, an engine step is the same in two states that agree on what it reads. -/
theorem engineStepsDoNotInterfere : Obligations.EngineStepsDoNotInterfere := by
  intro e s s' t t' r r' ha ha' h ht ht'
  rw [Encoding.step_of_turn ha] at ht
  rw [Encoding.step_of_turn ha'] at ht'
  have h' : agreeFor e { s with agenda := r } { s' with agenda := r' } := by cases e <;> exact h
  have after := agreesAfter_engineStep h' ht ht'
  cases e <;> exact after

end Sys2Proof.Proofs.Interference

/-! PROOFS. The number system (00_scope.md R20 to R30), headers and frames (30_encoding.md R150 to R155), tag queries
(44_tag_protocol.md R311). -/

namespace Sys2Proof.Proofs.Numbers

open Sys2Proof Sys2Proof.Machine Sys2Proof.Claims Sys2Proof.Laws

/-! ## Components (00_scope.md R20 to R24) -/

theorem sat_eq_clamp (v : Int) : sat v = clamp v := by
  unfold sat clamp Config.smin Config.smax
  split_ifs <;> omega

theorem smul_eq_div (g : Word) (v : Int) : smul g v = g.toInt * v / 65536 := shiftRight_fracBits _

theorem cmul_toInt (a b : Cplx) :
    (cmul a b).re.toInt = clamp ((a.re.toInt * b.re.toInt - a.im.toInt * b.im.toInt) / 65536) ∧
    (cmul a b).im.toInt = clamp ((a.re.toInt * b.im.toInt + a.im.toInt * b.re.toInt) / 65536) := by
  simp only [cmul, satWord_toInt, sat_eq_clamp, shiftRight_fracBits, and_self]

theorem norm2_pos {b : Cplx} (h : b ≠ { re := 0#32, im := 0#32 }) : 0 < norm2 b := by
  have hne : b.re.toInt ≠ 0 ∨ b.im.toInt ≠ 0 := by
    by_contra hzero
    push Not at hzero
    exact h (Cplx.mk.injEq .. ▸ ⟨BitVec.eq_of_toInt_eq hzero.1, BitVec.eq_of_toInt_eq hzero.2⟩)
  obtain hre | him := hne
  · exact add_pos_of_pos_of_nonneg (mul_self_pos.mpr hre) (mul_self_nonneg _)
  · exact add_pos_of_nonneg_of_pos (mul_self_nonneg _) (mul_self_pos.mpr him)

theorem cdiv_toInt (a b : Cplx) :
    (cdiv a b).re.toInt = clamp ((a.re.toInt * b.re.toInt + a.im.toInt * b.im.toInt) * 65536 / norm2 b) ∧
    (cdiv a b).im.toInt = clamp ((a.im.toInt * b.re.toInt - a.re.toInt * b.im.toInt) * 65536 / norm2 b) := by
  simp only [cdiv, satWord_toInt, sat_eq_clamp, and_self]

theorem eqUpdate_of_le (g : Word) (t r : Cplx) {z : Cplx} (h : norm2 z ≤ 4294967) : eqUpdate g t z r = t :=
  if_neg (not_lt.mpr h)

theorem eqUpdate_of_lt (g : Word) (t r : Cplx) {z : Cplx} (h : 4294967 < norm2 z) :
    (eqUpdate g t z r).re.toInt =
      clamp (t.re.toInt + clamp (g.toInt * clamp ((cdiv r z).re.toInt - t.re.toInt) / 65536)) ∧
    (eqUpdate g t z r).im.toInt =
      clamp (t.im.toInt + clamp (g.toInt * clamp ((cdiv r z).im.toInt - t.im.toInt) / 65536)) := by
  have hlt : Config.eqNormMin < norm2 z := h
  simp only [eqUpdate, if_pos hlt, satWord_toInt, sat_eq_clamp, smul_eq_div, and_self]

/-! ## Time (00_scope.md R30) -/

/-- The whole and the fractional seconds of `n` samples, in units of `2^(-64)` seconds. -/
theorem mul_two_pow_ediv (n : Int) {bw : Nat} (h : 0 < bw) :
    n * 2 ^ 64 / bw = n / bw * 2 ^ 64 + (((n % bw).toNat * 2 ^ 64 / bw : Nat) : Int) := by
  have hbw : (bw : Int) ≠ 0 := by omega
  have hrem : (((n % bw).toNat : Nat) : Int) = n % bw := Int.toNat_of_nonneg (Int.emod_nonneg _ hbw)
  have hsplit : n * 2 ^ 64 = n % bw * 2 ^ 64 + bw * (n / bw * 2 ^ 64) := by
    conv_lhs => rw [← Int.emod_add_mul_ediv n bw]
    ring
  rw [hsplit, Int.add_mul_ediv_left _ _ hbw, Int.natCast_ediv, Nat.cast_mul, hrem, Int.add_comm]
  rfl

theorem frac_lt {r bw : Nat} (h : r < bw) : r * 2 ^ 64 / bw < 2 ^ 64 := by
  rw [Nat.div_lt_iff_lt_mul (by omega), Nat.mul_comm]
  exact Nat.mul_lt_mul_of_pos_left h (by norm_num)

theorem timeAdd_toNat (t : Time) (n : Int) {bw : Nat} (h : 0 < bw) :
    (((timeAdd t n bw).secs.toNat * 2 ^ 64 + (timeAdd t n bw).frac.toNat : Nat) : Int) =
      (((t.secs.toNat * 2 ^ 64 + t.frac.toNat : Nat) : Int) + n * 2 ^ 64 / bw) % 2 ^ 128 := by
  have hlt : (n % bw).toNat < bw := by
    have := Int.emod_lt_of_pos n (b := bw) (by omega)
    omega
  have hfrac := frac_lt hlt
  have := t.frac.isLt
  rw [mul_two_pow_ediv n h]
  simp only [timeAdd, BitVec.toNat_ofInt, BitVec.toNat_ofNat]
  generalize (n % bw).toNat * 2 ^ 64 / bw = dfrac at *
  generalize n / (bw : Int) = whole
  split_ifs <;> push_cast <;> omega

/-- Settles O60: each operation is its integer formula, narrowed by `clamp`; time by splitting off the whole seconds. -/
theorem arithmeticOnIntegers : Obligations.ArithmeticOnIntegers :=
  ⟨cmul_toInt, fun a b hb => ⟨norm2_pos hb, cdiv_toInt a b⟩, fun g t _ r => ⟨eqUpdate_of_le g t r, eqUpdate_of_lt g t r⟩,
    fun t n _ h => timeAdd_toNat t n h⟩

end Sys2Proof.Proofs.Numbers

namespace Sys2Proof.Proofs.Layout

open Sys2Proof Sys2Proof.Machine Sys2Proof.Claims Sys2Proof.Laws

/-! ## Tag queries (44_tag_protocol.md R311) -/

theorem tagQueryAll_eq_filter (tags : List Tag) {a b : Dword} (h : a ≤ b) :
    tagQueryAll tags a b = tags.filter (fun t => decide (a ≤ t.index ∧ t.index < b)) := by
  refine List.filter_congr fun t _ => Bool.eq_iff_iff.mpr ?_
  rw [inRange_iff h, decide_eq_true_eq]

theorem tagQuery_eq_filter (tags : List Tag) {a b : Dword} {key : BitVec 3} (hkey : key ≠ 0#3) (h : a ≤ b) :
    tagQuery tags a b key = tags.filter (fun t => decide (t.key = key ∧ a ≤ t.index ∧ t.index < b)) := by
  refine List.filter_congr fun t _ => Bool.eq_iff_iff.mpr ?_
  simp only [Bool.and_eq_true, beq_iff_eq, Bool.not_eq_true', beq_eq_false_iff_ne, inRange_iff h, decide_eq_true_eq, hkey,
    ne_eq, not_false_eq_true, and_true]

/-- Settles O36. -/
theorem tagQueryIsHalfOpen : Obligations.TagQueryIsHalfOpen := by
  intro tags a b key hkey
  refine ⟨fun h => ⟨tagQuery_eq_filter tags hkey h, tagQueryAll_eq_filter tags h⟩, fun t ht htkey => ?_⟩
  exact mem_tagQuery.mpr ⟨ht, htkey, hkey, (inRange_one _ _).mpr rfl⟩

/-! ## The burst header (30_encoding.md R150 to R152) -/

/-- A word shifted in byte by byte, most significant first, over any old content. -/
theorem shiftHeader_bytes (h0 h : Word) :
    shiftHeader h0 [h.extractLsb' 24 8, h.extractLsb' 16 8, h.extractLsb' 8 8, h.extractLsb' 0 8] = h := by
  refine BitVec.eq_of_getLsbD_eq fun i hi => ?_
  simp only [shiftHeader, List.foldl_cons, List.foldl_nil, BitVec.getLsbD_or, BitVec.getLsbD_shiftLeft,
    BitVec.getLsbD_setWidth, BitVec.getLsbD_extractLsb']
  interval_cases i <;> simp

theorem hdrOk_repeated (whit : BitVec 4) (len : BitVec 12) : hdrOk (whit ++ len ++ whit ++ len : Word) = true := by
  rw [hdrOk, beq_iff_eq]
  refine BitVec.eq_of_getLsbD_eq fun i hi => ?_
  simp only [BitVec.getLsbD_extractLsb', BitVec.getLsbD_append]
  interval_cases i <;> simp

theorem hdrLen_repeated (whit : BitVec 4) (len : BitVec 12) : hdrLen (whit ++ len ++ whit ++ len : Word) = len := by
  rw [hdrLen]
  refine BitVec.eq_of_getLsbD_eq fun i hi => ?_
  simp only [BitVec.getLsbD_extractLsb', BitVec.getLsbD_append]
  interval_cases i <;> simp

theorem hdrWhit_repeated (whit : BitVec 4) (len : BitVec 12) : hdrWhit (whit ++ len ++ whit ++ len : Word) = whit := by
  rw [hdrWhit]
  refine BitVec.eq_of_getLsbD_eq fun i hi => ?_
  simp only [BitVec.getLsbD_extractLsb', BitVec.getLsbD_append]
  interval_cases i <;> simp

/-- Settles O26. -/
theorem headerReadsBack : Obligations.HeaderReadsBack :=
  ⟨fun whit len h0 => ⟨shiftHeader_bytes h0 _, hdrOk_repeated whit len, hdrLen_repeated whit len, hdrWhit_repeated whit len⟩,
    by decide, by decide, by decide⟩

/-! ## Decoded Frames (30_encoding.md R155) -/

theorem length_payloadWords (bs : List Byte) : (payloadWords bs).length = (bs.length + 3) / 4 := by
  induction bs using payloadWords.induct with
  | case5 a b c d rest ih =>
    simp only [payloadWords, List.length_cons, ih]
    omega
  | _ => simp [payloadWords]

/-- The bytes of a word stand in the order of the payload, the first one lowest. -/
theorem extract_word (a b c d : Byte) {n : Nat} {x : Byte} (h : [a, b, c, d][n]? = some x) :
    (d ++ c ++ b ++ a : Word).extractLsb' (8 * n) 8 = x := by
  have hn : n < 4 := (List.getElem?_eq_some_iff.mp h).1
  refine BitVec.eq_of_getLsbD_eq fun i hi => ?_
  simp only [BitVec.getLsbD_extractLsb', BitVec.getLsbD_append]
  interval_cases n <;> cases h <;> interval_cases i <;> simp

/-- The first word of a payload holds its first four bytes. -/
theorem payloadWords_head {a b c d : Byte} {bs : List Byte} {w : Word} {ws : List Word} {x : Byte} {n : Nat}
    (hw : payloadWords bs = w :: ws) (heq : w = d ++ c ++ b ++ a) (hn : n < 4) (hx : [a, b, c, d][n]? = some x) :
    ∃ v, (payloadWords bs)[n / 4]? = some v ∧ v.extractLsb' (8 * (n % 4)) 8 = x := by
  rw [hw, Nat.div_eq_of_lt hn, Nat.mod_eq_of_lt hn]
  exact ⟨w, rfl, heq ▸ extract_word a b c d hx⟩

theorem payloadWords_byte (bs : List Byte) : ∀ (n : Nat) (x : Byte), bs[n]? = some x →
    ∃ v, (payloadWords bs)[n / 4]? = some v ∧ v.extractLsb' (8 * (n % 4)) 8 = x := by
  induction bs using payloadWords.induct with
  | case1 => exact fun n x h => by simp at h
  | case2 a =>
    intro n x h
    have hn : n < 1 := (List.getElem?_eq_some_iff.mp h).1
    refine payloadWords_head (w := 0#24 ++ a) (b := 0#8) (c := 0#8) (d := 0#8) (by rw [payloadWords]) rfl (by omega) ?_
    rw [← h]
    interval_cases n
    rfl
  | case3 a b =>
    intro n x h
    have hn : n < 2 := (List.getElem?_eq_some_iff.mp h).1
    refine payloadWords_head (w := 0#16 ++ b ++ a) (c := 0#8) (d := 0#8) (by rw [payloadWords]) rfl (by omega) ?_
    rw [← h]
    interval_cases n <;> rfl
  | case4 a b c =>
    intro n x h
    have hn : n < 3 := (List.getElem?_eq_some_iff.mp h).1
    refine payloadWords_head (w := 0#8 ++ c ++ b ++ a) (d := 0#8) (by rw [payloadWords]) rfl (by omega) ?_
    rw [← h]
    interval_cases n <;> rfl
  | case5 a b c d rest ih =>
    intro n x h
    by_cases hn : n < 4
    · refine payloadWords_head (by rw [payloadWords]) rfl hn ?_
      rw [← h]
      interval_cases n <;> rfl
    · obtain ⟨m, rfl⟩ : ∃ m, n = m + 4 := ⟨n - 4, by omega⟩
      obtain ⟨v, hv, hx⟩ := ih m x h
      refine ⟨v, ?_, by rwa [Nat.add_mod_right]⟩
      rw [payloadWords, Nat.add_div_right _ (by omega), ← hv]
      rfl

theorem flagWord_eq (cfo ts : Bool) :
    (0#30 ++ BitVec.ofBool cfo ++ BitVec.ofBool ts : Word) = BitVec.ofNat 32 (ts.toNat + 2 * cfo.toNat) := by
  revert cfo ts
  decide

/-- Settles O27: eleven words, then the payload. -/
theorem frameSerialisation : Obligations.FrameSerialisation := by
  intro f
  refine ⟨?_, fun n b h => ?_, rfl, rfl, ?_⟩
  · rw [Frame.words, List.length_append, length_payloadWords]
    rfl
  · obtain ⟨v, hv, hb⟩ := payloadWords_byte f.payload n b h
    refine ⟨v, ?_, hb⟩
    rw [Frame.words, List.getElem?_append_right (by simp), ← hv]
    simp
  · rw [← flagWord_eq]
    rfl

end Sys2Proof.Proofs.Layout

/-! PROOFS. The demapper (41_frame_sync.md R240 to R247): the bit packer, the walk over the subcarriers, and tracking over a
channel that changes nothing. -/

namespace Sys2Proof.Proofs.Demapper

open Sys2Proof Sys2Proof.Machine Sys2Proof.Claims Sys2Proof.Laws

/-! ## The packer (R247) -/

theorem digits_append (w : Nat) (xs ys : List Byte) :
    digits w (xs ++ ys) = digits w xs + 2 ^ (w * xs.length) * digits w ys := by
  induction xs with
  | nil => simp [digits]
  | cons x xs ih =>
    rw [List.cons_append, digits, digits, ih, List.length_cons, Nat.mul_succ, Nat.pow_add]
    ring

/-- At most one byte is the number it stands for. -/
theorem digits_of_length_le_one {xs : List Byte} (h : xs.length ≤ 1) : digits 8 xs = (xs.head?.map BitVec.toNat).getD 0 := by
  match xs with
  | [] => rfl
  | [b] => simp [digits]
  | _ :: _ :: _ => simp at h

/-- What the packer guarantees of a run over patterns of `nbits` bits from the residue `p` to the residue `r.1`. -/
structure Packed (nbits : Nat) (vs : List Byte) (p : Packer) (r : Packer × List Byte) : Prop where
  count : r.2.length = (p.n.toNat + nbits * vs.length) / 8
  residue : r.1.n.toNat = (p.n.toNat + nbits * vs.length) % 8
  fits : r.1.bits.toNat < 2 ^ r.1.n.toNat
  value : digits 8 r.2 + 2 ^ (8 * r.2.length) * r.1.bits.toNat = p.bits.toNat + 2 ^ p.n.toNat * digits nbits vs

/-- One pattern. -/
theorem packed_one {nbits : Nat} {v : Byte} {p : Packer} (h : nbits ≤ 8) (hn : p.n.toNat ≤ 7)
    (hb : p.bits.toNat < 2 ^ p.n.toNat) (hv : v.toNat < 2 ^ nbits) : Packed nbits [v] p (pack nbits v p) := by
  obtain ⟨count, residue, fits, value⟩ := pack_spec nbits v p h hn hb hv
  have hle : (pack nbits v p).2.length ≤ 1 := by omega
  exact ⟨by simpa using count, by simpa using residue, fits, by simpa [digits_of_length_le_one hle, digits] using value⟩

/-- A run continued by a run. -/
theorem Packed.append {nbits : Nat} {vs ws : List Byte} {p q : Packer} {bs : List Byte} {r : Packer × List Byte}
    (h1 : Packed nbits vs p (q, bs)) (h2 : Packed nbits ws q r) : Packed nbits (vs ++ ws) p (r.1, bs ++ r.2) := by
  obtain ⟨c1, n1, f1, v1⟩ := h1
  obtain ⟨c2, n2, f2, v2⟩ := h2
  simp only at c1 n1 v1
  have hmul : nbits * (vs ++ ws).length = nbits * vs.length + nbits * ws.length := by
    rw [List.length_append, Nat.mul_add]
  refine ⟨?_, ?_, f2, ?_⟩
  · simp only [List.length_append] at hmul ⊢
    omega
  · simp only [List.length_append] at hmul ⊢
    omega
  · have hexp : 8 * bs.length + q.n.toNat = p.n.toNat + nbits * vs.length := by omega
    calc digits 8 (bs ++ r.2) + 2 ^ (8 * (bs ++ r.2).length) * r.1.bits.toNat
        = digits 8 bs + 2 ^ (8 * bs.length) * (digits 8 r.2 + 2 ^ (8 * r.2.length) * r.1.bits.toNat) := by
          rw [digits_append, List.length_append, Nat.mul_add, Nat.pow_add]
          ring
      _ = digits 8 bs + 2 ^ (8 * bs.length) * q.bits.toNat + 2 ^ (8 * bs.length + q.n.toNat) * digits nbits ws := by
          rw [v2, Nat.pow_add]
          ring
      _ = p.bits.toNat + 2 ^ p.n.toNat * digits nbits vs + 2 ^ (p.n.toNat + nbits * vs.length) * digits nbits ws := by
          rw [v1, hexp]
      _ = p.bits.toNat + 2 ^ p.n.toNat * digits nbits (vs ++ ws) := by
          rw [digits_append, Nat.pow_add]
          ring

theorem packed_packAll {nbits : Nat} (h : nbits ≤ 8) (vs : List Byte) : ∀ p : Packer, p.n.toNat ≤ 7 →
    p.bits.toNat < 2 ^ p.n.toNat → (∀ v ∈ vs, v.toNat < 2 ^ nbits) → Packed nbits vs p (packAll nbits vs p) := by
  induction vs with
  | nil => exact fun p hn hb _ => ⟨by simp [packAll]; omega, by simp [packAll]; omega, hb, by simp [packAll, digits]⟩
  | cons v vs ih =>
    intro p hn hb hvs
    rw [List.forall_mem_cons] at hvs
    have first := packed_one h hn hb hvs.1
    have hn' : (pack nbits v p).1.n.toNat ≤ 7 := by
      have := first.residue
      omega
    exact Packed.append first (ih _ hn' first.fits hvs.2)

/-- Settles O23: one pattern by the packer's own lemma, a list pattern by pattern. -/
theorem packingLosesNoBit : Obligations.PackingLosesNoBit := by
  intro nbits vs p h hn hb hvs
  obtain ⟨count, residue, fits, value⟩ := packed_packAll h vs p hn hb hvs
  exact ⟨count, residue, fits, value⟩

/-! ## The walk over the subcarriers (R240, R241, R243, R245) -/

/-- The equalized sample of map position `i` (R241). -/
def eqSample (x : DemapCtx) (i : Nat) (m : BitVec 12) : Cplx := cmul (cmul (x.sample m.toNat) x.rot) (x.tap i)

/-- The reference point nearest to it (R242). -/
def eqPoint (x : DemapCtx) (i : Nat) (m : BitVec 12) : Cplx := refPoint x.refs (slice x.refs (eqSample x i m))

/-- The real part of the phase error of one subcarrier (R245). -/
def errRe (x : DemapCtx) (i : Nat) (m : BitVec 12) : Int :=
  (eqSample x i m).re.toInt * (eqPoint x i m).re.toInt + (eqSample x i m).im.toInt * (eqPoint x i m).im.toInt

/-- The imaginary part. -/
def errIm (x : DemapCtx) (i : Nat) (m : BitVec 12) : Int :=
  (eqSample x i m).im.toInt * (eqPoint x i m).re.toInt - (eqSample x i m).re.toInt * (eqPoint x i m).im.toInt

/-- The bit pattern sliced (R242). -/
def slicedBits (x : DemapCtx) (i : Nat) (m : BitVec 12) : Byte := valBits x.vals (slice x.refs (eqSample x i m))

/-- The tap after the equalizer update (R243). -/
def newTap (x : DemapCtx) (i : Nat) (m : BitVec 12) : Cplx := eqUpdate x.gain (x.tap i) (eqSample x i m) (eqPoint x i m)

/-- One subcarrier adds to each accumulator. -/
theorem demapOne_eq (x : DemapCtx) (i : Nat) (m : BitVec 12) (d : Demap) : demapOne x i m.toNat d =
    { accRe := d.accRe + errRe x i m
      accIm := d.accIm + errIm x i m
      taps := d.taps ++ [newTap x i m]
      packer := (pack x.nbits (slicedBits x i m) d.packer).1
      bytes := d.bytes ++ (pack x.nbits (slicedBits x i m) d.packer).2 } := rfl

/-- The walk from map position `i` on: each accumulator takes what every remaining subcarrier adds, in map order. -/
theorem demapLoop_eq (x : DemapCtx) (ms : List (BitVec 12)) : ∀ (i : Nat) (d : Demap), demapLoop x ms i d =
    { accRe := d.accRe + (ms.mapIdx fun j m => errRe x (i + j) m).sum
      accIm := d.accIm + (ms.mapIdx fun j m => errIm x (i + j) m).sum
      taps := d.taps ++ ms.mapIdx fun j m => newTap x (i + j) m
      packer := (packAll x.nbits (ms.mapIdx fun j m => slicedBits x (i + j) m) d.packer).1
      bytes := d.bytes ++ (packAll x.nbits (ms.mapIdx fun j m => slicedBits x (i + j) m) d.packer).2 } := by
  induction ms with
  | nil =>
    intro i d
    simp [demapLoop, packAll]
  | cons m ms ih =>
    intro i d
    have hshift : ∀ j, i + 1 + j = i + (j + 1) := fun j => by omega
    simp only [demapLoop, ih, demapOne_eq, List.mapIdx_cons, List.sum_cons, packAll, hshift, Nat.add_zero,
      List.append_assoc, List.singleton_append, Int.add_assoc]

/-- The walk over the whole map, from the residue of the last symbol. -/
theorem demapWalk_eq (s : State) : demapWalk s =
    { accRe := (s.fsync.map.mapIdx (errRe (demapCtx s))).sum
      accIm := (s.fsync.map.mapIdx (errIm (demapCtx s))).sum
      taps := s.fsync.map.mapIdx (newTap (demapCtx s))
      packer := (packAll (nBits s.fsync) (s.fsync.map.mapIdx (slicedBits (demapCtx s)))
        { bits := s.fsync.work.pkBits, n := s.fsync.work.pkN }).1
      bytes := (packAll (nBits s.fsync) (s.fsync.map.mapIdx (slicedBits (demapCtx s)))
        { bits := s.fsync.work.pkBits, n := s.fsync.work.pkN }).2 } := by
  rw [demapWalk, demapLoop_eq]
  simp only [Int.zero_add, Nat.zero_add, List.nil_append]
  rfl

/-- Settles O21: the walk's accumulators in closed form, then the tracking update of R246. -/
theorem demapResult : Obligations.DemapResult := by
  intro s
  rw [demap, demapWalk_eq]
  exact ⟨rfl, rfl⟩

/-! ## A channel that changes nothing (00_scope.md R29) -/

theorem clamp_toInt (w : Word) : sat w.toInt = w.toInt := by
  have h1 := BitVec.le_two_mul_toInt (x := w)
  have h2 := BitVec.two_mul_toInt_lt (x := w)
  rw [Numbers.sat_eq_clamp, clamp]
  omega

theorem satWord_toInt_self (w : Word) : satWord w.toInt = w :=
  BitVec.eq_of_toInt_eq (by rw [satWord_toInt, clamp_toInt])

/-- Unity is neutral (R19, R21). -/
theorem cmul_unity (z : Cplx) : cmul z unity = z := by
  have hone : unity.re.toInt = 65536 := by decide
  have hzero : unity.im.toInt = 0 := by decide
  obtain ⟨re, im⟩ := z
  simp [cmul, hone, hzero, shiftRight_fracBits, satWord_toInt_self]

/-- A non-zero value divided by itself is unity (R22). -/
theorem cdiv_self {z : Cplx} (h : 0 < norm2 z) : cdiv z z = unity := by
  have hre : (z.re.toInt * z.re.toInt + z.im.toInt * z.im.toInt) * 65536 / norm2 z = 65536 := Int.mul_ediv_cancel_left _ h.ne'
  have him : (z.im.toInt * z.re.toInt - z.re.toInt * z.im.toInt) * 65536 / norm2 z = 0 := by
    rw [Int.mul_comm z.im.toInt, Int.sub_self, Int.zero_mul, Int.zero_ediv]
  simp only [cdiv, hre, him]
  decide

/-- A tap at unity stays where the sample is its reference point (R243). -/
theorem eqUpdate_unity (g : Word) (z : Cplx) (h : 0 < norm2 z) : eqUpdate g unity z z = unity := by
  unfold eqUpdate
  split
  · simp only [cdiv_self h, Int.sub_self]
    have hzero : sat (smul g (sat 0)) = 0 := by simp [sat, smul, Config.smin, Config.smax, Config.fracBits]
    rw [hzero]
    decide
  · rfl

/-- A point of the table is its own nearest point (R242). -/
theorem refPoint_slice_self {refs : List Cplx} {z : Cplx} (h : z ∈ refs) : refPoint refs (slice refs z) = z := by
  obtain ⟨r, hr, hmin, -⟩ := FrameSync.sliceIsLowestNearest refs z (List.ne_nil_of_mem h)
  have hle := hmin z h
  have hself : dist2 z z = 0 := by simp [dist2]
  rw [hself, dist2] at hle
  have hre : z.re.toInt - r.re.toInt = 0 := by
    by_contra hne
    have := mul_self_pos.mpr hne
    have := mul_self_nonneg (z.im.toInt - r.im.toInt)
    omega
  have him : z.im.toInt - r.im.toInt = 0 := by
    by_contra hne
    have := mul_self_pos.mpr hne
    have := mul_self_nonneg (z.re.toInt - r.re.toInt)
    omega
  rw [refPoint, hr, Option.getD_some, Cplx.mk.injEq]
  exact ⟨BitVec.eq_of_toInt_eq (by omega), BitVec.eq_of_toInt_eq (by omega)⟩

section Unity

variable {s : State}

/-- With phase 0 and unity taps, the equalized sample is the sample. -/
theorem eqSample_eq_sample (hphase : s.fsync.work.phase = 0#32)
    (htaps : s.fsync.work.taps = List.replicate s.fsync.map.length unity) {i : Nat} (hi : i < s.fsync.map.length)
    {m : BitVec 12} {x : Cplx} (hx : (fsyncItem s).s[m.toNat]? = some x) :
    eqSample (demapCtx s) i m = x ∧ (demapCtx s).tap i = unity := by
  have hrot : (demapCtx s).rot = unity := by
    simp only [demapCtx, rotor, hphase, if_true]
  have htap : (demapCtx s).tap i = unity := by simp [demapCtx, htaps, hi]
  have hsample : (demapCtx s).sample m.toNat = x := by
    simp only [demapCtx, itemSample, hx, Option.getD_some]
  rw [eqSample, hrot, htap, hsample, cmul_unity, cmul_unity]
  exact ⟨rfl, rfl⟩

theorem arg_zero_im {re : Int} (h : 0 ≤ re) : arg re 0 = 0#32 := if_pos ⟨rfl, h⟩

/-- Without a phase error, tracking stands still (R246). -/
theorem trackUpdate_zero (cfg : FsyncRegs) {w : FsyncWork} (hphase : w.phase = 0#32) (hfreq : w.freq = 0#32) :
    (trackUpdate cfg 0#32 w).phase = 0#32 ∧ (trackUpdate cfg 0#32 w).freq = 0#32 ∧
    (trackUpdate cfg 0#32 w).taps = w.taps := by
  have hs : ∀ g, smul g 0 = 0 := fun g => by simp [smul]
  refine ⟨?_, ?_, rfl⟩ <;> simp [trackUpdate, hs, hphase, hfreq, wrap]

/-- Settles O24: every equalized sample is its own reference point, so the phase error is 0 and no tap moves. -/
theorem unityChannelKeepsTracking : Obligations.UnityChannelKeepsTracking := by
  intro s hphase hfreq htaps hsamples
  have point : ∀ i (hi : i < s.fsync.map.length), ∃ x, eqSample (demapCtx s) i s.fsync.map[i] = x ∧
      eqPoint (demapCtx s) i s.fsync.map[i] = x ∧ (demapCtx s).tap i = unity ∧ 0 < norm2 x := by
    intro i hi
    obtain ⟨x, hx, hsample, hnorm⟩ := hsamples _ (List.getElem_mem hi)
    obtain ⟨heq, htap⟩ := eqSample_eq_sample hphase htaps hi hsample
    exact ⟨x, heq, by rw [eqPoint, heq]; exact refPoint_slice_self hx, htap, lt_trans (by decide) hnorm⟩
  have htap : s.fsync.map.mapIdx (newTap (demapCtx s)) = s.fsync.work.taps := by
    refine List.ext_getElem (by simp [htaps]) fun i hi _ => ?_
    rw [List.length_mapIdx] at hi
    obtain ⟨x, hz, hr, ht, hnorm⟩ := point i hi
    simp only [List.getElem_mapIdx, htaps, List.getElem_replicate, newTap, hz, hr, ht]
    exact eqUpdate_unity _ x hnorm
  have him : (s.fsync.map.mapIdx (errIm (demapCtx s))).sum = 0 := by
    refine List.sum_eq_zero fun v hv => ?_
    obtain ⟨i, hi, rfl⟩ := List.mem_mapIdx.mp hv
    obtain ⟨x, hz, hr, -⟩ := point i hi
    rw [errIm, hz, hr, Int.mul_comm, Int.sub_self]
  have hre : 0 ≤ (s.fsync.map.mapIdx (errRe (demapCtx s))).sum := by
    refine List.sum_nonneg fun v hv => ?_
    obtain ⟨i, hi, rfl⟩ := List.mem_mapIdx.mp hv
    obtain ⟨x, hz, hr, -⟩ := point i hi
    rw [errRe, hz, hr]
    exact add_nonneg (mul_self_nonneg _) (mul_self_nonneg _)
  simp only [demap, demapWalk_eq, him, arg_zero_im hre, htap]
  obtain ⟨phase, freq, taps⟩ := trackUpdate_zero s.fsync.cfg (w := { s.fsync.work with
      pkBits := (packAll (nBits s.fsync) (s.fsync.map.mapIdx (slicedBits (demapCtx s)))
        { bits := s.fsync.work.pkBits, n := s.fsync.work.pkN }).1.bits
      pkN := (packAll (nBits s.fsync) (s.fsync.map.mapIdx (slicedBits (demapCtx s)))
        { bits := s.fsync.work.pkBits, n := s.fsync.work.pkN }).1.n }) hphase hfreq
  exact ⟨phase, freq, taps⟩

end Unity

end Sys2Proof.Proofs.Demapper

/-! PROOFS. The frame synchronizer's header and payload (41_frame_sync.md R250 to R263) and its invariant (R266). -/

namespace Sys2Proof.Proofs.Collecting

open Sys2Proof Sys2Proof.Machine Sys2Proof.Safety Sys2Proof.Claims Sys2Proof.Laws Sys2Proof.Proofs.Step
  Sys2Proof.Proofs.Legal Sys2Proof.Proofs.Kept Sys2Proof.Proofs.Demapper

/-! ## The payload store (R256, R262, R263) -/

/-- `pkt` is the payload memory of `w` with `bs` appended up to the declared length. -/
structure Stored (bs : List Byte) (w : FsyncWork) (pkt : List Host.Cell) : Prop where
  read : ∀ n, Memory.read pkt n =
    if w.pktCnt.toNat ≤ n ∧ n < min w.pktLen.toNat (w.pktCnt.toNat + bs.length) then bs[n - w.pktCnt.toNat]?
    else Memory.read w.pkt n
  wf : Memory.wf w.pkt = true → Memory.wf pkt = true

section Store

variable {bs : List Byte} {w : FsyncWork} {pkt : List Host.Cell}

theorem storeBytes_stored (bs : List Byte) (hle : w.pktCnt ≤ w.pktLen) : ∃ pkt, Stored bs w pkt ∧ storeBytes bs w = .ok
    { w with pkt := pkt, pktCnt := BitVec.ofNat 12 (min w.pktLen.toNat (w.pktCnt.toNat + bs.length)) } := by
  have hle' : w.pktCnt.toNat ≤ w.pktLen.toNat := hle
  have hmin : w.pktCnt.toNat + min bs.length (w.pktLen.toNat - w.pktCnt.toNat) =
      min w.pktLen.toNat (w.pktCnt.toNat + bs.length) := by omega
  obtain ⟨pkt, heq, hread, hwf⟩ := storeBytes_spec bs w hle
  have hcnt : w.pktCnt + BitVec.ofNat 12 (min bs.length (w.pktLen.toNat - w.pktCnt.toNat)) =
      BitVec.ofNat 12 (min w.pktLen.toNat (w.pktCnt.toNat + bs.length)) := by
    rw [← hmin, BitVec.ofNat_add, BitVec.ofNat_toNat, BitVec.setWidth_eq]
  exact ⟨pkt, ⟨fun n => by rw [hread, hmin], hwf⟩, by rw [heq, hcnt]⟩

/-- Below the declared length the count advances. -/
theorem storePayload_of_lt (draws : Nat) (h : w.pktCnt.toNat + bs.length < w.pktLen.toNat) :
    ∃ pkt, Stored bs w pkt ∧ storePayload draws bs w = .ok
      { work := { w with pkt := pkt, pktCnt := BitVec.ofNat 12 (w.pktCnt.toNat + bs.length) }, frame := none } := by
  obtain ⟨pkt, hst, heq⟩ := storeBytes_stored (w := w) bs (by rw [BitVec.le_def]; omega)
  have hmin : min w.pktLen.toNat (w.pktCnt.toNat + bs.length) = w.pktCnt.toNat + bs.length := by omega
  have hne : BitVec.ofNat 12 (w.pktCnt.toNat + bs.length) ≠ w.pktLen := by
    intro heq
    have := congrArg BitVec.toNat heq
    have := w.pktLen.isLt
    rw [BitVec.toNat_ofNat] at *
    omega
  rw [hmin] at heq
  exact ⟨pkt, hst, by simp only [storePayload, heq, hne, if_false]⟩

/-- At the declared length the frame is emitted. -/
theorem storePayload_of_le (draws : Nat) (hle : w.pktCnt ≤ w.pktLen) (h : w.pktLen.toNat ≤ w.pktCnt.toNat + bs.length) :
    ∃ pkt, Stored bs w pkt ∧ storePayload draws bs w = .ok
      { work := { w with pkt := pkt, pktCnt := w.pktLen, frameCnt := w.frameCnt + 1#32, state := 0#2 }
        frame := some (decodedFrame draws { w with pkt := pkt, pktCnt := w.pktLen }) } := by
  obtain ⟨pkt, hst, heq⟩ := storeBytes_stored bs hle
  rw [Nat.min_eq_left h, BitVec.ofNat_toNat, BitVec.setWidth_eq] at heq
  refine ⟨pkt, hst, ?_⟩
  simp only [storePayload, heq, if_true]
  rfl

/-- The payload store never overruns (R260). -/
theorem storePayload_ok (draws : Nat) (bs : List Byte) (hle : w.pktCnt ≤ w.pktLen) :
    ∃ c, storePayload draws bs w = .ok c := by
  by_cases h : w.pktCnt.toNat + bs.length < w.pktLen.toNat
  · obtain ⟨pkt, -, heq⟩ := storePayload_of_lt draws h
    exact ⟨_, heq⟩
  · obtain ⟨pkt, -, heq⟩ := storePayload_of_le draws hle (not_lt.mp h)
    exact ⟨_, heq⟩

end Store

/-! ## The header (R250 to R255) -/

section Header

variable {draws : Nat} {bs : List Byte} {w : FsyncWork}

/-- Too few bytes: all of them are shifted in (R251). -/
theorem collectHeader_of_lt (draws : Nat) (hcnt : w.hdrCnt.toNat ≤ 3) (h : bs.length < 4 - w.hdrCnt.toNat) :
    collectHeader draws bs w = .ok
      { work := { w with hdr := shiftHeader w.hdr bs, hdrCnt := BitVec.ofNat 3 (w.hdrCnt.toNat + bs.length) }
        frame := none } :=
  (collectHeader_spec draws bs w hcnt).1 h

/-- Enough bytes: the header is completed and checked. -/
theorem collectHeader_of_le (draws : Nat) (hcnt : w.hdrCnt.toNat ≤ 3) (h : 4 - w.hdrCnt.toNat ≤ bs.length) :
    collectHeader draws bs w = checkHeader draws (bs.drop (4 - w.hdrCnt.toNat))
      { w with hdr := shiftHeader w.hdr (bs.take (4 - w.hdrCnt.toNat)), hdrCnt := 4#3 } :=
  (collectHeader_spec draws bs w hcnt).2 h

/-- A complete bad header returns to search (R255). -/
theorem collectHeader_of_bad (draws : Nat) (hcnt : w.hdrCnt.toNat ≤ 3) (h : 4 - w.hdrCnt.toNat ≤ bs.length)
    (hok : hdrOk (shiftHeader w.hdr (bs.take (4 - w.hdrCnt.toNat))) = false) : collectHeader draws bs w = .ok
      { work := { w with
          hdr := shiftHeader w.hdr (bs.take (4 - w.hdrCnt.toNat)), hdrCnt := 4#3
          badhdrCnt := w.badhdrCnt + 1#32, state := 0#2 }
        frame := none } := by
  rw [collectHeader_of_le draws hcnt h, checkHeader, hok]
  rfl

/-- A complete good header takes the remaining bytes as payload (R252). -/
theorem collectHeader_of_good (draws : Nat) (hcnt : w.hdrCnt.toNat ≤ 3) (h : 4 - w.hdrCnt.toNat ≤ bs.length)
    (hok : hdrOk (shiftHeader w.hdr (bs.take (4 - w.hdrCnt.toNat))) = true) : collectHeader draws bs w =
      storePayload draws (bs.drop (4 - w.hdrCnt.toNat)) { w with
        hdr := shiftHeader w.hdr (bs.take (4 - w.hdrCnt.toNat)), hdrCnt := 4#3
        pktLen := hdrLen (shiftHeader w.hdr (bs.take (4 - w.hdrCnt.toNat)))
        whit := hdrWhit (shiftHeader w.hdr (bs.take (4 - w.hdrCnt.toNat))), pktCnt := 0#12, state := 2#2 } := by
  rw [collectHeader_of_le draws hcnt h, checkHeader, hok]
  rfl

/-- The header loop never overruns (R260). -/
theorem collectHeader_ok (draws : Nat) (bs : List Byte) (hcnt : w.hdrCnt.toNat ≤ 3) :
    ∃ c, collectHeader draws bs w = .ok c := by
  by_cases h : bs.length < 4 - w.hdrCnt.toNat
  · exact ⟨_, collectHeader_of_lt draws hcnt h⟩
  · cases hok : hdrOk (shiftHeader w.hdr (bs.take (4 - w.hdrCnt.toNat)))
    · exact ⟨_, collectHeader_of_bad draws hcnt (not_lt.mp h) hok⟩
    · rw [collectHeader_of_good draws hcnt (not_lt.mp h) hok]
      exact storePayload_ok draws _ (BitVec.le_def.mpr (Nat.zero_le _))

end Header

/-! ## The working state between steps (R266) -/

/-- The payload registers agree with a complete and good header, and every byte counted is stored. -/
def PayloadOk (w : FsyncWork) : Prop :=
  w.hdrCnt = 4#3 ∧ hdrOk w.hdr = true ∧ w.pktLen = hdrLen w.hdr ∧ w.whit = hdrWhit w.hdr ∧ w.pktCnt < w.pktLen ∧
  ∀ n < w.pktCnt.toNat, (Memory.read w.pkt n).isSome = true

/-- FSYNC's working state with `nact` active subcarriers. -/
def FsyncWorkOk (nact : Nat) (w : FsyncWork) : Prop :=
  w.state ≠ 3#2 ∧ w.pkN.toNat ≤ 7 ∧ w.pkBits.toNat < 2 ^ w.pkN.toNat ∧ (w.state = 1#2 → w.hdrCnt.toNat ≤ 3) ∧
  (w.state = 2#2 → PayloadOk w) ∧ (w.state ≠ 0#2 → w.taps.length = nact) ∧ Memory.wf w.pkt = true

theorem fsyncInv_iff (s : State) : FsyncInv s ↔ CtlOk s.fsync.ctl ∧ (s.fsync.ctl.en = true → FsyncCfgOk s.fsync) ∧
    FsyncWorkOk s.fsync.map.length s.fsync.work := .rfl

theorem fsyncWorkOk_reset (nact : Nat) : FsyncWorkOk nact FsyncWork.reset := by
  simp [FsyncWorkOk, FsyncWork.reset, Memory.wf]

/-- What holds throughout a demodulating step: the residue is below a byte, the taps are complete, the payload memory is canonical. -/
def Demodulating (nact : Nat) (w : FsyncWork) : Prop :=
  w.pkN.toNat ≤ 7 ∧ w.pkBits.toNat < 2 ^ w.pkN.toNat ∧ w.taps.length = nact ∧ Memory.wf w.pkt = true

section Work

variable {nact : Nat} {w : FsyncWork}

theorem fsyncWorkOk_of_search (h : Demodulating nact w) (hst : w.state = 0#2) : FsyncWorkOk nact w := by
  obtain ⟨hn, hb, ht, hwf⟩ := h
  exact ⟨by simp [hst], hn, hb, by simp [hst], by simp [hst], fun _ => ht, hwf⟩

theorem fsyncWorkOk_of_header (h : Demodulating nact w) (hst : w.state = 1#2) (hcnt : w.hdrCnt.toNat ≤ 3) :
    FsyncWorkOk nact w := by
  obtain ⟨hn, hb, ht, hwf⟩ := h
  exact ⟨by simp [hst], hn, hb, fun _ => hcnt, by simp [hst], fun _ => ht, hwf⟩

theorem fsyncWorkOk_of_payload (h : Demodulating nact w) (hst : w.state = 2#2) (hp : PayloadOk w) : FsyncWorkOk nact w := by
  obtain ⟨hn, hb, ht, hwf⟩ := h
  exact ⟨by simp [hst], hn, hb, by simp [hst], fun _ => hp, fun _ => ht, hwf⟩

/-- Bytes added to a payload whose counted bytes are stored leave all counted bytes stored. -/
theorem Stored.isSome {bs : List Byte} {pkt : List Host.Cell} (h : Stored bs w pkt)
    (old : ∀ n < w.pktCnt.toNat, (Memory.read w.pkt n).isSome = true) (hfit : w.pktCnt.toNat + bs.length < w.pktLen.toNat) :
    ∀ n < w.pktCnt.toNat + bs.length, (Memory.read pkt n).isSome = true := by
  intro n hn
  rw [h.read]
  split
  · rw [List.getElem?_eq_getElem (by omega)]
    rfl
  · exact old n (by omega)

/-- The payload store keeps the working state in order. -/
theorem fsyncWorkOk_of_storePayload {draws : Nat} {bs : List Byte} {c : Collect}
    (hc : storePayload draws bs w = .ok c) (h : Demodulating nact w) (hst : w.state = 2#2) (hcnt : w.hdrCnt = 4#3)
    (hok : hdrOk w.hdr = true) (hlen : w.pktLen = hdrLen w.hdr) (hwhit : w.whit = hdrWhit w.hdr) (hle : w.pktCnt ≤ w.pktLen)
    (old : ∀ n < w.pktCnt.toNat, (Memory.read w.pkt n).isSome = true) : FsyncWorkOk nact c.work := by
  obtain ⟨hn, hb, ht, hwf⟩ := h
  by_cases hfit : w.pktCnt.toNat + bs.length < w.pktLen.toNat
  · obtain ⟨pkt, hpkt, heq⟩ := storePayload_of_lt draws hfit
    obtain rfl := Except.ok.inj (heq.symm.trans hc)
    have hnat : (BitVec.ofNat 12 (w.pktCnt.toNat + bs.length)).toNat = w.pktCnt.toNat + bs.length := by
      have := w.pktLen.isLt
      rw [BitVec.toNat_ofNat]
      omega
    refine fsyncWorkOk_of_payload ⟨hn, hb, ht, hpkt.wf hwf⟩ hst ⟨hcnt, hok, hlen, hwhit, ?_, ?_⟩
    · rw [BitVec.lt_def]
      simp only [hnat]
      exact hfit
    · simp only [hnat]
      exact hpkt.isSome old hfit
  · obtain ⟨pkt, hpkt, heq⟩ := storePayload_of_le draws hle (not_lt.mp hfit)
    obtain rfl := Except.ok.inj (heq.symm.trans hc)
    exact fsyncWorkOk_of_search ⟨hn, hb, ht, hpkt.wf hwf⟩ rfl

/-- So does the header loop. -/
theorem fsyncWorkOk_of_collectHeader {draws : Nat} {bs : List Byte} {c : Collect} (h : Demodulating nact w)
    (hst : w.state = 1#2) (hcnt : w.hdrCnt.toNat ≤ 3) (hc : collectHeader draws bs w = .ok c) :
    FsyncWorkOk nact c.work := by
  by_cases hlt : bs.length < 4 - w.hdrCnt.toNat
  · rw [collectHeader_of_lt draws hcnt hlt] at hc
    obtain rfl := Except.ok.inj hc
    refine fsyncWorkOk_of_header h hst ?_
    rw [BitVec.toNat_ofNat]
    omega
  · cases hok : hdrOk (shiftHeader w.hdr (bs.take (4 - w.hdrCnt.toNat)))
    · rw [collectHeader_of_bad draws hcnt (not_lt.mp hlt) hok] at hc
      obtain rfl := Except.ok.inj hc
      exact fsyncWorkOk_of_search h rfl
    · rw [collectHeader_of_good draws hcnt (not_lt.mp hlt) hok] at hc
      exact fsyncWorkOk_of_storePayload hc h rfl rfl hok rfl rfl (BitVec.le_def.mpr (Nat.zero_le _)) (by simp)

end Work

/-! ## The demapper on a committed configuration -/

section Demap

variable {s : State}

/-- A committed constellation has a point, and every sliced pattern fits into `NBITS` bits (R340, R343). -/
theorem slicedBits_lt (h : FsyncCfgOk s.fsync) (i : Nat) (m : BitVec 12) :
    (slicedBits (demapCtx s) i m).toNat < 2 ^ nBits s.fsync := by
  obtain ⟨hlegal, hrefs, hvals, hbits, -⟩ := h
  have hne : s.fsync.refs ≠ [] := by
    obtain ⟨k, -, -, hk⟩ := (legalNpoints_iff _).mp hlegal
    rw [← List.length_pos_iff, hrefs, hk]
    positivity
  obtain ⟨r, hr, -⟩ := FrameSync.sliceIsLowestNearest s.fsync.refs (eqSample (demapCtx s) i m) hne
  obtain ⟨hlt, -⟩ := List.getElem?_eq_some_iff.mp hr
  rw [hrefs, ← hvals] at hlt
  have hval : slicedBits (demapCtx s) i m = s.fsync.vals[slice s.fsync.refs (eqSample (demapCtx s) i m)] := by
    change valBits s.fsync.vals (slice s.fsync.refs _) = _
    rw [valBits, List.getElem?_eq_getElem hlt, Option.getD_some]
  rw [hval]
  exact hbits _ (List.getElem_mem hlt)

/-- After the demapper, the residue is below a byte and every active subcarrier has a tap. -/
theorem demodulating_demap (hcfg : FsyncCfgOk s.fsync) (h : FsyncWorkOk s.fsync.map.length s.fsync.work) (st : BitVec 2) :
    Demodulating s.fsync.map.length { (demap s).1 with state := st } := by
  obtain ⟨-, hn, hb, -, -, -, hwf⟩ := h
  have packed : Packed (nBits s.fsync) _ _ _ := packed_packAll (log2_le_of_legal hcfg.1)
    (s.fsync.map.mapIdx (slicedBits (demapCtx s))) { bits := s.fsync.work.pkBits, n := s.fsync.work.pkN } hn hb <| by
      intro v hv
      obtain ⟨i, hi, rfl⟩ := List.mem_mapIdx.mp hv
      exact slicedBits_lt hcfg i _
  have hres := packed.residue.trans_le (Nat.le_of_lt_succ (Nat.mod_lt _ (by decide : 7 + 1 > 0)))
  refine ⟨?_, ?_, ?_, hwf⟩
  · simp only [demap, demapWalk_eq, trackUpdate]
    exact hres
  · simp only [demap, demapWalk_eq, trackUpdate]
    exact packed.fits
  · simp only [demap, demapWalk_eq, trackUpdate, List.length_mapIdx]

end Demap

/-! ## Every step -/

/-- Tag capture touches the captured metadata and the counter of misses only (R233). -/
theorem fsyncCapture_frame {s : State} {w : FsyncWork} (h : fsyncCapture s = .ok w) : ∃ tv a b cv v n,
    w = { s.fsync.work with tsValid := tv, tsSecs := a, tsFrac := b, cfoValid := cv, cfoVal := v, missingCnt := n } := by
  rw [fsyncCapture] at h
  by_cases hstale : (((fsyncSyncTags s).isEmpty || (fsyncCfoTags s).isEmpty) && s.fsync.cfg.policy) = true
  · rw [if_pos hstale] at h
    cases h
  · rw [if_neg hstale] at h
    cases h
    unfold captureCfo captureSync
    split <;> split <;> exact ⟨_, _, _, _, _, _, rfl⟩

theorem fsyncWorkOk_of_done {s : State} {w : FsyncWork} {f : Option Frame} (hcfg : FsyncCfgOk s.fsync)
    (h : FsyncWorkOk s.fsync.map.length s.fsync.work) (hd : FsyncDone s w f) : FsyncWorkOk s.fsync.map.length w := by
  obtain ⟨-, hn, hb, hhdr, hpay, -, hwf⟩ := id h
  cases hd with
  | idle => exact ⟨by simp, hn, hb, by simp, by simp, by simp, hwf⟩
  | acquire w capture =>
    obtain ⟨tv, a, b, cv, v, n, rfl⟩ := fsyncCapture_frame capture
    exact fsyncWorkOk_of_header ⟨by simp [acquireReset], by simp [acquireReset], by simp [acquireReset, nAct], hwf⟩ rfl
      (by simp [acquireReset])
  | header c state collect =>
    exact fsyncWorkOk_of_collectHeader (demodulating_demap hcfg h _) rfl (hhdr state) collect
  | payload c state collect =>
    obtain ⟨hcnt, hok, hlen, hwhit, hlt, hold⟩ := hpay state
    exact fsyncWorkOk_of_storePayload collect (demodulating_demap hcfg h _) rfl hcnt hok hlen hwhit (BitVec.le_of_lt hlt) hold

theorem fsyncCfgOk_congr {f g : Fsync} (hcfg : g.cfg = f.cfg) (hmap : g.map = f.map) (hrefs : g.refs = f.refs)
    (hvals : g.vals = f.vals) : FsyncCfgOk g ↔ FsyncCfgOk f := by
  unfold FsyncCfgOk nBits
  rw [hcfg, hmap, hrefs, hvals]

/-- What a commit accepts is a complete and legal configuration (R340, R342, R343). -/
theorem fsyncCfgOk_of_frozen {s t : State} (legal : validate s .fsync = 0#8) (h : frozen .fsync s t) : FsyncCfgOk t.fsync := by
  obtain ⟨-, hmax, -, hocc, ⟨n, h1, h8, hn, hvals⟩, -, -, hmin, hact⟩ := (validateFsync_eq_zero_iff s s.fsync.reg).mp legal
  obtain ⟨-, hcfg, hmap, hrefs, hval, -⟩ := h
  unfold FsyncCfgOk nBits
  rw [hcfg, hmap, hrefs, hval, length_mapOf]
  refine ⟨(legalNpoints_iff _).mpr ⟨n, h1, h8, hn⟩, by simp, by simp, ?_, hmin, hact, hocc, hmax, ?_⟩
  · intro v hv
    obtain ⟨k, hk, rfl⟩ := List.mem_map.mp hv
    rw [List.mem_range, hn] at hk
    rw [hn, Nat.log2_two_pow]
    exact hvals k hk
  · intro m hm
    simp only [mapOf, List.mem_map, List.mem_filter, List.mem_range] at hm
    obtain ⟨i, ⟨hi, -⟩, rfl⟩ := hm
    rw [BitVec.toNat_ofNat]
    omega

theorem fsyncInv_of_event {a : Action} {s t : State} (h : FsyncInv s) (ev : Event .fsync a s t) : FsyncInv t := by
  have hctl : CtlOk t.fsync.ctl := ctlOk_of_event (e := .fsync) ((fsyncInv_iff s).mp h).1 ev
  obtain ⟨-, hcfg, hwork⟩ := (fsyncInv_iff s).mp h
  refine (fsyncInv_iff t).mpr ⟨hctl, ?_⟩
  cases ev with
  | kept en ign stays ctl regs work =>
    have ctl : t.fsync.ctl = _ := ctl
    have work : s.fsync.work = t.fsync.work := work
    obtain ⟨-, cfg, map, refs, vals⟩ := regs
    rw [ctl, ← work, ← map, fsyncCfgOk_congr cfg.symm map.symm refs.symm vals.symm]
    exact ⟨fun h => hcfg (stays h), hwork⟩
  | configured off ctl committed work =>
    have ctl : t.fsync.ctl = s.fsync.ctl := ctl
    have work : s.fsync.work = t.fsync.work := work
    obtain ⟨cfg, map, refs, vals⟩ := committed
    rw [ctl, ← work, map, fsyncCfgOk_congr cfg map refs vals]
    exact ⟨hcfg, hwork⟩
  | stepped on healthy completes =>
    obtain ⟨f, hdone, -⟩ := completes.done
    obtain ⟨-, cfg, map, refs, vals⟩ := completes.regs
    rw [← map, fsyncCfgOk_congr cfg.symm map.symm refs.symm vals.symm]
    exact ⟨fun _ => hcfg on, fsyncWorkOk_of_done (hcfg on) hwork hdone⟩
  | faulted on healthy b f may eq =>
    subst eq
    exact ⟨fun _ => hcfg on, hwork⟩
  | cleared ctl work =>
    have ctl : t.fsync.ctl = Ctl.reset := ctl
    have work : FsyncWork.reset = t.fsync.work := work
    rw [ctl, ← work]
    exact ⟨nofun, fsyncWorkOk_reset _⟩
  | refused off illegal ctl regs work =>
    have ctl : t.fsync.ctl = _ := ctl
    have work : s.fsync.work = t.fsync.work := work
    obtain ⟨-, cfg, map, refs, vals⟩ := regs
    rw [ctl, ← work, ← map, fsyncCfgOk_congr cfg.symm map.symm refs.symm vals.symm]
    exact ⟨hcfg, hwork⟩
  | committed off legal access ctl work frozen =>
    have work : FsyncWork.reset = t.fsync.work := work
    rw [← work]
    exact ⟨fun _ => fsyncCfgOk_of_frozen legal frozen, fsyncWorkOk_reset _⟩

/-- Settles O25: every event of FSYNC keeps the invariant; a demodulating step by the packer, the header loop and the payload
store. -/
theorem stepKeepsFsyncInvariant : Obligations.StepKeepsFsyncInvariant := fun _ _ hs h =>
  step_keeps (P := FsyncInv) (fun _ h => h) (fun _ _ hu hp => fsyncInv_of_event hu (event_of_perform hp .fsync)) hs h

end Sys2Proof.Proofs.Collecting

/-! PROOFS. What each operation of the frame synchronizer leaves (41_frame_sync.md R231 to R263), and the faults no step
records (60_exceptions.md R361). -/

namespace Sys2Proof.Proofs.Synchronizer

open Sys2Proof Sys2Proof.Machine Sys2Proof.Safety Sys2Proof.Claims Sys2Proof.Laws Sys2Proof.Proofs.Step
  Sys2Proof.Proofs.Kept Sys2Proof.Proofs.Collecting

/-! ## FS.ACQ (R232, R233) -/

section Acquire

variable {s : State}

theorem fsyncCapture_of_ok (h : s.fsync.cfg.policy = false ∨ ((fsyncSyncTags s).getLast? ≠ none ∧
    (fsyncCfoTags s).getLast? ≠ none)) :
    fsyncCapture s = .ok (captureCfo (fsyncCfoTags s) (captureSync (fsyncSyncTags s) s.fsync.work)) := by
  simp only [ne_eq, List.getLast?_eq_none_iff, ← List.isEmpty_iff, Bool.not_eq_true] at h
  refine if_neg ?_
  obtain h | ⟨h1, h2⟩ := h
  · simp [h]
  · simp [h1, h2]

theorem fsyncCapture_of_stale (hp : s.fsync.cfg.policy = true) (h : fsyncSyncTags s = [] ∨ fsyncCfoTags s = []) :
    fsyncCapture s = .error (faultStaleTag (fsyncSyncTags s).isEmpty (fsyncCfoTags s).isEmpty) := by
  refine if_pos ?_
  obtain h | h := h <;> simp [hp, h]

/-- Settles O17: the two halves of tag capture, each with a tag and without one. -/
theorem fsAcqResult : Obligations.FsAcqResult := by
  intro s w a u h
  rw [exec_fsAcq_of_ok (fsyncCapture_of_ok h)]
  have ha : (fsyncSyncTags s).getLast? = a := rfl
  have hu : (fsyncCfoTags s).getLast? = u := rfl
  unfold captureCfo captureSync
  rw [ha, hu]
  clear_value a u
  cases a <;> cases u <;> simp [w, latchSel_fsync, acquireReset, InPort.consume, nAct, unity, Config.one, valueSecs,
    valueLow]

theorem faultStaleTag_info (sync cfo : List Tag) : (faultStaleTag sync.isEmpty cfo.isEmpty).info =
    (if sync = [] then 1#32 else 0#32) + (if cfo = [] then 2#32 else 0#32) := by
  cases sync <;> cases cfo <;> simp [faultStaleTag]

/-- Settles O18: a missing tag is fatal under policy 1. -/
theorem fsAcqStaleTagFaults : Obligations.FsAcqStaleTagFaults := by
  intro s w a u hp h
  rw [exec_fsAcq_of_error (fsyncCapture_of_stale hp h), faultEntry_fsync, faultStaleTag_info]
  rfl

end Acquire

/-! ## FS.HDR and FS.PAY (R250 to R263) -/

/-- The state a demodulating step with selector `b` leaves when it collects `c`. -/
def collected (s : State) (b : Byte) (c : Collect) : State :=
  { s with
    fsync := { s.fsync with ctl := latched s.fsync.ctl b, work := { c.work with rd := c.work.rd + 1#64 } }
    fsyncIn := { s.fsyncIn with items := s.fsyncIn.items.drop 1 }
    msgq := s.msgq ++ c.frame.toList
    qroom := if c.frame.isSome then s.qroom.map (· - 1) else s.qroom }

theorem demodFrame_collected (s : State) (b : Byte) (c : Collect) : demodFrame s (collected s b c) b := rfl

theorem endStep_finishDemod {s : State} {b : Byte} {c : Collect} {r : Except HwFault Collect} (h : r = .ok c) :
    endStep s .fsync b (finishDemod s r) = .next (collected s b c) := by
  rw [h, finishDemod_ok, endStep_ok, latchSel_fsync]
  rfl

section Payload

variable {bs old : List Byte} {w : FsyncWork} {pkt : List Host.Cell}

/-- The payload memory after the store, byte by byte, where the bytes stored before are `old`. -/
theorem read_append_of_stored (h : Stored bs w pkt) (hlen : old.length = w.pktCnt.toNat)
    (hold : ∀ n < old.length, Memory.read w.pkt n = old[n]?) (hle : w.pktCnt ≤ w.pktLen) (n : Nat) :
    Memory.read pkt n =
      if n < min w.pktLen.toNat (old ++ bs).length then (old ++ bs)[n]? else Memory.read w.pkt n := by
  have hle' : w.pktCnt.toNat ≤ w.pktLen.toNat := hle
  rw [h.read, List.length_append, hlen]
  by_cases hn : n < w.pktCnt.toNat
  · rw [if_neg (by omega), if_pos (by omega), List.getElem?_append_left (by omega), hold n (by omega)]
  · rw [List.getElem?_append_right (by omega), hlen]
    exact if_congr (by omega) rfl rfl

/-- The frame of a complete payload is the Decoded Frame of its bytes (30_encoding.md R155). -/
theorem decodedFrame_eq (draws : Nat) {all : List Byte} (hall : w.pktLen.toNat ≤ all.length)
    (hread : ∀ n < w.pktLen.toNat, Memory.read w.pkt n = all[n]?) :
    decodedFrame draws w = frameOf w w.whit (all.take w.pktLen.toNat) := by
  have hpay : (List.range w.pktLen.toNat).map (payloadByte draws w) = all.take w.pktLen.toNat := by
    refine List.ext_getElem (by simp [hall]) fun n hn _ => ?_
    rw [List.length_map, List.length_range] at hn
    rw [List.getElem_map, List.getElem_range, List.getElem_take, payloadByte, hread n hn,
      List.getElem?_eq_getElem (hn.trans_le hall), Option.getD_some]
  have hlen : w.pktLen.setWidth 32 = BitVec.ofNat 32 (all.take w.pktLen.toNat).length := by
    rw [List.length_take_of_le hall, BitVec.ofNat_toNat]
  rw [decodedFrame, frameOf, hpay, hlen]

/-- The payload so far and the bytes of this symbol stay below the declared length. -/
theorem storePayload_append_of_lt (draws : Nat) (hlen : old.length = w.pktCnt.toNat)
    (hold : ∀ n < old.length, Memory.read w.pkt n = old[n]?) (hlt : (old ++ bs).length < w.pktLen.toNat) :
    ∃ pkt, (∀ n, Memory.read pkt n = if n < (old ++ bs).length then (old ++ bs)[n]? else Memory.read w.pkt n) ∧
      storePayload draws bs w = .ok
        { work := { w with pkt := pkt, pktCnt := BitVec.ofNat 12 (old ++ bs).length }, frame := none } := by
  have hsum : (old ++ bs).length = w.pktCnt.toNat + bs.length := by rw [List.length_append, hlen]
  obtain ⟨pkt, hst, heq⟩ := storePayload_of_lt draws (hsum ▸ hlt)
  refine ⟨pkt, fun n => ?_, hsum ▸ heq⟩
  rw [read_append_of_stored hst hlen hold (by rw [BitVec.le_def]; omega), Nat.min_eq_right hlt.le]

/-- They reach it: the frame of the first bytes, as many as declared, is emitted. -/
theorem storePayload_append_of_le (draws : Nat) (hlen : old.length = w.pktCnt.toNat)
    (hold : ∀ n < old.length, Memory.read w.pkt n = old[n]?) (hcnt : w.pktCnt ≤ w.pktLen)
    (hle : w.pktLen.toNat ≤ (old ++ bs).length) :
    ∃ pkt, (∀ n, Memory.read pkt n = if n < w.pktLen.toNat then (old ++ bs)[n]? else Memory.read w.pkt n) ∧
      storePayload draws bs w = .ok
        { work := { w with pkt := pkt, pktCnt := w.pktLen, frameCnt := w.frameCnt + 1#32, state := 0#2 }
          frame := some (frameOf w w.whit ((old ++ bs).take w.pktLen.toNat)) } := by
  have hsum : (old ++ bs).length = w.pktCnt.toNat + bs.length := by rw [List.length_append, hlen]
  obtain ⟨pkt, hst, heq⟩ := storePayload_of_le draws hcnt (hsum ▸ hle)
  have hread : ∀ n, Memory.read pkt n = if n < w.pktLen.toNat then (old ++ bs)[n]? else Memory.read w.pkt n := by
    intro n
    rw [read_append_of_stored hst hlen hold hcnt, Nat.min_eq_left hle]
  refine ⟨pkt, hread, heq.trans ?_⟩
  rw [decodedFrame_eq draws (w := { w with pkt := pkt, pktCnt := w.pktLen }) hle fun n hn => by rw [hread, if_pos hn]]
  rfl

end Payload

/-- Settles O20: the payload store after the demapper. -/
theorem fsPayResult : Obligations.FsPayResult := by
  intro sig s old hlt hlen hold bytes all len
  rw [exec_fsPay]
  by_cases hfull : all.length < len
  · obtain ⟨pkt, hread, heq⟩ := storePayload_append_of_lt (w := { (demap s).1 with state := 2#2 }) s.draws hlen hold hfull
    refine ⟨_, endStep_finishDemod heq, demodFrame_collected _ _ _, fun n => ?_, fun _ => ⟨rfl, by simp [collected], rfl⟩,
      fun h => absurd hfull (not_lt.mpr h)⟩
    rw [Nat.min_eq_right hfull.le]
    exact hread n
  · have hfull := not_lt.mp hfull
    obtain ⟨pkt, hread, heq⟩ := storePayload_append_of_le (w := { (demap s).1 with state := 2#2 }) s.draws hlen hold
      (BitVec.le_of_lt hlt) hfull
    refine ⟨_, endStep_finishDemod heq, demodFrame_collected _ _ _, fun n => ?_, fun h => absurd h (not_lt.mpr hfull),
      fun _ => ⟨rfl, rfl, rfl⟩⟩
    rw [Nat.min_eq_left hfull]
    exact hread n

/-- Settles O19: the header loop after the demapper, and the payload store after a good header. -/
theorem fsHdrResult : Obligations.FsHdrResult := by
  intro sig s hcnt w bytes need rest h len
  rw [exec_fsHdr]
  by_cases hshort : bytes.length < need
  · have hall : shiftHeader s.fsync.work.hdr bytes = h := by simp only [h, List.take_of_length_le hshort.le]
    refine ⟨_, endStep_finishDemod (collectHeader_of_lt s.draws hcnt hshort), demodFrame_collected _ _ _,
      fun _ => ⟨congrArg (fun h => demodulated s 1#2 h _) hall, by simp [collected], rfl⟩,
      fun hle => absurd hle (not_le.mpr hshort),
      fun hle => absurd hle (not_le.mpr hshort), fun hle => absurd hle (not_le.mpr hshort)⟩
  have hle := not_lt.mp hshort
  cases hok : hdrOk h with
  | false =>
    exact ⟨_, endStep_finishDemod (collectHeader_of_bad s.draws hcnt hle hok), demodFrame_collected _ _ _,
      fun hlt => absurd hlt hshort, fun _ _ => ⟨rfl, by simp [collected], rfl⟩, nofun, nofun⟩
  | true =>
    have good := collectHeader_of_good (w := { (demap s).1 with state := 1#2 }) s.draws hcnt hle hok
    by_cases hfull : rest.length < len
    · obtain ⟨pkt, hread, heq⟩ := storePayload_append_of_lt (old := []) (bs := rest) (w := { (demap s).1 with
          hdr := h, hdrCnt := 4#3, pktLen := hdrLen h, whit := hdrWhit h, pktCnt := 0#12, state := 2#2 })
        s.draws rfl (by simp) hfull
      exact ⟨_, endStep_finishDemod (good.trans heq), demodFrame_collected _ _ _,
        fun hlt => absurd hlt hshort, nofun,
        fun _ _ _ => ⟨rfl, hread, by simp [collected], rfl⟩, fun _ _ hge => absurd hfull (not_lt.mpr hge)⟩
    · obtain ⟨pkt, hread, heq⟩ := storePayload_append_of_le (old := []) (bs := rest) (w := { (demap s).1 with
          hdr := h, hdrCnt := 4#3, pktLen := hdrLen h, whit := hdrWhit h, pktCnt := 0#12, state := 2#2 })
        s.draws rfl (by simp) (BitVec.le_def.mpr (Nat.zero_le _)) (not_lt.mp hfull)
      exact ⟨_, endStep_finishDemod (good.trans heq), demodFrame_collected _ _ _,
        fun hlt => absurd hlt hshort, nofun,
        fun _ _ hlt => absurd hlt hfull, fun _ _ _ => ⟨rfl, hread, rfl, rfl⟩⟩

/-! ## Faults no step records (60_exceptions.md R361) -/

/-- An event leaves the fault code, clears it, or records a fault the engine may raise. -/
theorem faultCode_of_event {e : Engine} {a : Action} {s t : State} (ev : Event e a s t) :
    (t.ctlOf e).faultCode = (s.ctlOf e).faultCode ∨ (t.ctlOf e).faultCode = 0x00#8 ∨
    ∃ f, mayFault e s f ∧ (t.ctlOf e).faultCode = f.code := by
  cases ev with
  | kept en ign stays ctl => exact .inl (by rw [ctl])
  | configured off ctl => exact .inl (by rw [ctl])
  | stepped on healthy completes =>
    obtain ⟨b, ctl⟩ := completes.ctl
    exact .inl (by rw [ctl, latched])
  | faulted on healthy b f may eq => exact .inr (.inr ⟨f, may, by rw [eq, faultEntry_ctlOf]⟩)
  | cleared ctl => exact .inr (.inl (by rw [ctl, Ctl.reset]))
  | refused off illegal ctl => exact .inl (by rw [ctl])
  | committed off legal access ctl => exact .inl (by rw [ctl])

/-- In the states the sampler reaches, `F_ATIME_OFFSET` is its only fault. -/
theorem code_of_mayFault_samp {s : State} {f : HwFault} (h : SampInv s) (may : mayFault .samp s f) : f.code = 0x01#8 := by
  obtain ⟨-, -, hsteady, -⟩ := h
  obtain hcode | ⟨h0, h2⟩ := may
  · exact hcode
  · exact (hsteady.elim h0 h2).elim

/-- In the states the synchronizer reaches, `F_STALE_TAG` is its only fault. -/
theorem code_of_mayFault_fsync {s : State} {f : HwFault} (h : FsyncInv s) (may : mayFault .fsync s f) : f.code = 0x05#8 := by
  obtain ⟨-, -, hres, -, -, hhdr, hpay, -⟩ := h
  obtain hcode | hst | ⟨hst, herr⟩ | ⟨hst, herr⟩ := may
  · exact hcode
  · exact absurd hst hres
  · obtain ⟨c, hc⟩ := collectHeader_ok (w := { (demap s).1 with state := 1#2 }) s.draws (demap s).2 (hhdr hst)
    exact absurd (herr.symm.trans hc) nofun
  · obtain ⟨-, -, -, -, hlt, -⟩ := hpay hst
    obtain ⟨c, hc⟩ := storePayload_ok (w := { (demap s).1 with state := 2#2 }) s.draws (demap s).2 (BitVec.le_of_lt hlt)
    exact absurd (herr.symm.trans hc) nofun

theorem noInternalFault_of_perform {a : Action} {s t : State} (hsamp : SampInv s) (hfsync : FsyncInv s)
    (h : NoInternalFault s) (hp : perform s a = .next t) : NoInternalFault t := by
  obtain ⟨h1, h2, h3, h4⟩ := h
  refine ⟨?_, ?_, ?_, ?_⟩
  · obtain same | none | ⟨f, may, rec⟩ := faultCode_of_event (event_of_perform hp .samp)
    · exact same.symm ▸ h1
    · exact .inl none
    · exact .inr (rec.trans (code_of_mayFault_samp hsamp may))
  · obtain same | none | ⟨f, may, rec⟩ := faultCode_of_event (event_of_perform hp .fsync)
    · exact same.symm ▸ h2
    · exact .inl none
    · exact .inr (rec.trans (code_of_mayFault_fsync hfsync may))
  · obtain same | none | ⟨f, may, -⟩ := faultCode_of_event (event_of_perform hp .pins)
    · exact same.trans h3
    · exact none
    · exact may.elim
  · obtain same | none | ⟨f, may, -⟩ := faultCode_of_event (event_of_perform hp .cpfx)
    · exact same.trans h4
    · exact none
    · exact may.elim

/-- Settles O59: the invariants rule out each fault but the two the spec calls reachable. -/
theorem internalFaultsAreUnreachable : Obligations.InternalFaultsAreUnreachable := by
  intro s t hsamp hfsync hnone h
  obtain ⟨-, rfl⟩ | ⟨a, rest, -, hp⟩ := step_cases h
  · exact hnone
  · exact noInternalFault_of_perform (s := { s with agenda := rest }) hsamp hfsync hnone hp

end Sys2Proof.Proofs.Synchronizer

/-! PROOFS. What each operation of the sampler leaves (40_sampler.md R202 to R215). -/

namespace Sys2Proof.Proofs.Sampler

open Sys2Proof Sys2Proof.Machine Sys2Proof.Claims Sys2Proof.Laws Sys2Proof.Proofs.Step

/-! ## Tag ingestion (R205, R206) -/

section Ingestion

variable {s : State} {c : Nat} {t : Tag}

/-- Without an absolute-time tag the time latches stay. -/
theorem ingestTime_of_none (h : lastTag s.sampIn.tags s.samp.work.rd c 3#3 = none) :
    ingestTime s c s.samp.work = .ok s.samp.work := by
  rw [lastTag] at h
  simp only [ingestTime, keyAbsTime, h]

/-- An absolute-time tag at index 0 is accepted. -/
theorem ingestTime_of_zero (h : lastTag s.sampIn.tags s.samp.work.rd c 3#3 = some t) (h0 : t.index = 0#64) :
    ingestTime s c s.samp.work = .ok { s.samp.work with
      atValid := true, atSecs := t.value.extractLsb' 64 64, atFrac := t.value.extractLsb' 0 64, atIdx := t.index } := by
  rw [lastTag] at h
  simp only [ingestTime, keyAbsTime, h, h0, ne_eq, not_true_eq_false, if_false]
  rfl

/-- Elsewhere policy 1 drops and counts it. -/
theorem ingestTime_of_dropped (h : lastTag s.sampIn.tags s.samp.work.rd c 3#3 = some t) (h0 : t.index ≠ 0#64)
    (hp : s.samp.cfg.policy = true) :
    ingestTime s c s.samp.work = .ok { s.samp.work with dropCnt := s.samp.work.dropCnt + 1#32 } := by
  rw [lastTag] at h
  simp only [ingestTime, keyAbsTime, h, h0, hp, ne_eq, not_false_eq_true, if_true]

/-- Elsewhere policy 0 faults. -/
theorem ingestTime_of_fault (h : lastTag s.sampIn.tags s.samp.work.rd c 3#3 = some t) (h0 : t.index ≠ 0#64)
    (hp : s.samp.cfg.policy = false) : ingestTime s c s.samp.work = .error (faultAtimeOffset t.index) := by
  rw [lastTag] at h
  simp only [ingestTime, keyAbsTime, h, h0, hp, ne_eq, not_false_eq_true, if_true, Bool.false_eq_true, if_false]

theorem sampIngest_of_ok {w : SampWork} (h : ingestTime s c s.samp.work = .ok w) : sampIngest s c = .ok (ingestCfo s c w) := by
  rw [sampIngest, h]

theorem sampIngest_of_fault (h : lastTag s.sampIn.tags s.samp.work.rd c 3#3 = some t) (h0 : t.index ≠ 0#64)
    (hp : s.samp.cfg.policy = false) : sampIngest s c = .error (faultAtimeOffset t.index) := by
  rw [sampIngest, ingestTime_of_fault h h0 hp]

/-- The CFO half latches the last CFO tag of the range. -/
theorem ingestCfo_eq (s : State) (c : Nat) (w : SampWork) : ingestCfo s c w = { w with
    cfoValid := match lastTag s.sampIn.tags w.rd c 4#3 with | some _ => true | none => w.cfoValid
    cfoVal := match lastTag s.sampIn.tags w.rd c 4#3 with | some t => t.value.extractLsb' 0 64 | none => w.cfoVal
    cfoSrc := match lastTag s.sampIn.tags w.rd c 4#3 with | some t => t.src | none => w.cfoSrc } := by
  cases h : lastTag s.sampIn.tags w.rd c 4#3 <;> rw [lastTag] at h <;> simp only [ingestCfo, keyCfo, h] <;> rfl

theorem sampIngest_of_accepted (h : timeAccepted s c) : sampIngest s c = .ok (ingested s c) := by
  cases ha : lastTag s.sampIn.tags s.samp.work.rd c 3#3 with
  | none =>
    rw [sampIngest_of_ok (ingestTime_of_none ha), ingestCfo_eq, ingested, ha] <;> rfl
  | some t =>
    by_cases h0 : t.index = 0#64
    · rw [sampIngest_of_ok (ingestTime_of_zero ha h0), ingestCfo_eq, ingested, ha]
      simp only [h0, if_true] <;> rfl
    · rw [sampIngest_of_ok (ingestTime_of_dropped ha h0 (h t ha h0)), ingestCfo_eq, ingested, ha]
      simp only [h0, if_false] <;> rfl

end Ingestion

/-- Settles O13: the last absolute-time tag of the range accepted, dropped or fatal, and the last CFO tag latched. -/
theorem sampTagIngestion : Obligations.SampTagIngestion := fun _ _ =>
  ⟨fun _ h h0 hp => sampIngest_of_fault h h0 hp, sampIngest_of_accepted⟩

/-! ## The operations -/

/-- Settles O10: ingestion and the frame of SA.SCAN. -/
theorem saScanResult : Obligations.SaScanResult := by
  intro l s h
  rw [exec_saScan_of_ok l (sampIngest_of_accepted h), latchSel_samp]
  rfl

/-- Settles O11: SA.SYM and SA.LAST are the same operation but for what they do to the countdown. -/
theorem saRegularSymbol : Obligations.SaRegularSymbol := by
  intro s h havail sym w after
  have regular : ∀ (b : Byte) (upd : SampWork → SampWork), endStep s .samp b (sampRegular s upd) =
      .next { s with
        samp := { s.samp with
          ctl := latched s.samp.ctl b
          work := upd { w with wr := s.samp.work.wr + 1#64, rd := s.samp.work.rd + BitVec.ofNat 64 sym } }
        sampIn := { s.sampIn with items := s.sampIn.items.drop sym }
        sampOut := { s.sampOut with
          items := s.sampOut.items ++
            [{ s := ((s.sampIn.items.drop sym).take s.samp.cfg.fftLen.toNat).map (fun x => x.s), sig := false }]
          space := s.sampOut.space.map (· - 1) } } := by
    intro b upd
    rw [sampRegular_of_ok upd (sampIngest_of_accepted h), endStep_ok, latchSel_samp, sampSymbol_eq s (sampSym s) havail]
    rfl
  exact ⟨(exec_saSym s).trans (regular _ _), (exec_saLast s).trans (regular _ _)⟩

/-- The trigger stands one sample before the end of the consumed samples and the symbol after them. -/
theorem trigger_index (rd : Dword) (k fft : Nat) :
    rd + BitVec.ofNat 64 (k + 1 + fft) - 1#64 = rd + BitVec.ofNat 64 (fft + k) := by
  have hsum : BitVec.ofNat 64 (k + 1 + fft) = BitVec.ofNat 64 (fft + k) + 1#64 := by
    rw [← BitVec.ofNat_add]
    congr 1
    omega
  rw [hsum, ← BitVec.add_assoc, BitVec.add_sub_cancel]

/-- The tags of a trigger at `p` as the statement of SA.ACQ writes them (R207, R208). -/
theorem triggerTags_eq (s : State) (w : SampWork) (p : Dword) : triggerTags s w p =
    (let bt := timeAdd { secs := w.atSecs, frac := w.atFrac }
       (p - s.samp.cfg.symLen.setWidth 64 + 1#64 - w.atIdx).toInt s.samp.cfg.bandwidth.toNat
     (if w.atValid then [({ src := 0#8, key := 5#3, index := w.wr, value := bt.secs ++ bt.frac } : Tag)] else []) ++
       (if w.cfoValid then [({ src := w.cfoSrc, key := 4#3, index := w.wr, value := 0#64 ++ w.cfoVal } : Tag)] else [])) := by
  rw [triggerTags, burstTime, sampSym, BitVec.ofNat_toNat]
  rfl

/-- Settles O12: the scan finds the trigger, and SA.ACQ and SA.REACQ are the same operation. -/
theorem saTriggerSymbol : Obligations.SaTriggerSymbol := by
  intro l s k x havail hk hx htrig hfirst haccept w p n bt after
  have hscan : scanConsumed s = k + 1 := by
    rw [scanConsumed, scanOffset_eq s k x havail hk hx htrig hfirst]
  have hlen : sampFft s + (k + 1) ≤ s.sampIn.items.length := le_trans (Nat.add_le_add_left hk _) havail
  have acquire : ∀ b, endStep s .samp b (sampAcquire s) = .next (after b) := by
    intro b
    rw [sampAcquire_of_ok (w := w) (by rw [hscan]; exact sampIngest_of_accepted haccept), endStep_ok, latchSel_samp, hscan,
      sampSymbol_eq s (k + 1) hlen, trigger_index, triggerTags_eq]
    rfl
  exact ⟨(exec_saAcq l s).trans (acquire _), (exec_saReacq l s).trans (acquire _)⟩

/-- Settles O14: each operation ingests the tags of what it consumes first, and a fault there is its only effect. -/
theorem sampOffsetViolationFaults : Obligations.SampOffsetViolationFaults := by
  intro s l t u hp ht ht0 hu hu0 after
  have sym := sampIngest_of_fault ht ht0 hp
  have scan := sampIngest_of_fault hu hu0 hp
  rw [exec_saScan_of_error l sym, exec_saSym, exec_saLast, exec_saAcq, exec_saReacq, sampRegular_of_error _ sym,
    sampRegular_of_error _ sym, sampAcquire_of_error scan]
  exact ⟨rfl, rfl, rfl, rfl, rfl⟩

end Sys2Proof.Proofs.Sampler

/-! PROOFS. The preamble inserter: PI.DROP (42_preamble_inserter.md R281), and the run from a flagged symbol to its payload
(R282 to R285, R288 to R290). -/

namespace Sys2Proof.Proofs.Inserter

open Sys2Proof Sys2Proof.Machine Sys2Proof.Safety Sys2Proof.Claims Sys2Proof.Laws Sys2Proof.Proofs.Step
  Sys2Proof.Proofs.Encoding Sys2Proof.Proofs.Kept

/-! ## PI.DROP -/

theorem encodedBy_piDrop :
    encodedBy .pins 0x80#8 0xFD#8 (fun i => ∃ pl, i = .piDrop pl)
      (fun s => s.pins.work.state = 0#2 ∧ condBs s = false) :=
  Pins.encodedBy_pins Instr.piDrop (fun st _ bs => st = 0#2 ∧ bs = false) (by decide) (by decide)

/-- Settles O28: the encoding as two finite facts, the effect by the operation's own frame. -/
theorem piDropResult : Obligations.PiDropResult := by
  refine ⟨encodedBy_piDrop, fun pl s => ?_⟩
  rw [exec_piDrop, Pins.latchSel_pins]
  rfl

/-! ## The run over one preamble -/

/-- One step of a run. -/
theorem run_succ {s t : State} (h : step s = .next t) (n : Nat) : Sys2Proof.core.run (n + 1) s = Sys2Proof.core.run n t := by
  have hstep : Sys2Proof.core.step s = .next t := h
  simp only [Host.Core.run, hstep]

/-- PINS has its turn, a symbol to work on and room for one more: the operation of its selector runs. -/
theorem step_of_pinsTurn {s : State} {l : List Action} {x : BurstSymbol} {rest : List BurstSymbol} {i : Instr}
    (ha : s.agenda = .step .pins :: l) (hen : s.pins.ctl.en = true) (hfault : s.pins.ctl.fault = false)
    (hx : s.pinsIn.items = x :: rest) (hroom : s.pinsOut.space ≠ some 0)
    (hi : decodeSel (selByte 2#2 s.pins.work.state (condPl s) (condBs s)) = .ok i) :
    step s = exec i { s with agenda := l } := by
  refine stepRunsDecodedOperation.1 s .pins l i ha ?_ hi
  rw [← Bool.not_eq_false, ← held_iff]
  rintro (h | h | h | h)
  · exact absurd (hen.symm.trans h) nofun
  · exact absurd (hfault.symm.trans h) nofun
  · exact absurd (hx.symm.trans h) nofun
  · exact hroom h

/-- The run of `s` over one preamble, `k` symbols of it sent: `u` is the state then, `x` the pending symbol. -/
structure Sending (s : State) (x : BurstSymbol) (acts : List Action) (k : Nat) (u : State) : Prop where
  agenda : u.agenda = List.replicate (s.pins.cfg.nPre.toNat - k + 1) (.step .pins) ++ acts
  en : u.pins.ctl.en = true
  fault : u.pins.ctl.fault = false
  cfg : u.pins.cfg = s.pins.cfg
  pre : u.pins.pre = s.pins.pre
  state : u.pins.work.state = if k < s.pins.cfg.nPre.toNat then 1#2 else 2#2
  preIdx : k < s.pins.cfg.nPre.toNat → u.pins.work.preIdx.toNat = k
  rd : u.pins.work.rd = s.pins.work.rd
  wr : u.pins.work.wr = s.pins.work.wr + BitVec.ofNat 64 k
  input : u.pinsIn = s.pinsIn
  items : u.pinsOut.items = s.pinsOut.items ++ (s.pins.pre.take k).map fun ys => { s := ys, aux := x.aux }
  tags : u.pinsOut.tags = s.pinsOut.tags ++ if k = 0 then [] else stampTags s
  space : u.pinsOut.space = s.pinsOut.space.map (· - k)

/-- Detection, from IDLE or PAYLOAD, ends in `pinsDetect` (R282, R287). -/
theorem decodeSel_detect {st : BitVec 2} (h : st = 0#2 ∨ st = 3#2) (pl : Bool) :
    ∃ i, decodeSel (selByte 2#2 st pl true) = .ok i ∧
      ∀ s, ∃ b, exec i s = .next (latchSel (pinsDetect s) .pins b) := by
  obtain rfl | rfl := h
  · exact ⟨.piDetect pl, by rw [decodeSel_pins]; rfl, fun s => ⟨_, Pins.exec_piDetect pl s⟩⟩
  · exact ⟨.piRedetect pl, by rw [decodeSel_pins]; rfl, fun s => ⟨_, Pins.exec_piRedetect pl s⟩⟩

/-- A preamble step: before the last symbol `pre_idx` advances, after it FIRST_PAYLOAD is next (R283, R284). -/
theorem decodeSel_preamble (pl bs : Bool) :
    ∃ i, decodeSel (selByte 2#2 1#2 pl bs) = .ok i ∧ ∀ s, ∃ b, exec i s = .next (latchSel
      (pinsPreambleStep s (if pl then s.pins.cfg.nPre.setWidth 8 else s.pins.work.preIdx + 1#8) (if pl then 2#2 else 1#2))
      .pins b) := by
  cases pl
  · exact ⟨.piPre bs, by rw [decodeSel_pins]; rfl, fun s => ⟨_, Pins.exec_piPre bs s⟩⟩
  · exact ⟨.piPrel bs, by rw [decodeSel_pins]; rfl, fun s => ⟨_, Pins.exec_piPrel bs s⟩⟩

/-- The stamped tags depend on the pending symbol's tags and the two positions only. -/
theorem stampTags_congr {s u : State} (hin : u.pinsIn = s.pinsIn) (hrd : u.pins.work.rd = s.pins.work.rd)
    (hwr : u.pins.work.wr = s.pins.work.wr) : stampTags u = stampTags s := by
  rw [stampTags, stampTags, hin, hrd, hwr]

section Run

variable {s u : State} {x : BurstSymbol} {rest : List BurstSymbol} {acts : List Action} {k : Nat}

/-- The first step: the preamble starts, nothing is sent yet. -/
theorem sending_zero (hpos : 0 < s.pins.cfg.nPre.toNat) (hen : s.pins.ctl.en = true) (hfault : s.pins.ctl.fault = false)
    (hst : s.pins.work.state = 0#2 ∨ s.pins.work.state = 3#2) (hx : s.pinsIn.items = x :: rest) (hbs : x.bs = true)
    (hroom : s.pinsOut.space ≠ some 0)
    (ha : s.agenda = List.replicate (s.pins.cfg.nPre.toNat + 2) (.step .pins) ++ acts) :
    ∃ u, step s = .next u ∧ Sending s x acts 0 u := by
  obtain ⟨i, hi, hexec⟩ := decodeSel_detect hst (condPl s)
  have hflag : condBs s = true := (condBs_iff s).mpr ⟨x, rest, hx, hbs⟩
  obtain ⟨b, hb⟩ := hexec { s with agenda := List.replicate (s.pins.cfg.nPre.toNat + 1) (.step .pins) ++ acts }
  refine ⟨_, (step_of_pinsTurn ha hen hfault hx hroom (hflag ▸ hi)).trans hb, ?_⟩
  exact {
    agenda := rfl, en := hen, fault := hfault, cfg := rfl, pre := rfl, state := (if_pos hpos).symm, preIdx := fun _ => rfl
    rd := rfl, wr := (BitVec.add_zero _).symm, input := rfl, items := (List.append_nil _).symm
    tags := (List.append_nil _).symm, space := Option.map_id'.symm }

/-- Room for the whole burst leaves room for the next symbol. -/
theorem Sending.room (h : Sending s x acts k u) (hk : k ≤ s.pins.cfg.nPre.toNat)
    (hroom : ∀ m, s.pinsOut.space = some m → s.pins.cfg.nPre.toNat + 1 ≤ m) : u.pinsOut.space ≠ some 0 := by
  rw [h.space]
  cases hs : s.pinsOut.space with
  | none => nofun
  | some m =>
    have := hroom m hs
    simp only [Option.map_some, ne_eq, Option.some.injEq]
    omega

/-- One preamble symbol more. -/
theorem sending_succ (hinv : PinsCfgOk s.pins.cfg s.pins.pre) (hx : s.pinsIn.items = x :: rest)
    (hroom : ∀ m, s.pinsOut.space = some m → s.pins.cfg.nPre.toNat + 1 ≤ m) (hk : k < s.pins.cfg.nPre.toNat)
    (h : Sending s x acts k u) : ∃ v, step u = .next v ∧ Sending s x acts (k + 1) v := by
  obtain ⟨hlegal, hlen, hsize⟩ := hinv
  obtain ⟨-, -, -, h16, -⟩ := (Legal.validatePins_eq_zero_iff _).mp hlegal
  have hst : u.pins.work.state = 1#2 := h.state.trans (if_pos hk)
  have hidx := h.preIdx hk
  have hux : u.pinsIn.items = x :: rest := by rw [h.input, hx]
  have hpl : condPl u = decide (k + 1 = s.pins.cfg.nPre.toNat) := by rw [condPl, hidx, h.cfg]
  have hpre : u.pins.pre[u.pins.work.preIdx.toNat]? = some s.pins.pre[k] := by
    rw [h.pre, hidx, List.getElem?_eq_getElem]
  have hfirst : u.pins.work.preIdx = 0#8 ↔ k = 0 := by
    rw [← BitVec.toNat_inj, hidx]
    rfl
  have hnext : (u.pins.work.preIdx + 1#8).toNat = k + 1 := by
    rw [BitVec.toNat_add, hidx, BitVec.toNat_ofNat]
    omega
  obtain ⟨i, hi, hexec⟩ := decodeSel_preamble (condPl u) (condBs u)
  obtain ⟨b, hb⟩ := hexec { u with agenda := List.replicate (s.pins.cfg.nPre.toNat - k) (.step .pins) ++ acts }
  rw [Pins.pinsPreambleStep_eq
    (s := { u with agenda := List.replicate (s.pins.cfg.nPre.toNat - k) (.step .pins) ++ acts }) hux hpre
    ((hsize _ (List.getElem_mem _)).trans (by rw [← h.cfg])), Pins.latchSel_pins] at hb
  refine ⟨_, (step_of_pinsTurn h.agenda h.en h.fault hux (h.room hk.le hroom) (hst ▸ hi)).trans hb, ?_⟩
  have hrest : s.pins.cfg.nPre.toNat - k = s.pins.cfg.nPre.toNat - (k + 1) + 1 := by omega
  exact {
    agenda := by rw [← hrest]
    en := h.en, fault := h.fault, cfg := h.cfg, pre := h.pre
    state := by
      simp only [hpl, decide_eq_true_eq]
      by_cases hlast : k + 1 = s.pins.cfg.nPre.toNat
      · rw [if_pos hlast, if_neg (by omega)]
      · rw [if_neg hlast, if_pos (by omega)]
    preIdx := fun hlt => by
      simp only [hpl, decide_eq_true_eq, if_neg hlt.ne, hnext]
    rd := h.rd
    wr := by
      simp only [h.wr, BitVec.ofNat_add, BitVec.add_assoc]
    input := h.input
    items := by
      simp only [h.items, List.append_assoc, List.take_add_one, List.getElem?_eq_getElem (hlen ▸ hk), Option.toList_some,
        List.map_append, List.map_cons, List.map_nil]
    tags := by
      simp only [h.tags, hfirst, Nat.add_eq_zero_iff, one_ne_zero, and_false, if_false]
      by_cases h0 : k = 0
      · have hwr : u.pins.work.wr = s.pins.work.wr := by rw [h.wr, h0, BitVec.add_zero]
        simp only [h0, if_true, List.append_nil]
        exact congrArg _ (stampTags_congr h.input h.rd hwr)
      · simp only [h0, if_false, List.append_nil]
    space := by
      simp only [h.space, Option.map_map, Function.comp_def, Nat.sub_sub] }

/-- All preamble symbols are sent, one step each. -/
theorem run_sending (hinv : PinsCfgOk s.pins.cfg s.pins.pre) (hx : s.pinsIn.items = x :: rest)
    (hroom : ∀ m, s.pinsOut.space = some m → s.pins.cfg.nPre.toNat + 1 ≤ m) {j : Nat} : ∀ {k : Nat} {u : State},
    k + j = s.pins.cfg.nPre.toNat → Sending s x acts k u →
    ∃ v, Sending s x acts (k + j) v ∧ ∀ n, Sys2Proof.core.run (j + n) u = Sys2Proof.core.run n v := by
  induction j with
  | zero => exact fun _ h => ⟨_, h, fun n => by rw [Nat.zero_add]⟩
  | succ j ih =>
    intro k u hsum h
    obtain ⟨v, hstep, hv⟩ := sending_succ hinv hx hroom (by omega) h
    obtain ⟨w, hw, hrun⟩ := ih (k := k + 1) (by omega) hv
    refine ⟨w, by rwa [Nat.add_right_comm] at hw, fun n => ?_⟩
    rw [Nat.add_right_comm, run_succ hstep, hrun]

end Run

/-- Settles O33: detection, one step for each preamble symbol, and the copy of the pending symbol. -/
theorem preambleThenPayload : Obligations.PreambleThenPayload := by
  intro s x rest acts hinv hen hfault hst hx hbs hlen hroom ha
  have hcfg : PinsCfgOk s.pins.cfg s.pins.pre := ((pinsInv_iff s).mp hinv).2.1 hen
  obtain ⟨-, -, hpos, -⟩ := (Legal.validatePins_eq_zero_iff _).mp hcfg.1
  have hroom0 : s.pinsOut.space ≠ some 0 := fun h => absurd (hroom 0 h) (by omega)
  obtain ⟨u, hdetect, hu⟩ := sending_zero hpos hen hfault hst hx hbs hroom0 ha
  obtain ⟨v, hv, hrun⟩ := run_sending hcfg hx hroom (Nat.zero_add _) hu
  rw [Nat.zero_add] at hv
  have hvst : v.pins.work.state = 2#2 := hv.state.trans (if_neg (lt_irrefl _))
  have hvx : v.pinsIn.items = x :: rest := by rw [hv.input, hx]
  have hlast : v.agenda = .step .pins :: acts := by
    rw [hv.agenda, Nat.sub_self]
    rfl
  have hcopy := (step_of_pinsTurn (i := .piFirst (condPl v) (condBs v)) hlast hv.en hv.fault hvx (hv.room le_rfl hroom)
    (by rw [hvst, decodeSel_pins]; rfl)).trans (Pins.exec_piFirst _ _ _)
  rw [Pins.pinsCopy_eq (s := { v with agenda := acts }) hvx (hlen.trans (by rw [← hv.cfg])), Pins.latchSel_pins] at hcopy
  refine ⟨_, (run_succ hdetect _).trans ((hrun 1).trans (run_succ hcopy 0)), ?_⟩
  refine ⟨rfl, rfl, congrArg (· + 1#64) hv.rd, ?_, ?_, ?_, ?_, ?_⟩
  · simp only [hv.wr, BitVec.ofNat_add, BitVec.add_assoc]
  · simp only [hv.input]
  · simp only [hv.items, ← hcfg.2.1, List.take_length]
  · simp only [hv.tags, Nat.ne_of_gt hpos, if_false]
  · simp only [hv.space, Option.map_map, Function.comp_def, Nat.sub_sub]

end Sys2Proof.Proofs.Inserter

/-! PROOFS. The register map on the bus (10_state.md R54 to R72, R80; 20_memory.md R122, R123): where every register stands, what a
read of it finds, and that every other address reads 0. -/

namespace Sys2Proof.Proofs.Registers

open Sys2Proof Sys2Proof.Machine Sys2Proof.Safety Sys2Proof.Claims Sys2Proof.Laws Sys2Proof.Proofs.Step
  Sys2Proof.Proofs.Kept Sys2Proof.Proofs.Apart

/-! ## Bit layouts of the register words (R55, R56, R62) -/

theorem toNat_append_eq {m n : Nat} (x : BitVec m) (y : BitVec n) : (x ++ y).toNat = 2 ^ n * x.toNat + y.toNat := by
  rw [BitVec.toNat_append, Nat.shiftLeft_eq, Nat.mul_comm, ← Nat.two_pow_add_eq_or_of_lt y.isLt]

theorem boolWord_eq (b : Bool) : boolWord b = BitVec.ofNat 32 b.toNat := by cases b <;> rfl

theorem flagPair_eq : ∀ a b : Bool, (BitVec.ofBool b ++ BitVec.ofBool a).setWidth 32 = BitVec.ofNat 32 (a.toNat + 2 * b.toNat) := by
  decide

theorem statusBits_eq : ∀ (ign fault err run : Bool) (st : BitVec 2),
    (BitVec.ofBool ign ++ BitVec.ofBool fault ++ BitVec.ofBool err ++ BitVec.ofBool run ++ 0#2 ++ st).setWidth 32 =
      BitVec.ofNat 32 (st.toNat + 16 * run.toNat + 32 * err.toNat + 64 * fault.toNat + 128 * ign.toNat) := by
  decide

theorem statusWord_eq (c : Ctl) (st : BitVec 2) : statusWord c st = BitVec.ofNat 32
    (st.toNat + 16 * (c.en && !c.fault).toNat + 32 * c.cfgErr.toNat + 64 * c.fault.toNat + 128 * c.cfgWrIgn.toNat) :=
  statusBits_eq _ _ _ _ _

theorem lastSelWord_eq (c : Ctl) : lastSelWord c = BitVec.ofNat 32 (c.lastSel.toNat + 2 ^ 31 * c.lastValid.toNat) := by
  have hbit : (BitVec.ofBool c.lastValid).toNat = c.lastValid.toNat := BitVec.toNat_ofBool _
  have hlt := (lastSelWord c).isLt
  have hword : (lastSelWord c).toNat = c.lastSel.toNat + 2 ^ 31 * c.lastValid.toNat := by
    rw [lastSelWord, toNat_append_eq, toNat_append_eq, hbit]
    simp only [BitVec.toNat_ofNat]
    omega
  rw [← hword, BitVec.ofNat_toNat, BitVec.setWidth_eq]

theorem pktStatWord_eq (w : FsyncWork) : pktStatWord w = BitVec.ofNat 32
    (w.pktLen.toNat + 2 ^ 12 * w.whit.toNat + 2 ^ 16 * w.pktCnt.toNat + 2 ^ 28 * w.hdrCnt.toNat) := by
  have hword : (pktStatWord w).toNat =
      w.pktLen.toNat + 2 ^ 12 * w.whit.toNat + 2 ^ 16 * w.pktCnt.toNat + 2 ^ 28 * w.hdrCnt.toNat := by
    rw [pktStatWord, toNat_append_eq, toNat_append_eq, toNat_append_eq, toNat_append_eq]
    simp only [BitVec.toNat_ofNat]
    omega
  rw [← hword, BitVec.ofNat_toNat, BitVec.setWidth_eq]

theorem irqBits_eq : ∀ a b c d : Bool,
    (BitVec.ofBool d ++ BitVec.ofBool c ++ BitVec.ofBool b ++ BitVec.ofBool a).setWidth 32 =
      BitVec.ofNat 32 (a.toNat + 2 * b.toNat + 4 * c.toNat + 8 * d.toNat) := by
  decide

theorem irqStatus_eq (s : State) : (irqStatus s).setWidth 32 = BitVec.ofNat 32
    ((s.samp.ctl.fault || s.samp.ctl.cfgErr).toNat + 2 * (s.fsync.ctl.fault || s.fsync.ctl.cfgErr).toNat +
      4 * (s.pins.ctl.fault || s.pins.ctl.cfgErr).toNat + 8 * (s.cpfx.ctl.fault || s.cpfx.ctl.cfgErr).toNat) :=
  irqBits_eq _ _ _ _

/-! ## Where the registers stand -/

/-- The addresses of the register file. -/
def registerAddrs : List BusAddr := (registerFile State.reset).map Prod.fst

theorem map_fst_registerFile (s : State) : (registerFile s).map Prod.fst = registerAddrs := rfl

/-- The read-only registers of a bank, as offsets (R56, R60, R62, R64). -/
def bankOffsets : Engine → List Nat
  | .samp => [0x00, 0x04, 0x08, 0x0C, 0x10, 0x14, 0x18, 0x1C, 0x20, 0x24, 0x60, 0x64, 0x68, 0x6C, 0x70]
  | .fsync => [0x00, 0x04, 0x08, 0x0C, 0x10, 0x14, 0x18, 0x1C, 0x20, 0x24, 0x60, 0x64, 0x68, 0x6C, 0x70, 0x74, 0x78, 0x7C, 0x80,
      0x84]
  | .pins => [0x00, 0x04, 0x08, 0x0C, 0x10, 0x14, 0x18, 0x1C, 0x20, 0x24, 0x60]
  | .cpfx => [0x00, 0x04, 0x08, 0x0C, 0x10, 0x14, 0x18, 0x1C, 0x20, 0x24]

theorem globals_mem_registerAddrs : 0x00000#20 ∈ registerAddrs ∧ 0x00004#20 ∈ registerAddrs ∧
    0x00008#20 ∈ registerAddrs ∧ 0x0000C#20 ∈ registerAddrs ∧ irqEnableAddr ∈ registerAddrs := by
  decide

theorem bankOffsets_mem_registerAddrs :
    ∀ e, ∀ off ∈ bankOffsets e, BitVec.ofNat 20 ((baseOf e).toNat + off) ∈ registerAddrs := by
  intro e
  cases e <;> decide

/-- An offset that is not listed reads 0. -/
theorem bankWord_of_not_mem (s : State) {e : Engine} {off : Nat} (h : off ∉ bankOffsets e) : bankWord s e off = 0#32 := by
  cases e <;> simp only [bankOffsets, List.mem_cons, List.not_mem_nil, or_false, not_or] at h <;> simp [bankWord, h]

theorem bankAt_eq_some_iff (a : BusAddr) (e : Engine) :
    bankAt a = some e ↔ (baseOf e).toNat ≤ a.toNat ∧ a.toNat < (baseOf e).toNat + 0x100 := by
  unfold bankAt
  cases e <;> simp only [baseOf, BitVec.toNat_ofNat] <;> split_ifs <;> simp <;> omega

theorem bankAt_eq_none_iff (a : BusAddr) : bankAt a = none ↔ a.toNat < 0x100 ∨ 0x500 ≤ a.toNat := by
  simp only [bankAt]
  split_ifs <;> simp <;> omega

/-! ### Configuration registers -/

theorem mem_of_cfgRegAt {a : BusAddr} {c : CfgReg} (h : cfgRegAt a = some c) : (a, c) ∈ cfgRegTable := by
  obtain ⟨l, l', htab, -⟩ := List.lookup_eq_some_iff.mp h
  rw [htab]
  simp

/-- Every configuration register stands aligned in the bank of its owner, at an address of the register file and nowhere else. -/
theorem cfgRegTable_spec : ∀ p ∈ cfgRegTable, aligned p.1 = true ∧ p.1 ∈ registerAddrs ∧
    bankAt p.1 = some p.2.owner ∧ ∀ q ∈ cfgRegTable, q.2 = p.2 → q.1 = p.1 := by
  decide

theorem cfgRegAt_injective {a b : BusAddr} {c : CfgReg} (ha : cfgRegAt a = some c) (hb : cfgRegAt b = some c) : a = b :=
  (cfgRegTable_spec _ (mem_of_cfgRegAt hb)).2.2.2 _ (mem_of_cfgRegAt ha) rfl

/-- Below the banks there is no configuration register and no table. -/
theorem cfgRegAt_eq_none_of_bankAt {a : BusAddr} (h : bankAt a = none) : cfgRegAt a = none := by
  cases hc : cfgRegAt a with
  | none => rfl
  | some c => exact absurd ((cfgRegTable_spec _ (mem_of_cfgRegAt hc)).2.2.1.symm.trans h) nofun

theorem tableAt_eq_none_of_lt {a : BusAddr} (h : a.toNat < 0x1000) : tableAt a = none := by
  cases hk : tableAt a with
  | none => rfl
  | some k =>
    rw [tableAt_eq_some_iff] at hk
    cases k <;> simp only [window] at hk <;> omega

/-! ## What a read finds (R344) -/

section Read

variable {s : State} {a : BusAddr}

theorem regRead_of_not_aligned (ha : aligned a = false) : regRead s a = some 0#32 := by
  rw [regRead, if_pos ha]

/-- Above the global block none of its five registers is meant. -/
theorem not_global (h : 0x100 ≤ a.toNat) :
    a ≠ 0x00000#20 ∧ a ≠ 0x00004#20 ∧ a ≠ 0x00008#20 ∧ a ≠ 0x0000C#20 ∧ a ≠ irqEnableAddr := by
  refine ⟨?_, ?_, ?_, ?_, ?_⟩ <;> rintro rfl <;> exact absurd h (by decide)

theorem regRead_of_cfgReg {c : CfgReg} (hc : cfgRegAt a = some c) : regRead s a = some (getCfgReg s c) := by
  obtain ⟨ha, -, hbank, -⟩ := cfgRegTable_spec _ (mem_of_cfgRegAt hc)
  have hge : 0x100 ≤ a.toNat := by
    by_contra hlt
    exact absurd (hbank.symm.trans ((bankAt_eq_none_iff a).mpr (by omega))) nofun
  obtain ⟨h0, h4, h8, hc', h10⟩ := not_global hge
  simp only [regRead, ha, h0, h4, h8, hc', h10, hc, Bool.true_eq_false, if_false]

theorem regRead_of_bank {e : Engine} (ha : aligned a = true) (hc : cfgRegAt a = none) (hb : bankAt a = some e) :
    regRead s a = some (bankWord s e (a.toNat - (baseOf e).toNat)) := by
  have hge : 0x100 ≤ a.toNat := by
    by_contra hlt
    exact absurd (hb.symm.trans ((bankAt_eq_none_iff a).mpr (by omega))) nofun
  obtain ⟨h0, h4, h8, hc', h10⟩ := not_global hge
  simp only [regRead, ha, h0, h4, h8, hc', h10, hc, hb, Bool.true_eq_false, if_false]

theorem regRead_of_table {k : Table} (ha : aligned a = true) (hk : tableAt a = some k) :
    regRead s a = Memory.readWord s.mem a.toNat := by
  have hge : 0x1000 ≤ a.toNat := by
    by_contra hlt
    exact absurd (hk.symm.trans (tableAt_eq_none_of_lt (by omega))) nofun
  obtain ⟨h0, h4, h8, hc', h10⟩ := not_global (le_trans (by decide) hge)
  have hb : bankAt a = none := (bankAt_eq_none_iff a).mpr (by omega)
  have hc := cfgRegAt_eq_none_of_bankAt hb
  simp only [regRead, ha, h0, h4, h8, hc', h10, hc, hb, hk, Bool.true_eq_false, if_false]

theorem tableAt_eq_none_of_tap (hlo : 0x8000 ≤ a.toNat) (hhi : a.toNat < 0x10000) : tableAt a = none := by
  cases hk : tableAt a with
  | none => rfl
  | some k =>
    rw [tableAt_eq_some_iff] at hk
    cases k <;> simp only [window] at hk <;> omega

theorem regRead_of_tap (ha : aligned a = true) (hlo : 0x8000 ≤ a.toNat) (hhi : a.toNat < 0x10000) :
    regRead s a = tapWindow s.fsync (a.toNat - 0x8000) := by
  obtain ⟨h0, h4, h8, hc', h10⟩ := not_global (le_trans (by decide) hlo)
  have hb : bankAt a = none := (bankAt_eq_none_iff a).mpr (by omega)
  have hc := cfgRegAt_eq_none_of_bankAt hb
  have hk := tableAt_eq_none_of_tap hlo hhi
  simp only [regRead, ha, h0, h4, h8, hc', h10, hc, hb, hk, Bool.true_eq_false, if_false]
  exact if_pos ⟨hlo, hhi⟩

/-- Every other address of the register blocks, and every address between the windows, reads 0 (20_memory.md R123). -/
theorem regRead_of_hole (hk : tableAt a = none) (htap : a.toNat < 0x8000 ∨ 0x10000 ≤ a.toNat) (hreg : a ∉ registerAddrs) :
    regRead s a = some 0#32 := by
  cases ha : aligned a with
  | false => exact regRead_of_not_aligned ha
  | true =>
    have hc : cfgRegAt a = none := by
      cases hc : cfgRegAt a with
      | none => rfl
      | some c => exact absurd (cfgRegTable_spec _ (mem_of_cfgRegAt hc)).2.1 hreg
    cases hb : bankAt a with
    | some e =>
      rw [regRead_of_bank ha hc hb, bankWord_of_not_mem]
      intro hoff
      have hmem := bankOffsets_mem_registerAddrs e _ hoff
      obtain ⟨hle, -⟩ := (bankAt_eq_some_iff a e).mp hb
      rw [Nat.add_sub_cancel' hle, BitVec.ofNat_toNat, BitVec.setWidth_eq] at hmem
      exact hreg hmem
    | none =>
      obtain ⟨m0, m4, m8, mc, m10⟩ := globals_mem_registerAddrs
      have h0 : a ≠ 0x00000#20 := fun h => hreg (h ▸ m0)
      have h4 : a ≠ 0x00004#20 := fun h => hreg (h ▸ m4)
      have h8 : a ≠ 0x00008#20 := fun h => hreg (h ▸ m8)
      have hc' : a ≠ 0x0000C#20 := fun h => hreg (h ▸ mc)
      have h10 : a ≠ irqEnableAddr := fun h => hreg (h ▸ m10)
      simp only [regRead, ha, h0, h4, h8, hc', h10, hc, hb, hk, Bool.true_eq_false, if_false]
      exact if_neg (by omega)

end Read

/-- The register file is what the bus finds at its addresses. -/
theorem regRead_registerFile (s : State) : ∀ p ∈ registerFile s, regRead s p.1 = some p.2 := by
  simp only [registerFile, commonRegs, List.forall_mem_append, List.forall_mem_cons, List.not_mem_nil, false_implies,
    implies_true, and_true, ← boolWord_eq, ← statusWord_eq, ← lastSelWord_eq, ← pktStatWord_eq, ← irqStatus_eq, ← flagPair_eq]
  and_intros <;> rfl

/-! ## SYS.READ (R344) -/

section Read

variable {s : State} {a : BusAddr}

theorem exec_sysRead_of_some {v : Word} (h : regRead s a = some v) : exec (.sysRead a) s = .next { s with rdata := v } := by
  change execSysRead a s = _
  simp only [execSysRead, h]

theorem exec_sysRead_of_none (h : regRead s a = none) : exec (.sysRead a) s = .next { s with
    rdata := keepAt a (Config.anyWord .busRead [s.draws, a.toNat]), draws := s.draws + 1 } := by
  change execSysRead a s = _
  simp only [execSysRead, h]

/-- The two words of tap `i` (R70). -/
theorem regRead_tap {i : Nat} (hi : i < 4096) {j : Nat} (hj : j = 0 ∨ j = 4) :
    regRead s (BitVec.ofNat 20 (0x8000 + j + 8 * i)) = tapWindow s.fsync (8 * i + j) := by
  have hnat : (BitVec.ofNat 20 (0x8000 + j + 8 * i)).toNat = 0x8000 + j + 8 * i := by
    rw [BitVec.toNat_ofNat]
    omega
  have hoff : 0x8000 + j + 8 * i - 0x8000 = 8 * i + j := by omega
  rw [regRead_of_tap (by rw [aligned_iff, hnat]; omega) (by omega) (by omega), hnat, hoff]

theorem tapWindow_of_le {f : Fsync} {i : Nat} (h : f.map.length ≤ i) (j : Nat) : tapWindow f (8 * i + j) = some 0#32 :=
  if_pos (le_trans h (by omega))

theorem tapWindow_of_lt {f : Fsync} {i j : Nat} (hj : j = 0 ∨ j = 4) (h : i < f.map.length) :
    tapWindow f (8 * i + j) = f.work.taps[i]?.map (if j = 0 then Cplx.re else Cplx.im) := by
  have hdiv : (8 * i + j) / 8 = i := by omega
  have hmod : (8 * i + j) % 8 = j := by omega
  simp only [tapWindow, nAct, hdiv, hmod, not_le.mpr h, if_false]
  obtain rfl | rfl := hj <;> cases f.work.taps[i]? <;> rfl

end Read

/-- Settles O48: the register file, the table windows, the tap window and what is in none of them. -/
theorem readHasNoSideEffect : Obligations.ReadHasNoSideEffect := by
  refine ⟨fun a s => ⟨fun v h => exec_sysRead_of_some h, fun h => ⟨_, exec_sysRead_of_none h⟩⟩, fun s =>
    ⟨regRead_registerFile s, fun a k ha hk => regRead_of_table ha hk, fun i hi => ⟨fun hle => ?_, fun hlt => ?_⟩, ?_⟩⟩
  · exact ⟨(regRead_tap hi (.inl rfl)).trans (tapWindow_of_le hle 0),
      (regRead_tap hi (.inr rfl)).trans (tapWindow_of_le hle 4)⟩
  · exact ⟨(regRead_tap hi (.inl rfl)).trans (tapWindow_of_lt (.inl rfl) hlt),
      (regRead_tap hi (.inr rfl)).trans (tapWindow_of_lt (.inr rfl) hlt)⟩
  · intro a hk htap hreg
    refine regRead_of_hole hk htap ?_
    rw [← map_fst_registerFile s, List.mem_map]
    rintro ⟨p, hp, heq⟩
    exact hreg p hp heq

/-! ## Reset (R80) -/

/-- At reset every register but the three constants holds 0. -/
theorem registerFile_reset : ∀ p ∈ registerFile State.reset, 0x0000C ≤ p.1.toNat → p.2 = 0#32 := by
  have hall : (registerFile State.reset).all (fun p => decide (0x0000C ≤ p.1.toNat → p.2 = 0#32)) = true := by decide
  simpa only [List.all_eq_true, decide_eq_true_eq] using hall

theorem regRead_reset {a : BusAddr} (hlo : 0x0000C ≤ a.toNat) (hhi : a.toNat < 0x500) :
    regRead State.reset a = some 0#32 := by
  by_cases hreg : a ∈ registerAddrs
  · obtain ⟨p, hp, rfl⟩ := List.mem_map.mp hreg
    rw [regRead_registerFile _ p hp, registerFile_reset p hp hlo]
  · exact regRead_of_hole (tableAt_eq_none_of_lt (by omega)) (.inl (by omega)) hreg

/-- Settles O49: the register file at reset, and the holes between its entries. -/
theorem resetValues : Obligations.ResetValues :=
  ⟨rfl, rfl, rfl, fun _ => regRead_reset, fun e => by cases e <;> rfl, Exceptions.irqLine_of_irqEnable_eq_zero rfl⟩

/-- Settles O50: the invariants of the engines at their reset values; the tables are empty and no engine is enabled. -/
theorem resetMeetsInvariants : Obligations.ResetMeetsInvariants :=
  ⟨⟨ctlOk_reset, nofun, sampWorkOk_reset _⟩, ⟨ctlOk_reset, nofun, Collecting.fsyncWorkOk_reset _⟩,
    ⟨ctlOk_reset, nofun, pinsWorkOk_reset _ _⟩, ⟨ctlOk_reset, nofun, rfl⟩, ⟨rfl, fun _ h => absurd h List.not_mem_nil⟩,
    ⟨nofun, nofun, nofun, nofun⟩, .inl rfl, .inl rfl, rfl, rfl⟩

end Sys2Proof.Proofs.Registers

/-! PROOFS. The system operations and the environment: SYS.SRST, SYS.COMMIT, SYS.STOP, SYS.CFGWR (45_system_ops.md R331 to R337), the
relays of XFORM (20_memory.md R112) and the reset input (70_reset_and_hazards.md R390). -/

namespace Sys2Proof.Proofs.System

open Sys2Proof Sys2Proof.Machine Sys2Proof.Claims Sys2Proof.Laws Sys2Proof.Proofs.Step Sys2Proof.Proofs.Legal
  Sys2Proof.Proofs.Apart Sys2Proof.Proofs.Registers

/-! ## SYS.SRST and SYS.STOP (R335, R336) -/

/-- Settles O41. -/
theorem srstResult : Obligations.SrstResult := by
  intro e d s
  refine ⟨softReset s e, rfl, ?_, ?_, ctlOf_setCtl_self _ e _, sameWork_softReset s e⟩
  · cases e <;> rfl
  · cases e with
    | samp => exact ⟨rfl, rfl⟩
    | fsync => exact ⟨rfl, rfl, rfl, rfl, rfl⟩
    | pins => exact ⟨rfl, rfl, rfl⟩
    | cpfx => exact ⟨rfl, rfl⟩

/-- An engine that is not enabled by `EN` has no enabled step (20_memory.md R103). -/
theorem enabled_of_off {s : State} {e : Engine} (h : (s.ctlOf e).en = false) : enabled s e = false := by
  simp [enabled, Ctl.running, h]

/-- Settles O44. -/
theorem stopResult : Obligations.StopResult := by
  intro e d s
  have hctl := ctlOf_setCtl_self s e { s.ctlOf e with en := false }
  exact ⟨_, rfl, SystemOps.onlyEngine_setCtl s e _, SystemOps.sameRegs_setCtl s e _, SystemOps.sameWork_setCtl s e _, hctl,
    enabled_of_off (by rw [hctl])⟩

/-! ## SYS.COMMIT (R331, R342, R343) -/

theorem exec_sysCommit_of_on {s : State} {e : Engine} (d : Word) (h : (s.ctlOf e).en = true) :
    exec (.sysCommit e d) s = .next s :=
  congrArg Host.Outcome.next (if_pos h)

theorem exec_sysCommit_of_off {s : State} {e : Engine} (d : Word) (h : (s.ctlOf e).en = false) :
    exec (.sysCommit e d) s = .next (commit s e) :=
  congrArg Host.Outcome.next (if_neg (by rw [h]; exact Bool.false_ne_true))

/-- The map lists the set mask bits as numbers (R342). -/
theorem map_toNat_mapOf (s : State) {fft : Nat} (h : fft ≤ 4096) :
    (mapOf s fft).map BitVec.toNat = (List.range fft).filter (maskSet s) := by
  rw [mapOf, List.map_map, maskSet_eq_maskBit]
  refine (List.map_congr_left fun i hi => ?_).trans (List.map_id _)
  have hlt := List.mem_range.mp (List.mem_filter.mp hi).1
  simp only [Function.comp_apply, BitVec.toNat_ofNat, id_eq]
  omega

/-- `CP_LEN` of a legal configuration (10_state.md R60). -/
theorem sampCpLen_add {p : Samp} (h : validateSamp p.cfg = 0#8) :
    (sampCpLen p).toNat + p.cfg.fftLen.toNat = p.cfg.symLen.toNat := by
  obtain ⟨-, -, hle, -⟩ := (validateSamp_eq_zero_iff _).mp h
  rw [sampCpLen, BitVec.toNat_sub_of_le hle, Nat.sub_add_cancel hle]

/-- `CP` of a legal configuration (10_state.md R66). -/
theorem cpfxCp_add {s : State} (h : validateCpfx s.cpfx.cfg = 0#8) :
    cpfxCp s + s.cpfx.cfg.inSize.toNat = s.cpfx.cfg.outSize.toNat := by
  obtain ⟨-, -, hle, -⟩ := (validateCpfx_eq_zero_iff _).mp h
  rw [cpfxCp, Nat.sub_add_cancel hle]

/-- What is own to an engine leaves every other engine with its ports alone. -/
theorem others_of_ownOnly {e e' : Engine} {s t : State} (h : ownOnly e s t) (hne : e' ≠ e) :
    t.ctlOf e' = s.ctlOf e' ∧ sameRegs e' s t ∧ sameWork e' s t ∧ samePorts e' s t := by
  have record := (quiet_of_ownOnly h hne.symm).1
  refine ⟨ctlOf_of_sameRecord record, sameRegs_of_sameRecord record, sameWork_of_sameRecord record, ?_⟩
  obtain ⟨hsamp, hfsync, hpins, hcpfx⟩ := ports_of_ownOnly h
  cases e' with
  | samp => exact hsamp hne.symm
  | fsync => exact hfsync hne.symm
  | pins => exact hpins hne.symm
  | cpfx => exact hcpfx hne.symm

/-- Settles O42: refused, accepted and ignored; the derived values from the validation. -/
theorem commitResult : Obligations.CommitResult := by
  intro e d s
  refine ⟨fun a w h => tableWord_of_written h, exec_sysCommit_of_on d, fun off illegal => ?_, fun off legal => ?_⟩
  · rw [exec_sysCommit_of_off d off, commit_of_illegal illegal]
    rfl
  · have own := ownOnly_commitAccepted s e
    obtain ⟨mem, irq, agenda, rdata, -⟩ := outside_of_ownOnly own
    have queue : (commitAccepted s e).msgq = s.msgq ∧ (commitAccepted s e).qroom = s.qroom := by cases e <;> exact ⟨rfl, rfl⟩
    refine ⟨_, (exec_sysCommit_of_off d off).trans (congrArg _ (commit_of_legal legal)), ctlOf_commitAccepted s e _,
      sameWork_commitAccepted s e _, mem, queue.1, queue.2, irq, agenda, rdata, rfl, fun e' hne => ?_, ?_⟩
    · have others := others_of_ownOnly own hne
      cases e' <;> exact others
    · have frozen := frozen_commitAccepted s e (s.draws + 1)
      cases e with
      | samp =>
        obtain ⟨reg, cfg, hin, hout⟩ := frozen
        exact ⟨reg, cfg, sampCpLen_add (p := (commitAccepted s .samp).samp) legal, hin, hout⟩
      | fsync =>
        obtain ⟨-, hfft, -, -, ⟨n, h1, h8, hn, -⟩, -⟩ := (validateFsync_eq_zero_iff s s.fsync.reg).mp legal
        obtain ⟨reg, cfg, map, refs, vals, hin⟩ := frozen
        refine ⟨reg, cfg, (congrArg _ map).trans (map_toNat_mapOf s hfft),
          two_pow_log2_of_legal ((legalNpoints_iff _).mpr ⟨n, h1, h8, hn⟩), refs, ?_, hin⟩
        exact vals.trans (List.map_congr_left fun k _ => tableVal_eq s k)
      | pins => exact frozen
      | cpfx =>
        obtain ⟨reg, cfg, hin, hout⟩ := frozen
        exact ⟨reg, cfg, cpfxCp_add (s := commitAccepted s .cpfx) legal, hin, hout⟩

/-! ## SYS.CFGWR (R337) -/

section Cfgwr

variable {s : State} {a : BusAddr}

theorem exec_sysCfgwr_of_reg {c : CfgReg} (d : Word) (h : cfgRegAt a = some c) :
    exec (.sysCfgwr a d) s = .next (guardedWrite s c.owner (setCfgReg s c d)) := by
  change execSysCfgwr a d s = _
  simp only [execSysCfgwr, h]

theorem exec_sysCfgwr_of_table {k : Table} (d : Word) (hc : cfgRegAt a = none) (h : tableAt a = some k) :
    exec (.sysCfgwr a d) s = .next
      (guardedWrite s k.owner { s with mem := Memory.writeWord s.mem a.toNat (k.keep d) }) := by
  change execSysCfgwr a d s = _
  simp only [execSysCfgwr, hc, h]

theorem guardedWrite_of_on {e : Engine} (t : State) (h : (s.ctlOf e).en = true) :
    guardedWrite s e t = s.setCtl e { s.ctlOf e with cfgWrIgn := true } :=
  if_pos h

theorem guardedWrite_of_off {e : Engine} (t : State) (h : (s.ctlOf e).en = false) : guardedWrite s e t = t :=
  if_neg (by rw [h]; exact Bool.false_ne_true)

end Cfgwr

/-- Settles O46: the guard of an enabled engine, and the one word without an owner. -/
theorem cfgWriteWhileEnabled : Obligations.CfgWriteWhileEnabled := by
  refine ⟨?_, fun d s => rfl⟩
  rintro a d s e (⟨c, hc, rfl⟩ | ⟨hc, k, hk, rfl⟩) on
  · rw [exec_sysCfgwr_of_reg d hc, guardedWrite_of_on _ on]
  · rw [exec_sysCfgwr_of_table d hc hk, guardedWrite_of_on _ on]

/-! ### A configuration register written and read -/

/-- The bits a configuration register keeps of a written word: bit 0 of a policy, all of any other (R60, R62, R340). -/
def keptBits (c : CfgReg) (d : Word) : Word := if c = .sampPolicy ∨ c = .fsyncPolicy then d &&& 1#32 else d

theorem boolWord_bit (d : Word) : boolWord (d.getLsbD 0) = d &&& 1#32 := by
  rw [boolWord_eq, ← BitVec.toNat_inj, BitVec.toNat_ofNat, BitVec.toNat_and, BitVec.getLsbD, Nat.testBit_zero]
  obtain h | h := Nat.mod_two_eq_zero_or_one d.toNat <;> simp [h]

theorem getCfgReg_setCfgReg_self (s : State) (c : CfgReg) (d : Word) : getCfgReg (setCfgReg s c d) c = keptBits c d := by
  cases c
  case sampPolicy | fsyncPolicy => exact boolWord_bit d
  all_goals rfl

theorem getCfgReg_setCfgReg_ne (s : State) (d : Word) {c c' : CfgReg} (h : c' ≠ c) :
    getCfgReg (setCfgReg s c d) c' = getCfgReg s c' := by
  revert h
  cases c <;> cases c' <;> first | exact fun _ => rfl | exact fun h => absurd rfl h

/-- The policy registers by their addresses. -/
theorem policy_iff : ∀ p ∈ cfgRegTable, (p.2 = .sampPolicy ∨ p.2 = .fsyncPolicy) ↔ (p.1 = 0x0013C#20 ∨ p.1 = 0x0023C#20) := by
  decide

theorem irqStatus_setCfgReg (s : State) (c : CfgReg) (d : Word) : irqStatus (setCfgReg s c d) = irqStatus s := by
  unfold setCfgReg
  cases c.owner <;> rfl

theorem irqEnable_setCfgReg (s : State) (c : CfgReg) (d : Word) : (setCfgReg s c d).irqEnable = s.irqEnable := by
  unfold setCfgReg
  cases c.owner <;> rfl

theorem mem_setCfgReg (s : State) (c : CfgReg) (d : Word) : (setCfgReg s c d).mem = s.mem := by
  unfold setCfgReg
  cases c.owner <;> rfl

theorem tapWindow_setCfgReg (s : State) (c : CfgReg) (d : Word) (off : Nat) :
    tapWindow (setCfgReg s c d).fsync off = tapWindow s.fsync off := by
  unfold setCfgReg
  cases c.owner <;> rfl

theorem bankWord_setCfgReg (s : State) (c : CfgReg) (d : Word) (e : Engine) (off : Nat) :
    bankWord (setCfgReg s c d) e off = bankWord s e off := by
  unfold setCfgReg
  cases c.owner <;> cases e <;> rfl

/-- No other word of the bus changes with a configuration register. -/
theorem regRead_setCfgReg_ne (s : State) (d : Word) {a b : BusAddr} {c : CfgReg} (hc : cfgRegAt a = some c) (hne : b ≠ a) :
    regRead (setCfgReg s c d) b = regRead s b := by
  cases hb : cfgRegAt b with
  | some c' =>
    have hcc : c' ≠ c := fun h => hne (cfgRegAt_injective hb (h ▸ hc))
    rw [regRead_of_cfgReg hb, regRead_of_cfgReg hb, getCfgReg_setCfgReg_ne s d hcc]
  | none =>
    simp only [regRead, hb, irqStatus_setCfgReg, irqEnable_setCfgReg, mem_setCfgReg, tapWindow_setCfgReg, bankWord_setCfgReg]

/-- No other aligned word of the bus changes with a table word. -/
theorem regRead_writeWord_ne (s : State) (d : Word) {a b : BusAddr} (ha : aligned a = true) (hb : aligned b = true)
    (hne : b ≠ a) : regRead { s with mem := Memory.writeWord s.mem a.toNat d } b = regRead s b := by
  rw [aligned_iff] at ha
  cases hk : tableAt b with
  | some k =>
    have hapart : b.toNat + 3 < a.toNat ∨ a.toNat + 3 < b.toNat := by
      rw [aligned_iff] at hb
      rw [ne_eq, ← BitVec.toNat_inj] at hne
      omega
    rw [regRead_of_table hb hk, regRead_of_table hb hk, readWord_writeWord_ne _ _ _ _ hapart]
  | none =>
    simp only [regRead, hk]
    rfl

theorem ctlOf_setCfgReg (s : State) (c : CfgReg) (d : Word) (e : Engine) : (setCfgReg s c d).ctlOf e = s.ctlOf e := by
  unfold setCfgReg
  cases c.owner <;> cases e <;> rfl

theorem sameWork_setCfgReg (s : State) (c : CfgReg) (d : Word) (e : Engine) : sameWork e s (setCfgReg s c d) := by
  unfold setCfgReg
  cases c.owner <;> cases e <;> rfl

theorem cfg_setCfgReg (s : State) (c : CfgReg) (d : Word) : (setCfgReg s c d).samp.cfg = s.samp.cfg ∧
    (setCfgReg s c d).fsync.cfg = s.fsync.cfg ∧ (setCfgReg s c d).pins.cfg = s.pins.cfg ∧
    (setCfgReg s c d).cpfx.cfg = s.cpfx.cfg := by
  unfold setCfgReg
  cases c.owner <;> exact ⟨rfl, rfl, rfl, rfl⟩

theorem tableAt_of_cfgRegAt {a : BusAddr} {c : CfgReg} (h : cfgRegAt a = some c) : tableAt a = none := by
  obtain ⟨-, -, hbank, -⟩ := cfgRegTable_spec _ (mem_of_cfgRegAt h)
  refine tableAt_eq_none_of_lt ?_
  by_contra hge
  exact absurd (hbank.symm.trans ((bankAt_eq_none_iff a).mpr (by omega))) nofun

/-- The bits a table keeps of a written word (R69, log 24). -/
theorem keep_eq (k : Table) (d : Word) : k.keep d = if some k = some .constVal then d &&& 0xFF#32 else d := by
  cases k <;> rfl

/-- Settles O45: a register by what its own read returns, a table word by the bytes written. -/
theorem cfgWriteReadsBack : Obligations.CfgWriteReadsBack := by
  intro a d s hwf hirq hreg htab
  obtain ⟨ha, hcfg⟩ : aligned a = true ∧ isCfgWord a = true := by simpa [Instr.wf] using hwf
  cases hc : cfgRegAt a with
  | some c =>
    have hpolicy := policy_iff _ (mem_of_cfgRegAt hc)
    refine ⟨_, (exec_sysCfgwr_of_reg d hc).trans (congrArg _ (guardedWrite_of_off _ (hreg c hc))), ?_,
      fun b hne _ => regRead_setCfgReg_ne s d hc hne, fun n _ => by rw [mem_setCfgReg],
      fun e => ⟨ctlOf_setCfgReg s c d e, sameWork_setCfgReg s c d e⟩, cfg_setCfgReg s c d⟩
    rw [regRead_of_cfgReg hc, getCfgReg_setCfgReg_self, keptBits, if_congr hpolicy rfl rfl, tableAt_of_cfgRegAt hc]
    rfl
  | none =>
    cases hk : tableAt a with
    | none => simp [isCfgWord, hc, hk, hirq] at hcfg
    | some k =>
      have hnot : ¬(a = 0x0013C#20 ∨ a = 0x0023C#20) := by
        rintro (rfl | rfl) <;> exact absurd hk nofun
      refine ⟨_, (exec_sysCfgwr_of_table d hc hk).trans (congrArg _ (guardedWrite_of_off _ (htab k hk))), ?_,
        fun b hne hb => regRead_writeWord_ne s _ ha hb hne, fun n hn => read_writeWord_ne _ _ hn,
        fun e => by cases e <;> exact ⟨rfl, rfl⟩, rfl, rfl, rfl, rfl⟩
      rw [regRead_of_table ha hk, readWord_writeWord_self, if_neg hnot, keep_eq]

/-! ## The environment -/

theorem step_of_action {s : State} {a : Action} {rest : List Action} (h : s.agenda = a :: rest) :
    step s = perform { s with agenda := rest } a := by
  rw [step, h]

/-- A tag list and then an item, offered together to the run or to the next one. -/
theorem offer_addTags {α : Type} (p : InPort α) (en : Bool) (ts : List Tag) (y : α) : (p.addTags en ts).offer en y =
    if en = true then { p with tags := p.tags ++ ts, items := p.items ++ [y] }
    else { p with stagedTags := p.stagedTags ++ ts, staged := p.staged ++ [y] } := by
  cases en <;> rfl

theorem relayRxItem_of_some {s : State} {x : SigSymbol} (ys : List Cplx) (h : s.sampOut.items[s.sampOut.relayed]? = some x) :
    relayRxItem s ys = { s with
      fsyncIn := (s.fsyncIn.addTags s.fsync.ctl.en (tagsAt s.sampOut.tags s.sampOut.relayed)).offer s.fsync.ctl.en
        { s := ys, sig := x.sig }
      sampOut := { s.sampOut with relayed := s.sampOut.relayed + 1 } } := by
  simp only [relayRxItem, h]

theorem relayTxItem_of_some {s : State} {x : AuxSymbol} (ys : List Cplx) (h : s.pinsOut.items[s.pinsOut.relayed]? = some x) :
    relayTxItem s ys = { s with
      cpfxIn := (s.cpfxIn.addTags s.cpfx.ctl.en (tagsAt s.pinsOut.tags s.pinsOut.relayed)).offer s.cpfx.ctl.en
        { s := ys, eob := x.aux }
      pinsOut := { s.pinsOut with relayed := s.pinsOut.relayed + 1 } } := by
  simp only [relayTxItem, h]

theorem relayRxItem_of_none {s : State} (ys : List Cplx) (h : s.sampOut.items[s.sampOut.relayed]? = none) :
    relayRxItem s ys = s := by
  simp only [relayRxItem, h]

theorem relayTxItem_of_none {s : State} (ys : List Cplx) (h : s.pinsOut.items[s.pinsOut.relayed]? = none) :
    relayTxItem s ys = s := by
  simp only [relayTxItem, h]

/-- Settles O40: each relay with a next item and without one. -/
theorem relayKeepsFlagAndTags : Obligations.RelayKeepsFlagAndTags := by
  intro s ys rest
  refine ⟨fun ha => ⟨fun x hx => ?_, fun hx => ?_⟩, fun ha => ⟨fun x hx => ?_, fun hx => ?_⟩⟩
  · rw [step_of_action ha, perform, relayRxItem_of_some (s := { s with agenda := rest }) ys hx, offer_addTags]
    rfl
  · rw [step_of_action ha, perform, relayRxItem_of_none (s := { s with agenda := rest }) ys hx]
  · rw [step_of_action ha, perform, relayTxItem_of_some (s := { s with agenda := rest }) ys hx, offer_addTags]
    rfl
  · rw [step_of_action ha, perform, relayTxItem_of_none (s := { s with agenda := rest }) ys hx]

/-- Settles O57. -/
theorem hardwareResetResult : Obligations.HardwareResetResult := by
  intro s rest ha
  rw [step_of_action ha]
  rfl

end Sys2Proof.Proofs.System
